-- ==== Sys2Proof/Word.lean ====
section
/-! DEFINITION. The plain data the block moves: bytes, symbol words, input symbols, modes, and the
field file of the frame-packing decode (spec/00_scope.md R9, R10; spec/10_state.md R16, R24). -/

namespace Sys2Proof

/-- A byte: 8 bits, bit 7 the most significant (00_scope.md R9). -/
abbrev Byte := BitVec 8

/-- The 9-bit symbol word W: `W[8]` the end flag, `W[7:0]` the byte (30_encoding.md R48). -/
abbrev SymWord := BitVec 9

/-- One input symbol: a byte, or the end-of-stream marker `End` (20_memory.md R32). -/
inductive Symbol where
  | byte (b : Byte)
  | eos
  deriving DecidableEq, Repr

/-- Which unit consumes the next symbol (10_state.md R16). -/
inductive Mode where
  | scan
  | type
  | size
  | copy
  | done
  deriving DecidableEq, Repr

/-- How the NAL header byte is tested for SEI: the parameter `P_HDR_MATCH` (00_scope.md R7). -/
inductive HdrMatch where
  | literal
  | typeMask
  deriving DecidableEq, Repr

/-- The frame-packing field file `F`: one optional slot per field, in read order
(43_frame_packing.md R108, 30_encoding.md R56). Every decoded value is a natural (00_scope.md R10). -/
structure FieldFile where
  id : Option Nat
  cancelFlag : Option Nat
  /-- The spec's `type`. -/
  arrangementType : Option Nat
  quincunxSamplingFlag : Option Nat
  contentInterpretationType : Option Nat
  spatialFlipping : Option Nat
  frame0Flipped : Option Nat
  fieldViews : Option Nat
  currentFrameIsFrame0 : Option Nat
  frame0SelfContained : Option Nat
  frame1SelfContained : Option Nat
  grid0 : Option Nat
  grid1 : Option Nat
  grid2 : Option Nat
  grid3 : Option Nat
  reservedByte : Option Nat
  repetitionPeriod : Option Nat
  extensionFlag : Option Nat
  deriving DecidableEq, Repr

/-- "all fields None": the field file at the start of a decode (43_frame_packing.md R87, R108). -/
def FieldFile.empty : FieldFile :=
  ⟨none, none, none, none, none, none, none, none, none,
   none, none, none, none, none, none, none, none, none⟩

end Sys2Proof
end

