-- ==== Sys2Proof/Config.lean ====
section
/-! DEFINITION. The implementation parameters and fixed constants of the block (spec/00_scope.md
R7, R8). The parameters are static inputs: State holds them and no step writes them (log 1). -/

namespace Sys2Proof

/-- The four parameters of 00_scope.md R7. The cap's range 0..32 is in its type. -/
structure Params where
  /-- `P_HDR_MATCH`. -/
  hdrMatch : HdrMatch
  /-- `P_EG_MAX_ZEROS`, 0..32. -/
  egMaxZeros : Fin 33
  /-- `P_ACC_BITS`: `none` is unbounded. -/
  accBits : Option Nat
  /-- `P_BUF_BYTES`: `none` is unbounded. -/
  bufBytes : Option Nat
  deriving DecidableEq, Repr

/-- The default column of 00_scope.md R7. -/
def Params.default : Params :=
  { hdrMatch := .typeMask, egMaxZeros := 32, accBits := none, bufBytes := none }

/-- "`None` or natural ≥ 8": the one range of 00_scope.md R7 that the types do not carry. -/
def Params.wf (p : Params) : Bool :=
  match p.accBits with
  | none => true
  | some k => decide (8 ≤ k)

/-! The fixed constants of 00_scope.md R8. -/

/-- `SEI_NAL_TYPE`. -/
abbrev seiNalType : Byte := 6
/-- `NAL_TYPE_MASK`, "the low 5 bits". -/
abbrev nalTypeMask : Byte := 0x1F
/-- `SEI_LITERAL_HDR`. -/
abbrev seiLiteralHdr : Byte := 0x06
/-- `FF_CONT`. -/
abbrev ffCont : Byte := 0xFF
/-- `EPB`, the emulation-prevention byte. -/
abbrev epb : Byte := 0x03
/-- `FPA_PAYLOAD_TYPE`. -/
abbrev fpaPayloadType : Nat := 45
/-- `FPA_TYPE_NO_GRID`, the `type` value that suppresses the grid quartet. -/
abbrev fpaTypeNoGrid : Nat := 5
/-- `U_MAX_WIDTH`, the largest width `read_unsigned` accepts. -/
abbrev uMaxWidth : Nat := 32

end Sys2Proof
end

