-- ==== Sys2Proof/Syntax.lean ====
section
/-! DEFINITION. The instructions: one constructor per row of spec/opcode_table.json, in the table's
order. The operands are the table's own fields (`b`, `w`); a byte the row fixes is no operand. -/

namespace Sys2Proof

/-- One operation of the block. The first fifteen are selected by an input symbol (30_encoding.md
R58), the others by the frame-packing grammar (30_encoding.md R56). -/
inductive Instr where
  | scanHdrSeiLiteral
  | scanHdrSeiTypemask (b : Byte)
  | scanHdrOther (b : Byte)
  | scanZero
  | scanOne
  | scanOther (b : Byte)
  | endScan
  | typeCont
  | typeLast (b : Byte)
  | sizeCont
  | sizeLast (b : Byte)
  | copyEpb
  | copyData (b : Byte)
  | endTrunc
  | doneAny (sym : Symbol)
  | readBit
  | readU (w : Nat)
  | readUe
  | decodeFpa
  | fpaId
  | fpaCancel
  | fpaType
  | fpaQuincunx
  | fpaCit
  | fpaSpatialFlipping
  | fpaFrame0Flipped
  | fpaFieldViews
  | fpaCurrentFrameIsFrame0
  | fpaFrame0SelfContained
  | fpaFrame1SelfContained
  | fpaGrid0
  | fpaGrid1
  | fpaGrid2
  | fpaGrid3
  | fpaReservedByte
  | fpaRepetitionPeriod
  | fpaExtensionFlag
  | fpaTrailer
  deriving DecidableEq, Repr

end Sys2Proof
end

