-- ==== Sys2Proof/WellFormed.lean ====
section
/-! DEFINITION. Which instruction terms are well formed: the operand conditions that
spec/opcode_table.json puts on a row whatever the machine's state is. -/

namespace Sys2Proof

/-- The operand checks of the table's "condition" column that name no state. -/
def Instr.wellFormed : Instr → Bool
  | .scanHdrSeiTypemask b => b &&& nalTypeMask == seiNalType
  | .scanHdrOther b => b != seiLiteralHdr
  | .scanOther b => b != 0x00 && b != 0x01
  | .typeLast b => b != ffCont
  | .sizeLast b => b != ffCont
  | .readU w => decide (w ≤ uMaxWidth)
  | .scanHdrSeiLiteral | .scanZero | .scanOne | .endScan | .typeCont | .sizeCont | .copyEpb
  | .copyData _ | .endTrunc | .doneAny _ | .readBit | .readUe | .decodeFpa | .fpaId | .fpaCancel
  | .fpaType | .fpaQuincunx | .fpaCit | .fpaSpatialFlipping | .fpaFrame0Flipped | .fpaFieldViews
  | .fpaCurrentFrameIsFrame0 | .fpaFrame0SelfContained | .fpaFrame1SelfContained | .fpaGrid0
  | .fpaGrid1 | .fpaGrid2 | .fpaGrid3 | .fpaReservedByte | .fpaRepetitionPeriod
  | .fpaExtensionFlag | .fpaTrailer => true

end Sys2Proof
end

