-- ==== Sys2Proof/Decode.lean ====
section
/-! DEFINITION. The decoder and the encoder. An operation is selected from a context (mode, `sc`,
`zc`, header-match parameter, field file) and a code: a symbol word (spec/30_encoding.md R48, R58),
a BitCursor format or a grammar item (R54 to R57), or a completed payload's type
(spec/42_payload_extractor.md R82). -/

namespace Sys2Proof

/-! ### Symbols and symbol words -/

/-- `Byte(b)` is W = b with W[8] = 0, `End` is W = 0x100 (30_encoding.md R48). -/
def Symbol.word : Symbol → SymWord
  | .byte b => b.setWidth 9
  | .eos => 0x100

/-- The end flag E = W[8] (30_encoding.md R48). -/
def SymWord.isEnd (w : SymWord) : Bool := w.getLsbD 8

/-- The byte b = W[7:0] (30_encoding.md R48). -/
def SymWord.data (w : SymWord) : Byte := w.setWidth 8

/-- The symbol a word stands for. Under E = 1 the low bits are not looked at: the table's masks for
`End` are 0x100 (log 8). -/
def Symbol.ofWord (w : SymWord) : Symbol :=
  if SymWord.isEnd w then .eos else .byte (SymWord.data w)

/-! ### The selection context -/

/-- What an operation is selected from beside its code (30_encoding.md R56, R58). -/
structure Ctx where
  mode : Mode
  sc : Fin 4
  zc : Fin 3
  hdrMatch : HdrMatch
  fpa : FieldFile
  deriving DecidableEq, Repr

/-- The SEI header test `HdrIsSei` (30_encoding.md R51). -/
def hdrIsSei (m : HdrMatch) (h : Byte) : Bool :=
  match m with
  | .literal => h == seiLiteralHdr
  | .typeMask => h &&& nalTypeMask == seiNalType

/-- A byte in SCAN mode (30_encoding.md R58). The header row taken is the one of the parameter's
setting (41_nal_scanner.md R71). -/
def selectScan (c : Ctx) (b : Byte) : Instr :=
  if c.sc = 3 then
    if hdrIsSei c.hdrMatch b then
      match c.hdrMatch with
      | .literal => .scanHdrSeiLiteral
      | .typeMask => .scanHdrSeiTypemask b
    else .scanHdrOther b
  else if b = 0x00 then .scanZero
  else if b = 0x01 then .scanOne
  else .scanOther b

/-- The operation map over symbol words (30_encoding.md R58): total on every context and word. -/
def selectSymbol (c : Ctx) (w : SymWord) : Instr :=
  match c.mode with
  | .done => .doneAny (Symbol.ofWord w)
  | .scan => if SymWord.isEnd w then .endScan else selectScan c (SymWord.data w)
  | .type =>
    if SymWord.isEnd w then .endTrunc
    else if SymWord.data w = ffCont then .typeCont else .typeLast (SymWord.data w)
  | .size =>
    if SymWord.isEnd w then .endTrunc
    else if SymWord.data w = ffCont then .sizeCont else .sizeLast (SymWord.data w)
  | .copy =>
    if SymWord.isEnd w then .endTrunc
    else if c.zc = 2 ∧ SymWord.data w = epb then .copyEpb else .copyData (SymWord.data w)

/-! ### The grammar -/

/-- `GridPresent` (43_frame_packing.md R99), over the slots just read. -/
def gridPresent (f : FieldFile) : Bool :=
  f.quincunxSamplingFlag == some 0 && f.arrangementType != some fpaTypeNoGrid

/-- The item the grammar reads next, given the slots already present (30_encoding.md R56, its
"condition" column). -/
def grammarNext (f : FieldFile) : Instr :=
  if f.id = none then .fpaId
  else if f.cancelFlag = none then .fpaCancel
  else if f.cancelFlag = some 0 ∧ f.arrangementType = none then .fpaType
  else if f.cancelFlag = some 0 ∧ f.quincunxSamplingFlag = none then .fpaQuincunx
  else if f.cancelFlag = some 0 ∧ f.contentInterpretationType = none then .fpaCit
  else if f.cancelFlag = some 0 ∧ f.spatialFlipping = none then .fpaSpatialFlipping
  else if f.cancelFlag = some 0 ∧ f.frame0Flipped = none then .fpaFrame0Flipped
  else if f.cancelFlag = some 0 ∧ f.fieldViews = none then .fpaFieldViews
  else if f.cancelFlag = some 0 ∧ f.currentFrameIsFrame0 = none then .fpaCurrentFrameIsFrame0
  else if f.cancelFlag = some 0 ∧ f.frame0SelfContained = none then .fpaFrame0SelfContained
  else if f.cancelFlag = some 0 ∧ f.frame1SelfContained = none then .fpaFrame1SelfContained
  else if f.cancelFlag = some 0 ∧ gridPresent f ∧ f.grid0 = none then .fpaGrid0
  else if f.cancelFlag = some 0 ∧ gridPresent f ∧ f.grid1 = none then .fpaGrid1
  else if f.cancelFlag = some 0 ∧ gridPresent f ∧ f.grid2 = none then .fpaGrid2
  else if f.cancelFlag = some 0 ∧ gridPresent f ∧ f.grid3 = none then .fpaGrid3
  else if f.cancelFlag = some 0 ∧ f.reservedByte = none then .fpaReservedByte
  else if f.cancelFlag = some 0 ∧ f.repetitionPeriod = none then .fpaRepetitionPeriod
  else if f.extensionFlag = none then .fpaExtensionFlag
  else .fpaTrailer

/-- The "format" column of the table's bit-level rows (30_encoding.md R54, R55, R57). -/
inductive Format where
  | bit
  | u (n : Nat)
  | ue
  | bitsToEnd
  deriving DecidableEq, Repr

/-- What an operation is decoded from: a symbol word, a BitCursor read of a format that a field
issues, the grammar's next item with its format, or a completed payload of type `pt`. -/
inductive Code where
  | word (w : SymWord)
  | read (f : Format)
  | item (f : Format)
  | payload (pt : Nat)
  deriving DecidableEq, Repr

/-- Why a code is rejected. -/
inductive Reject where
  /-- A number of more than 9 bits is no symbol word (30_encoding.md R48). -/
  | notASymbolWord
  /-- `u(n)` with n > 32 is no format (30_encoding.md R54, 40_bitcursor.md R69). -/
  | widthOver32
  /-- The BitCursor has no read of this format (40_bitcursor.md R63). -/
  | notACursorRead
  /-- The grammar's next item does not have this format (30_encoding.md R56). -/
  | notTheNextItem
  /-- Only payload_type 45 is decoded (42_payload_extractor.md R82). -/
  | notFramePacking
  deriving DecidableEq, Repr

/-- The decoder's answer. -/
inductive Decoded where
  | instr (i : Instr)
  | rejected (r : Reject)
  deriving DecidableEq, Repr

/-! ### The encoder -/

/-- The code of an instruction: the symbol word its row's match gives with the operand filled in,
or the format its row's "format" column gives. -/
def encode : Instr → Code
  | .scanHdrSeiLiteral => .word 0x006
  | .scanHdrSeiTypemask b => .word (Symbol.word (.byte b))
  | .scanHdrOther b => .word (Symbol.word (.byte b))
  | .scanZero => .word 0x000
  | .scanOne => .word 0x001
  | .scanOther b => .word (Symbol.word (.byte b))
  | .endScan => .word 0x100
  | .typeCont => .word 0x0FF
  | .typeLast b => .word (Symbol.word (.byte b))
  | .sizeCont => .word 0x0FF
  | .sizeLast b => .word (Symbol.word (.byte b))
  | .copyEpb => .word 0x003
  | .copyData b => .word (Symbol.word (.byte b))
  | .endTrunc => .word 0x100
  | .doneAny sym => .word (Symbol.word sym)
  | .readBit => .read .bit
  | .readU w => .read (.u w)
  | .readUe => .read .ue
  | .decodeFpa => .payload 45
  | .fpaId => .item .ue
  | .fpaCancel => .item (.u 1)
  | .fpaType => .item (.u 7)
  | .fpaQuincunx => .item (.u 1)
  | .fpaCit => .item (.u 6)
  | .fpaSpatialFlipping => .item (.u 1)
  | .fpaFrame0Flipped => .item (.u 1)
  | .fpaFieldViews => .item (.u 1)
  | .fpaCurrentFrameIsFrame0 => .item (.u 1)
  | .fpaFrame0SelfContained => .item (.u 1)
  | .fpaFrame1SelfContained => .item (.u 1)
  | .fpaGrid0 => .item (.u 4)
  | .fpaGrid1 => .item (.u 4)
  | .fpaGrid2 => .item (.u 4)
  | .fpaGrid3 => .item (.u 4)
  | .fpaReservedByte => .item (.u 8)
  | .fpaRepetitionPeriod => .item .ue
  | .fpaExtensionFlag => .item (.u 1)
  | .fpaTrailer => .item .bitsToEnd

/-! ### The decoder -/

/-- The BitCursor operation a format selects (40_bitcursor.md R64, R65, R66). -/
def decodeRead : Format → Decoded
  | .bit => .instr .readBit
  | .u n => if n ≤ uMaxWidth then .instr (.readU n) else .rejected .widthOver32
  | .ue => .instr .readUe
  | .bitsToEnd => .rejected .notACursorRead

/-- The format a grammar item reads (30_encoding.md R56, "format" column). -/
def itemFormat : Instr → Option Format
  | .fpaId => some .ue
  | .fpaCancel => some (.u 1)
  | .fpaType => some (.u 7)
  | .fpaQuincunx => some (.u 1)
  | .fpaCit => some (.u 6)
  | .fpaSpatialFlipping => some (.u 1)
  | .fpaFrame0Flipped => some (.u 1)
  | .fpaFieldViews => some (.u 1)
  | .fpaCurrentFrameIsFrame0 => some (.u 1)
  | .fpaFrame0SelfContained => some (.u 1)
  | .fpaFrame1SelfContained => some (.u 1)
  | .fpaGrid0 => some (.u 4)
  | .fpaGrid1 => some (.u 4)
  | .fpaGrid2 => some (.u 4)
  | .fpaGrid3 => some (.u 4)
  | .fpaReservedByte => some (.u 8)
  | .fpaRepetitionPeriod => some .ue
  | .fpaExtensionFlag => some (.u 1)
  | .fpaTrailer => some .bitsToEnd
  | .scanHdrSeiLiteral | .scanHdrSeiTypemask _ | .scanHdrOther _ | .scanZero | .scanOne
  | .scanOther _ | .endScan | .typeCont | .typeLast _ | .sizeCont | .sizeLast _ | .copyEpb
  | .copyData _ | .endTrunc | .doneAny _ | .readBit | .readU _ | .readUe | .decodeFpa => none

/-- The decoder: total on every context and code, rejecting by name. -/
def decode (c : Ctx) : Code → Decoded
  | .word w => .instr (selectSymbol c w)
  | .read f => decodeRead f
  | .item f =>
    if itemFormat (grammarNext c.fpa) = some f then .instr (grammarNext c.fpa)
    else .rejected .notTheNextItem
  | .payload pt => if pt = fpaPayloadType then .instr .decodeFpa else .rejected .notFramePacking

/-- The decoder on any number: a symbol word has 9 bits (30_encoding.md R48). -/
def decodeNat (c : Ctx) (w : Nat) : Decoded :=
  if w < 512 then decode c (.word (BitVec.ofNat 9 w)) else .rejected .notASymbolWord

/-- When an operation may be selected in a context: the "mode" and "condition" columns of
opcode_table.json for the symbol rows (30_encoding.md R58), the grammar's position for the items
(30_encoding.md R56). The BitCursor reads and DECODE_FPA name no state. -/
def Instr.selectable (c : Ctx) : Instr → Bool
  | .scanHdrSeiLiteral => c.mode == .scan && c.sc == 3 && c.hdrMatch == .literal
  | .scanHdrSeiTypemask b => c.mode == .scan && c.sc == 3 && c.hdrMatch == .typeMask && hdrIsSei .typeMask b
  | .scanHdrOther b => c.mode == .scan && c.sc == 3 && !hdrIsSei c.hdrMatch b
  | .scanZero => c.mode == .scan && decide (c.sc < 3)
  | .scanOne => c.mode == .scan && decide (c.sc < 3)
  | .scanOther b => c.mode == .scan && decide (c.sc < 3) && b != 0x00 && b != 0x01
  | .endScan => c.mode == .scan
  | .typeCont => c.mode == .type
  | .typeLast b => c.mode == .type && b != ffCont
  | .sizeCont => c.mode == .size
  | .sizeLast b => c.mode == .size && b != ffCont
  | .copyEpb => c.mode == .copy && c.zc == 2
  | .copyData b => c.mode == .copy && !(c.zc == 2 && b == epb)
  | .endTrunc => c.mode == .type || c.mode == .size || c.mode == .copy
  | .doneAny _ => c.mode == .done
  | .readBit => true
  | .readU _ => true
  | .readUe => true
  | .decodeFpa => true
  | .fpaId => grammarNext c.fpa == .fpaId
  | .fpaCancel => grammarNext c.fpa == .fpaCancel
  | .fpaType => grammarNext c.fpa == .fpaType
  | .fpaQuincunx => grammarNext c.fpa == .fpaQuincunx
  | .fpaCit => grammarNext c.fpa == .fpaCit
  | .fpaSpatialFlipping => grammarNext c.fpa == .fpaSpatialFlipping
  | .fpaFrame0Flipped => grammarNext c.fpa == .fpaFrame0Flipped
  | .fpaFieldViews => grammarNext c.fpa == .fpaFieldViews
  | .fpaCurrentFrameIsFrame0 => grammarNext c.fpa == .fpaCurrentFrameIsFrame0
  | .fpaFrame0SelfContained => grammarNext c.fpa == .fpaFrame0SelfContained
  | .fpaFrame1SelfContained => grammarNext c.fpa == .fpaFrame1SelfContained
  | .fpaGrid0 => grammarNext c.fpa == .fpaGrid0
  | .fpaGrid1 => grammarNext c.fpa == .fpaGrid1
  | .fpaGrid2 => grammarNext c.fpa == .fpaGrid2
  | .fpaGrid3 => grammarNext c.fpa == .fpaGrid3
  | .fpaReservedByte => grammarNext c.fpa == .fpaReservedByte
  | .fpaRepetitionPeriod => grammarNext c.fpa == .fpaRepetitionPeriod
  | .fpaExtensionFlag => grammarNext c.fpa == .fpaExtensionFlag
  | .fpaTrailer => grammarNext c.fpa == .fpaTrailer

/-! ### Bit encoders (used by statements; the block itself only decodes) -/

/-- `u(n)` of a value, most significant bit first (30_encoding.md R54, 20_memory.md R35). -/
def uBits : Nat → Nat → List Bool
  | 0, _ => []
  | n + 1, v => v.testBit n :: uBits n v

/-- The `ue(v)` codeword: z zeros, a one, and the z-bit suffix v + 1 - 2^z, with
z = ⌊log2 (v + 1)⌋ (30_encoding.md R55). -/
def ueBits (v : Nat) : List Bool :=
  List.replicate (Nat.log2 (v + 1)) false ++
    true :: uBits (Nat.log2 (v + 1)) (v + 1 - 2 ^ Nat.log2 (v + 1))

/-- The bits of one optional field: nothing when absent. -/
def fieldBits (enc : Nat → List Bool) : Option Nat → List Bool
  | none => []
  | some v => enc v

/-- The bits of a frame packing arrangement, its present fields in the order of 30_encoding.md R56. -/
def fpaBits (f : FieldFile) : List Bool :=
  fieldBits ueBits f.id ++ fieldBits (uBits 1) f.cancelFlag ++
  fieldBits (uBits 7) f.arrangementType ++ fieldBits (uBits 1) f.quincunxSamplingFlag ++
  fieldBits (uBits 6) f.contentInterpretationType ++ fieldBits (uBits 1) f.spatialFlipping ++
  fieldBits (uBits 1) f.frame0Flipped ++ fieldBits (uBits 1) f.fieldViews ++
  fieldBits (uBits 1) f.currentFrameIsFrame0 ++ fieldBits (uBits 1) f.frame0SelfContained ++
  fieldBits (uBits 1) f.frame1SelfContained ++ fieldBits (uBits 4) f.grid0 ++
  fieldBits (uBits 4) f.grid1 ++ fieldBits (uBits 4) f.grid2 ++ fieldBits (uBits 4) f.grid3 ++
  fieldBits (uBits 8) f.reservedByte ++ fieldBits ueBits f.repetitionPeriod ++
  fieldBits (uBits 1) f.extensionFlag

/-- The ff-coding of n: n div 255 bytes `FF`, then n mod 255 (30_encoding.md R52, R62). -/
def ffBytes (n : Nat) : List Byte :=
  List.replicate (n / 255) ffCont ++ [BitVec.ofNat 8 (n % 255)]

/-! ### The table's numbering -/

/-- The selection context right after reset: SCAN mode, no start-code byte matched, default
parameters (70_reset_and_hazards.md R124). -/
def resetCtx : Ctx :=
  { mode := .scan, sc := 0, zc := 0, hdrMatch := .typeMask, fpa := .empty }

/-- The instruction the decoder reads from a table word, in the context right after reset: a word
alone selects no row (30_encoding.md R48: "from (`mode`, `sc` or `zc`, W)"); log 10. -/
def decodeTableWord (nbits w : Nat) : Option Instr :=
  match decodeNat resetCtx (w % 2 ^ nbits) with
  | .instr i => some i
  | .rejected _ => none

end Sys2Proof
end

