-- ==== Sys2Proof/Machine/State.lean ====
section
/-! DEFINITION. The state of the block as plain data (spec/10_state.md R15, R24), the result record
(spec/20_memory.md R41), the ways a step can stop, and the state after reset
(spec/70_reset_and_hazards.md R124). -/

namespace Sys2Proof.Machine

/-- The status of a result record (20_memory.md R41, 60_exceptions.md R111). -/
inductive Status where
  | fpaOk
  | skipped
  | truncated
  | malformed
  deriving DecidableEq, Repr

/-- The cause of a result record (20_memory.md R41, 60_exceptions.md R111). -/
inductive Cause where
  | none
  | outOfRange
  | malformedGolomb
  deriving DecidableEq, Repr

/-- The two error kinds a BitCursor read raises (60_exceptions.md R112, R113). TruncatedPayload is
the effect of END_TRUNC, and MalformedSeiPayload is the form these two leave the decode in (R115). -/
inductive ErrKind where
  | outOfRange
  | malformedGolombCode
  deriving DecidableEq, Repr

/-- The model faults (60_exceptions.md R116). -/
inductive ModelFault where
  | inputAfterEnd
  | capacityExceeded
  deriving DecidableEq, Repr

/-- The result record (20_memory.md R41). -/
structure Record where
  status : Status
  cause : Cause
  payloadType : Option Nat
  payloadSize : Option Nat
  fpa : FieldFile
  trailer : List Bool
  deriving DecidableEq, Repr

/-- The payload buffer: (address, byte) cells, addresses strictly rising, no cell equal to what an
unlisted address reads as (20_memory.md R33, R47; the reading of an unlisted address is log 3). -/
abbrev Memory := List Host.Cell

/-- The BitCursor `{ cur_pos, cur_len }` (10_state.md R24, 40_bitcursor.md R63). -/
structure Cursor where
  pos : Nat
  len : Nat
  deriving DecidableEq, Repr

/-- The decode-local registers (10_state.md R24): the cursor, the field file F and the trailer T.
`ret` is the model's own: the value a BitCursor operation executed by itself returns (log 6). -/
structure DecodeRegs where
  cur : Cursor
  fpa : FieldFile
  trailer : List Bool
  ret : Nat
  deriving DecidableEq, Repr

/-- The registers while no decode runs: the spec gives them no value then (70_reset_and_hazards.md
R124); DESIGN CHOICE zero, all None and empty (log 5). -/
def DecodeRegs.idle : DecodeRegs :=
  { cur := { pos := 0, len := 0 }, fpa := .empty, trailer := [], ret := 0 }

/-- The state of the block (10_state.md R15), its static parameters (00_scope.md R7, R27), its
decode-local registers (R24), and the symbols the host has offered (20_memory.md R32, log 2). -/
structure State where
  params : Params
  mode : Mode
  sc : Fin 4
  pt : Nat
  ps : Nat
  zc : Fin 3
  nOut : Nat
  buf : Memory
  fault : Option ModelFault
  inPos : Nat
  out : List Record
  dec : DecodeRegs
  input : List Symbol
  deriving DecidableEq, Repr

/-- Why the machine stops with a fault. -/
inductive Fault where
  /-- Raised by `step` in a state whose `fault` register holds InputAfterEnd: "the machine has no
  step" (10_state.md R22, R26). Safe: the spec gives no step either. -/
  | stuckInputAfterEnd
  /-- Raised by `step` in a state whose `fault` register holds CapacityExceeded (10_state.md R22,
  R26). Safe: the spec gives no step either. -/
  | stuckCapacityExceeded
  deriving DecidableEq, Repr

/-- Why the model gives a step no meaning. -/
inductive Refusal where
  /-- Raised by `exec` for an instruction without a meaning. Safe. No arm raises it. -/
  | notModelled (mnemonic : String)
  /-- Raised by `step` when the host has offered no symbol: a step consumes one
  (20_memory.md R32), so there is none, and the machine waits (spec I17). Safe. -/
  | awaitingSymbol
  /-- Raised by READ_U with a width above 32, which is "never issued" and which "a model may
  refuse" (40_bitcursor.md R69, spec I14). Safe. -/
  | readWidthOver32
  deriving DecidableEq, Repr

/-- The reset values of 70_reset_and_hazards.md R124 under given parameters, which "are set before
reset" (R126). -/
def State.resetWith (p : Params) : State :=
  { params := p, mode := .scan, sc := 0, pt := 0, ps := 0, zc := 0, nOut := 0, buf := [],
    fault := none, inPos := 0, out := [], dec := .idle, input := [] }

/-- The machine right after reset, with the default parameters of 00_scope.md R7. -/
def State.reset : State := State.resetWith Params.default

end Sys2Proof.Machine
end

