-- ==== Sys2Proof/Machine/Ops.lean ====
section
/-! DEFINITION. The operations the meanings share: the payload buffer, the input and output ports,
the model faults, the capacity checks, and taking a unit-local error (spec/20_memory.md R32, R33,
R41; spec/60_exceptions.md R116, R118). -/

namespace Sys2Proof.Machine

/-! ### The payload buffer -/

/-- What an address that no cell lists reads as. The spec leaves it open and unobservable
(10_state.md R30, spec I11); DESIGN CHOICE 0x00 (log 3). -/
def Memory.unwritten : Byte := 0x00

/-- `MemRead(i, 1)` (20_memory.md R33). -/
def Memory.read : Memory → Nat → Byte
  | [], _ => Memory.unwritten
  | (k, v) :: m, a => if k = a then v else Memory.read m a

/-- A cell at the front of a memory, left out when it says what an unlisted address says. -/
def Memory.cons (a : Nat) (b : Byte) (m : Memory) : Memory :=
  if b = Memory.unwritten then m else (a, b) :: m

/-- `MemWrite(i, 1, b)` (20_memory.md R33), keeping the canonical form. -/
def Memory.write : Memory → Nat → Byte → Memory
  | [], a, b => Memory.cons a b []
  | (k, v) :: m, a, b =>
    if a < k then Memory.cons a b ((k, v) :: m)
    else if a = k then Memory.cons a b m
    else (k, v) :: Memory.write m a b

/-- The canonical form above a bound: rising addresses from `lo` on, no default cell. -/
def Memory.wfFrom : Nat → Memory → Bool
  | _, [] => true
  | lo, (k, v) :: m => decide (lo ≤ k) && v != Memory.unwritten && Memory.wfFrom (k + 1) m

/-- The canonical form of the buffer. -/
def Memory.wf (m : Memory) : Bool := Memory.wfFrom 0 m

/-! ### Ports and small updates -/

/-- The context the next symbol's operation is selected in (30_encoding.md R48, R58). -/
def State.ctx (s : State) : Ctx :=
  { mode := s.mode, sc := s.sc, zc := s.zc, hdrMatch := s.params.hdrMatch, fpa := s.dec.fpa }

/-- The symbol is consumed: `in_pos <- in_pos + 1`, and the host's stream advances
(10_state.md R26, 20_memory.md R32). -/
def State.consume (s : State) (rest : List Symbol) : State :=
  { s with inPos := s.inPos + 1, input := rest }

/-- The host offers symbols, after those it has already offered (70_reset_and_hazards.md R128). -/
def State.offer (s : State) (syms : List Symbol) : State :=
  { s with input := s.input ++ syms }

/-- `Emit(rec)`: append a record to the output log (20_memory.md R41, R39). -/
def State.emit (s : State) (r : Record) : State :=
  { s with out := s.out ++ [r] }

/-- `EndUnit()` (42_payload_extractor.md R86). -/
def State.endUnit (s : State) : State :=
  { s with mode := .scan }

/-- `fault F` (00_scope.md R11, 60_exceptions.md R116): the fault register is set, and the rest of
the step does not execute. -/
def State.raiseFault (s : State) (f : ModelFault) : State :=
  { s with fault := some f }

/-- The decode-local registers are replaced. -/
def State.setDec (s : State) (d : DecodeRegs) : State :=
  { s with dec := d }

/-- The outcome of a step in a faulted state (10_state.md R22, R26). -/
def ModelFault.stuck : ModelFault → Fault
  | .inputAfterEnd => .stuckInputAfterEnd
  | .capacityExceeded => .stuckCapacityExceeded

/-! ### Capacity -/

/-- Does a value fit an accumulator of `P_ACC_BITS` bits (42_payload_extractor.md R77, R84)? -/
def fitsAcc (p : Params) (v : Nat) : Bool :=
  match p.accBits with
  | none => true
  | some k => decide (v < 2 ^ k)

/-- Does a payload of type `pt` and size `ps` fit the buffer (42_payload_extractor.md R79, R84)? -/
def fitsBuf (p : Params) (pt ps : Nat) : Bool :=
  match p.bufBytes with
  | none => true
  | some n => !(pt == fpaPayloadType && decide (n < ps))

/-! ### Records and unit-local errors -/

/-- `CauseOf(E)` (43_frame_packing.md R109). -/
def causeOf : ErrKind → Cause
  | .outOfRange => .outOfRange
  | .malformedGolombCode => .malformedGolomb

/-- The SKIPPED record (42_payload_extractor.md R82). -/
def skippedRecord (pt ps : Nat) : Record :=
  { status := .skipped, cause := .none, payloadType := some pt, payloadSize := some ps,
    fpa := .empty, trailer := [] }

/-- The FPA_OK record (43_frame_packing.md R87, R108). -/
def okRecord (ps : Nat) (f : FieldFile) (t : List Bool) : Record :=
  { status := .fpaOk, cause := .none, payloadType := some fpaPayloadType, payloadSize := some ps,
    fpa := f, trailer := t }

/-- The MALFORMED record (43_frame_packing.md R109). -/
def malformedRecord (e : ErrKind) (ps : Nat) (f : FieldFile) : Record :=
  { status := .malformed, cause := causeOf e, payloadType := some fpaPayloadType,
    payloadSize := some ps, fpa := f, trailer := [] }

/-- The TRUNCATED record of a stream that ends in a mode (42_payload_extractor.md R83). -/
def truncatedRecord (m : Mode) (pt ps : Nat) : Record :=
  { status := .truncated, cause := .none,
    payloadType := if m = .size ∨ m = .copy then some pt else none,
    payloadSize := if m = .copy then some ps else none,
    fpa := .empty, trailer := [] }

/-- TAKING A UNIT-LOCAL ERROR (60_exceptions.md R118): the decode stops, the MALFORMED record with
the fields completed so far is emitted, the cursor and field file are gone, and `mode` becomes
SCAN, where scanning resumes (R119). "Nothing else is saved"; `buf`, `n_out`, `zc`, `pt` and `ps`
keep their dead values (42_payload_extractor.md R86, log 11). -/
def State.takeError (s : State) (e : ErrKind) : State :=
  ((s.emit (malformedRecord e s.ps s.dec.fpa)).setDec .idle).endUnit

/-- The next state of an outcome, if it is one: for tests and statements. -/
def nextOf : Host.Outcome State Fault Refusal → Option State
  | .next s => some s
  | .fault _ => none
  | .refused _ => none

end Sys2Proof.Machine
end

