-- ==== Sys2Proof/Machine/Operands.lean ====
section
/-! DEFINITION. The operand forms: the bit space of the buffer, the BitCursor reads, the fields of
the frame-packing grammar, and the start-code match state (spec/20_memory.md R34, R35;
spec/40_bitcursor.md; spec/43_frame_packing.md; spec/41_nal_scanner.md R70). -/

namespace Sys2Proof.Machine

/-! ### The bit space -/

/-- `BitAt(buf, p)`: bit 7 - (p mod 8) of byte p div 8 (20_memory.md R34). -/
def bitAt (buf : Memory) (p : Nat) : Bool :=
  (Memory.read buf (p / 8)).getLsbD (7 - p % 8)

/-- The value of w bits from position p, first bit most significant (20_memory.md R35): the loop
of 40_bitcursor.md R65. -/
def bitsValue (buf : Memory) (p : Nat) : Nat → Nat
  | 0 => 0
  | w + 1 => 2 * bitsValue buf p w + (bitAt buf (p + w)).toNat

/-- The n bits from position p, in read order (20_memory.md R34). -/
def bitsFrom (buf : Memory) (p : Nat) : Nat → List Bool
  | 0 => []
  | n + 1 => bitAt buf p :: bitsFrom buf (p + 1) n

/-! ### The BitCursor -/

/-- What a BitCursor operation does: it returns a value, or it raises an error (00_scope.md R11). -/
inductive Read where
  | ok (v : Nat) (c : Cursor)
  | raised (e : ErrKind) (c : Cursor)
  deriving DecidableEq, Repr

/-- `read_bit()` (40_bitcursor.md R64). -/
def readBit (buf : Memory) (c : Cursor) : Read :=
  if c.len ≤ c.pos then .raised .outOfRange c
  else .ok (bitAt buf c.pos).toNat { c with pos := c.pos + 1 }

/-- `read_u(w)` (40_bitcursor.md R65). A failing read leaves the cursor (R68). -/
def readU (buf : Memory) (w : Nat) (c : Cursor) : Read :=
  if c.len < c.pos + w then .raised .outOfRange c
  else .ok (bitsValue buf c.pos w) { c with pos := c.pos + w }

/-- The zero-run loop of `read_ue()` (40_bitcursor.md R66), with `left` zeros still accepted and
`zeros` zeros read; its value is the number of zeros before the `1`. -/
def zeroRun (buf : Memory) (left zeros : Nat) (c : Cursor) : Read :=
  match readBit buf c with
  | .raised e c' => .raised e c'
  | .ok b c' =>
    if b = 1 then .ok zeros c'
    else
      match left with
      | 0 => .raised .malformedGolombCode c'
      | left + 1 => zeroRun buf left (zeros + 1) c'

/-- `read_ue()` under the cap `P_EG_MAX_ZEROS` (40_bitcursor.md R66). -/
def readUe (cap : Nat) (buf : Memory) (c : Cursor) : Read :=
  match zeroRun buf cap 0 c with
  | .raised e c' => .raised e c'
  | .ok zeros c' =>
    match readU buf zeros c' with
    | .raised e c'' => .raised e c''
    | .ok suffix c'' => .ok (2 ^ zeros - 1 + suffix) c''

/-! ### Field reads -/

/-- What a field read leaves: the registers after it, or the error and the registers at it. -/
inductive FieldRead where
  | ok (d : DecodeRegs)
  | raised (e : ErrKind) (d : DecodeRegs)
  deriving DecidableEq, Repr

/-- A field's slot is written by a read that completes; "the slot being read stays `None`" if it
raises (43_frame_packing.md R109). -/
def readField (r : Read) (set : Nat → FieldFile → FieldFile) (d : DecodeRegs) : FieldRead :=
  match r with
  | .ok v c => .ok { d with cur := c, fpa := set v d.fpa }
  | .raised e c => .raised e { d with cur := c }

/-- "the decode stops at the first raise" (60_exceptions.md R117(c)). -/
def FieldRead.andThen (r : FieldRead) (k : DecodeRegs → FieldRead) : FieldRead :=
  match r with
  | .ok d => k d
  | .raised e d => .raised e d

/-- The registers at the start of a decode of `ps` bytes (43_frame_packing.md R87). -/
def DecodeRegs.start (ps : Nat) : DecodeRegs :=
  { cur := { pos := 0, len := 8 * ps }, fpa := .empty, trailer := [], ret := 0 }

/-- R88. -/
def fieldId (p : Params) (buf : Memory) (d : DecodeRegs) : FieldRead :=
  readField (readUe p.egMaxZeros buf d.cur) (fun v f => { f with id := some v }) d

/-- R89. -/
def fieldCancel (buf : Memory) (d : DecodeRegs) : FieldRead :=
  readField (readU buf 1 d.cur) (fun v f => { f with cancelFlag := some v }) d

/-- R90. -/
def fieldType (buf : Memory) (d : DecodeRegs) : FieldRead :=
  readField (readU buf 7 d.cur) (fun v f => { f with arrangementType := some v }) d

/-- R91. -/
def fieldQuincunx (buf : Memory) (d : DecodeRegs) : FieldRead :=
  readField (readU buf 1 d.cur) (fun v f => { f with quincunxSamplingFlag := some v }) d

/-- R92. -/
def fieldCit (buf : Memory) (d : DecodeRegs) : FieldRead :=
  readField (readU buf 6 d.cur) (fun v f => { f with contentInterpretationType := some v }) d

/-- R93. -/
def fieldSpatialFlipping (buf : Memory) (d : DecodeRegs) : FieldRead :=
  readField (readU buf 1 d.cur) (fun v f => { f with spatialFlipping := some v }) d

/-- R94. -/
def fieldFrame0Flipped (buf : Memory) (d : DecodeRegs) : FieldRead :=
  readField (readU buf 1 d.cur) (fun v f => { f with frame0Flipped := some v }) d

/-- R95. -/
def fieldFieldViews (buf : Memory) (d : DecodeRegs) : FieldRead :=
  readField (readU buf 1 d.cur) (fun v f => { f with fieldViews := some v }) d

/-- R96. -/
def fieldCurrentFrameIsFrame0 (buf : Memory) (d : DecodeRegs) : FieldRead :=
  readField (readU buf 1 d.cur) (fun v f => { f with currentFrameIsFrame0 := some v }) d

/-- R97. -/
def fieldFrame0SelfContained (buf : Memory) (d : DecodeRegs) : FieldRead :=
  readField (readU buf 1 d.cur) (fun v f => { f with frame0SelfContained := some v }) d

/-- R98. -/
def fieldFrame1SelfContained (buf : Memory) (d : DecodeRegs) : FieldRead :=
  readField (readU buf 1 d.cur) (fun v f => { f with frame1SelfContained := some v }) d

/-- R100. -/
def fieldGrid0 (buf : Memory) (d : DecodeRegs) : FieldRead :=
  readField (readU buf 4 d.cur) (fun v f => { f with grid0 := some v }) d

/-- R101. -/
def fieldGrid1 (buf : Memory) (d : DecodeRegs) : FieldRead :=
  readField (readU buf 4 d.cur) (fun v f => { f with grid1 := some v }) d

/-- R102. -/
def fieldGrid2 (buf : Memory) (d : DecodeRegs) : FieldRead :=
  readField (readU buf 4 d.cur) (fun v f => { f with grid2 := some v }) d

/-- R103. -/
def fieldGrid3 (buf : Memory) (d : DecodeRegs) : FieldRead :=
  readField (readU buf 4 d.cur) (fun v f => { f with grid3 := some v }) d

/-- R104. -/
def fieldReservedByte (buf : Memory) (d : DecodeRegs) : FieldRead :=
  readField (readU buf 8 d.cur) (fun v f => { f with reservedByte := some v }) d

/-- R105. -/
def fieldRepetitionPeriod (p : Params) (buf : Memory) (d : DecodeRegs) : FieldRead :=
  readField (readUe p.egMaxZeros buf d.cur) (fun v f => { f with repetitionPeriod := some v }) d

/-- R106. -/
def fieldExtensionFlag (buf : Memory) (d : DecodeRegs) : FieldRead :=
  readField (readU buf 1 d.cur) (fun v f => { f with extensionFlag := some v }) d

/-- `T <- Trailer()`: the bits from `cur_pos` up to `cur_len`, each by a `read_bit`
(43_frame_packing.md R107). -/
def readTrailer (buf : Memory) (d : DecodeRegs) : DecodeRegs :=
  { d with
    cur := { d.cur with pos := d.cur.pos + (d.cur.len - d.cur.pos) }
    trailer := bitsFrom buf d.cur.pos (d.cur.len - d.cur.pos) }

/-! ### Scanner and extractor operands -/

/-- `ScNext(sc, b)` (41_nal_scanner.md R70). R70 gives it for `sc` 0, 1 and 2; at 3, where a byte
is a header byte and selects another row, it continues by 10_state.md R17's longest suffix
(log 12). -/
def scNext (sc : Fin 4) (b : Byte) : Fin 4 :=
  if sc = 0 then (if b = 0x00 then 1 else 0)
  else if sc = 1 then (if b = 0x00 then 2 else 0)
  else if sc = 2 then (if b = 0x00 then 2 else if b = 0x01 then 3 else 0)
  else (if b = 0x00 then 1 else 0)

/-- `(b == 0x00) ? min(zc + 1, 2) : 0` (42_payload_extractor.md R80). -/
def zcNext (zc : Fin 3) (b : Byte) : Fin 3 :=
  if b = 0x00 then (if zc = 0 then 1 else 2) else 0

end Sys2Proof.Machine
end

