-- ==== Sys2Proof/Machine/Flags.lean ====
section
/-! DEFINITION. The block has no condition codes (spec/10_state.md R28): what it has in their place,
the two status predicates, the end of a run, and the numeric codes of modes, statuses, causes and
faults (spec/10_state.md R16, R28; spec/20_memory.md R41; spec/60_exceptions.md R111, R116;
spec/70_reset_and_hazards.md R132). -/

namespace Sys2Proof.Machine

/-- `done := (mode == DONE)` (10_state.md R28). -/
def State.isDone (s : State) : Bool := s.mode == .done

/-- `faulted := (fault != None)` (10_state.md R28). -/
def State.isFaulted (s : State) : Bool := s.fault != none

/-- A run has ended (70_reset_and_hazards.md R132); its result is `out`. -/
def State.runEnded (s : State) : Bool := s.isDone && !s.isFaulted

/-- The encoding of `mode` (10_state.md R16). -/
def modeCode : Mode → Nat
  | .scan => 0
  | .type => 1
  | .size => 2
  | .copy => 3
  | .done => 4

/-- The status codes (20_memory.md R41). -/
def Status.code : Status → Nat
  | .fpaOk => 0
  | .skipped => 1
  | .truncated => 2
  | .malformed => 3

/-- The cause codes (20_memory.md R41); 3 is never produced (60_exceptions.md R111). -/
def Cause.code : Cause → Nat
  | .none => 0
  | .outOfRange => 1
  | .malformedGolomb => 2

/-- The model-fault codes (60_exceptions.md R116). -/
def ModelFault.code : ModelFault → Nat
  | .inputAfterEnd => 1
  | .capacityExceeded => 2

end Sys2Proof.Machine
end

