-- ==== Sys2Proof/Machine/BitCursor.lean ====
section
/-! DEFINITION. The meanings of READ_BIT, READ_U and READ_UE (spec/40_bitcursor.md R64, R65, R66),
each executed on the decode-local cursor of State. -/

namespace Sys2Proof.Machine

/-- A BitCursor read on the machine's cursor: the value goes to `dec.ret` (log 6); a raised error
is taken (60_exceptions.md R118). -/
def runRead (r : Read) (s : State) : Host.Outcome State Fault Refusal :=
  match r with
  | .ok v c => .next (s.setDec { s.dec with cur := c, ret := v })
  | .raised e _ => .next (s.takeError e)

/-- READ_BIT (40_bitcursor.md R64). -/
def execReadBit (s : State) : Host.Outcome State Fault Refusal :=
  runRead (readBit s.buf s.dec.cur) s

/-- READ_U (40_bitcursor.md R65); a width above 32 is refused (R69, log 4). -/
def execReadU (w : Nat) (s : State) : Host.Outcome State Fault Refusal :=
  if w ≤ uMaxWidth then runRead (readU s.buf w s.dec.cur) s else .refused .readWidthOver32

/-- READ_UE (40_bitcursor.md R66). -/
def execReadUe (s : State) : Host.Outcome State Fault Refusal :=
  runRead (readUe s.params.egMaxZeros s.buf s.dec.cur) s

end Sys2Proof.Machine
end

