-- ==== Sys2Proof/Machine/FramePacking.lean ====
section
/-! DEFINITION. The decode of a frame packing arrangement and the meanings of DECODE_FPA, the
eighteen field reads and FPA_TRAILER (spec/43_frame_packing.md R87 to R108). -/

namespace Sys2Proof.Machine

/-! ### The decode (R87) -/

/-- The grid quartet, read exactly when `GridPresent` (43_frame_packing.md R99 to R103). -/
def decodeGrid (buf : Memory) (d : DecodeRegs) : FieldRead :=
  if gridPresent d.fpa then
    (fieldGrid0 buf d).andThen fun d =>
    (fieldGrid1 buf d).andThen fun d =>
    (fieldGrid2 buf d).andThen fun d =>
    fieldGrid3 buf d
  else .ok d

/-- The fields read when `cancel_flag == 0` (43_frame_packing.md R87, R90 to R105). -/
def decodeArrangement (p : Params) (buf : Memory) (d : DecodeRegs) : FieldRead :=
  (fieldType buf d).andThen fun d =>
  (fieldQuincunx buf d).andThen fun d =>
  (fieldCit buf d).andThen fun d =>
  (fieldSpatialFlipping buf d).andThen fun d =>
  (fieldFrame0Flipped buf d).andThen fun d =>
  (fieldFieldViews buf d).andThen fun d =>
  (fieldCurrentFrameIsFrame0 buf d).andThen fun d =>
  (fieldFrame0SelfContained buf d).andThen fun d =>
  (fieldFrame1SelfContained buf d).andThen fun d =>
  (decodeGrid buf d).andThen fun d =>
  (fieldReservedByte buf d).andThen fun d =>
  fieldRepetitionPeriod p buf d

/-- The fields of a payload, in the fixed order (43_frame_packing.md R87, 30_encoding.md R56). -/
def decodeFields (p : Params) (buf : Memory) (d : DecodeRegs) : FieldRead :=
  (fieldId p buf d).andThen fun d =>
  (fieldCancel buf d).andThen fun d =>
  (if d.fpa.cancelFlag = some 0 then decodeArrangement p buf d else .ok d).andThen fun d =>
  fieldExtensionFlag buf d

/-- `DecodeFPA(buf, ps)` (43_frame_packing.md R87): the record of a completed payload. -/
def decodeRecord (p : Params) (buf : Memory) (ps : Nat) : Record :=
  match decodeFields p buf (.start ps) with
  | .ok d => okRecord ps d.fpa (readTrailer buf d).trailer
  | .raised e d => malformedRecord e ps d.fpa

/-- DECODE_FPA: "the machine state written is only `out`" (43_frame_packing.md R87). -/
def execDecodeFpa (s : State) : Host.Outcome State Fault Refusal :=
  .next (s.emit (decodeRecord s.params s.buf s.ps))

/-! ### The field reads as operations of their own -/

/-- A field read on the machine's decode-local registers; a raised error is taken with the fields
completed so far (60_exceptions.md R118, 43_frame_packing.md R109). -/
def runField (r : FieldRead) (s : State) : Host.Outcome State Fault Refusal :=
  match r with
  | .ok d => .next (s.setDec d)
  | .raised e d => .next ((s.setDec d).takeError e)

/-- FPA_ID (43_frame_packing.md R88). -/
def execFpaId (s : State) : Host.Outcome State Fault Refusal :=
  runField (fieldId s.params s.buf s.dec) s

/-- FPA_CANCEL (43_frame_packing.md R89). -/
def execFpaCancel (s : State) : Host.Outcome State Fault Refusal :=
  runField (fieldCancel s.buf s.dec) s

/-- FPA_TYPE (43_frame_packing.md R90). -/
def execFpaType (s : State) : Host.Outcome State Fault Refusal :=
  runField (fieldType s.buf s.dec) s

/-- FPA_QUINCUNX (43_frame_packing.md R91). -/
def execFpaQuincunx (s : State) : Host.Outcome State Fault Refusal :=
  runField (fieldQuincunx s.buf s.dec) s

/-- FPA_CIT (43_frame_packing.md R92). -/
def execFpaCit (s : State) : Host.Outcome State Fault Refusal :=
  runField (fieldCit s.buf s.dec) s

/-- FPA_SPATIAL_FLIPPING (43_frame_packing.md R93). -/
def execFpaSpatialFlipping (s : State) : Host.Outcome State Fault Refusal :=
  runField (fieldSpatialFlipping s.buf s.dec) s

/-- FPA_FRAME0_FLIPPED (43_frame_packing.md R94). -/
def execFpaFrame0Flipped (s : State) : Host.Outcome State Fault Refusal :=
  runField (fieldFrame0Flipped s.buf s.dec) s

/-- FPA_FIELD_VIEWS (43_frame_packing.md R95). -/
def execFpaFieldViews (s : State) : Host.Outcome State Fault Refusal :=
  runField (fieldFieldViews s.buf s.dec) s

/-- FPA_CURRENT_FRAME_IS_FRAME0 (43_frame_packing.md R96). -/
def execFpaCurrentFrameIsFrame0 (s : State) : Host.Outcome State Fault Refusal :=
  runField (fieldCurrentFrameIsFrame0 s.buf s.dec) s

/-- FPA_FRAME0_SELF_CONTAINED (43_frame_packing.md R97). -/
def execFpaFrame0SelfContained (s : State) : Host.Outcome State Fault Refusal :=
  runField (fieldFrame0SelfContained s.buf s.dec) s

/-- FPA_FRAME1_SELF_CONTAINED (43_frame_packing.md R98). -/
def execFpaFrame1SelfContained (s : State) : Host.Outcome State Fault Refusal :=
  runField (fieldFrame1SelfContained s.buf s.dec) s

/-- FPA_GRID0 (43_frame_packing.md R100). -/
def execFpaGrid0 (s : State) : Host.Outcome State Fault Refusal :=
  runField (fieldGrid0 s.buf s.dec) s

/-- FPA_GRID1 (43_frame_packing.md R101). -/
def execFpaGrid1 (s : State) : Host.Outcome State Fault Refusal :=
  runField (fieldGrid1 s.buf s.dec) s

/-- FPA_GRID2 (43_frame_packing.md R102). -/
def execFpaGrid2 (s : State) : Host.Outcome State Fault Refusal :=
  runField (fieldGrid2 s.buf s.dec) s

/-- FPA_GRID3 (43_frame_packing.md R103). -/
def execFpaGrid3 (s : State) : Host.Outcome State Fault Refusal :=
  runField (fieldGrid3 s.buf s.dec) s

/-- FPA_RESERVED_BYTE (43_frame_packing.md R104). -/
def execFpaReservedByte (s : State) : Host.Outcome State Fault Refusal :=
  runField (fieldReservedByte s.buf s.dec) s

/-- FPA_REPETITION_PERIOD (43_frame_packing.md R105). -/
def execFpaRepetitionPeriod (s : State) : Host.Outcome State Fault Refusal :=
  runField (fieldRepetitionPeriod s.params s.buf s.dec) s

/-- FPA_EXTENSION_FLAG (43_frame_packing.md R106). -/
def execFpaExtensionFlag (s : State) : Host.Outcome State Fault Refusal :=
  runField (fieldExtensionFlag s.buf s.dec) s

/-- FPA_TRAILER (43_frame_packing.md R107): "never raises". -/
def execFpaTrailer (s : State) : Host.Outcome State Fault Refusal :=
  .next (s.setDec (readTrailer s.buf s.dec))

end Sys2Proof.Machine
end

