-- ==== Sys2Proof/Machine/NalScanner.lean ====
section
/-! DEFINITION. The meanings of the NalScanner's operations (spec/41_nal_scanner.md R70 to R74). -/

namespace Sys2Proof.Machine

/-- A byte advances the start-code match state (41_nal_scanner.md R70). -/
def scanByte (b : Byte) (s : State) : State :=
  { s with sc := scNext s.sc b }

/-- SCAN_ZERO (41_nal_scanner.md R70). -/
def execScanZero (s : State) : Host.Outcome State Fault Refusal :=
  .next (scanByte 0x00 s)

/-- SCAN_ONE (41_nal_scanner.md R70). -/
def execScanOne (s : State) : Host.Outcome State Fault Refusal :=
  .next (scanByte 0x01 s)

/-- SCAN_OTHER (41_nal_scanner.md R70). -/
def execScanOther (b : Byte) (s : State) : Host.Outcome State Fault Refusal :=
  .next (scanByte b s)

/-- A unit begins (41_nal_scanner.md R71). -/
def beginUnit (s : State) : State :=
  { s with mode := .type, pt := 0, ps := 0, sc := 0 }

/-- SCAN_HDR_SEI under `P_HDR_MATCH = Literal` (41_nal_scanner.md R71). -/
def execScanHdrSeiLiteral (s : State) : Host.Outcome State Fault Refusal :=
  .next (beginUnit s)

/-- SCAN_HDR_SEI under `P_HDR_MATCH = TypeMask` (41_nal_scanner.md R71): only `unit_type`, which
selects the row, is used; bits [7:5] of the byte are ignored (30_encoding.md R50). -/
def execScanHdrSeiTypemask (_b : Byte) (s : State) : Host.Outcome State Fault Refusal :=
  .next (beginUnit s)

/-- SCAN_HDR_OTHER (41_nal_scanner.md R72). -/
def execScanHdrOther (b : Byte) (s : State) : Host.Outcome State Fault Refusal :=
  .next { s with sc := if b = 0x00 then 1 else 0 }

/-- END_SCAN (41_nal_scanner.md R74). -/
def execEndScan (s : State) : Host.Outcome State Fault Refusal :=
  .next { s with mode := .done }

end Sys2Proof.Machine
end

