-- ==== Sys2Proof/Machine/PayloadExtractor.lean ====
section
/-! DEFINITION. The meanings of the PayloadExtractor's operations and of DONE_ANY
(spec/42_payload_extractor.md R77 to R86, spec/60_exceptions.md R116). -/

namespace Sys2Proof.Machine

/-! ### The shared parts -/

/-- The record of a completed payload (42_payload_extractor.md R82). -/
def payloadRecord (s : State) : Record :=
  if s.pt = fpaPayloadType then decodeRecord s.params s.buf s.ps else skippedRecord s.pt s.ps

/-- `Finish()` (42_payload_extractor.md R82). -/
def finish (s : State) : State :=
  (s.emit (payloadRecord s)).endUnit

/-- `StartPayload()` (42_payload_extractor.md R79). -/
def startPayload (s : State) : State :=
  if fitsBuf s.params s.pt s.ps then
    let s1 := { s with nOut := 0, zc := 0, buf := [] }
    if s1.ps = 0 then finish s1 else { s1 with mode := .copy }
  else s.raiseFault .capacityExceeded

/-- A byte is added to `payload_type` (42_payload_extractor.md R77). -/
def addType (b : Byte) (k : State → State) (s : State) : State :=
  if fitsAcc s.params (s.pt + b.toNat) then k { s with pt := s.pt + b.toNat }
  else s.raiseFault .capacityExceeded

/-- A byte is added to `payload_size` (42_payload_extractor.md R78). -/
def addSize (b : Byte) (k : State → State) (s : State) : State :=
  if fitsAcc s.params (s.ps + b.toNat) then k { s with ps := s.ps + b.toNat }
  else s.raiseFault .capacityExceeded

/-- An output byte is stored (42_payload_extractor.md R80, its first three lines). -/
def storeByte (b : Byte) (s : State) : State :=
  { s with buf := Memory.write s.buf s.nOut b, nOut := s.nOut + 1, zc := zcNext s.zc b }

/-! ### The meanings -/

/-- TYPE_CONT (42_payload_extractor.md R77). -/
def execTypeCont (s : State) : Host.Outcome State Fault Refusal :=
  .next (addType ffCont id s)

/-- TYPE_LAST (42_payload_extractor.md R77). -/
def execTypeLast (b : Byte) (s : State) : Host.Outcome State Fault Refusal :=
  .next (addType b (fun t => { t with mode := .size }) s)

/-- SIZE_CONT (42_payload_extractor.md R78). -/
def execSizeCont (s : State) : Host.Outcome State Fault Refusal :=
  .next (addSize ffCont id s)

/-- SIZE_LAST (42_payload_extractor.md R78, R79). -/
def execSizeLast (b : Byte) (s : State) : Host.Outcome State Fault Refusal :=
  .next (addSize b startPayload s)

/-- COPY_EPB (42_payload_extractor.md R81). -/
def execCopyEpb (s : State) : Host.Outcome State Fault Refusal :=
  .next { s with zc := 0 }

/-- COPY_DATA (42_payload_extractor.md R80). -/
def execCopyData (b : Byte) (s : State) : Host.Outcome State Fault Refusal :=
  let s1 := storeByte b s
  .next (if s1.nOut = s1.ps then finish s1 else s1)

/-- END_TRUNC (42_payload_extractor.md R83, 60_exceptions.md R114, R118). -/
def execEndTrunc (s : State) : Host.Outcome State Fault Refusal :=
  .next { s.emit (truncatedRecord s.mode s.pt s.ps) with mode := .done }

/-- DONE_ANY (10_state.md R26, 60_exceptions.md R116): whatever the symbol is. -/
def execDoneAny (_sym : Symbol) (s : State) : Host.Outcome State Fault Refusal :=
  .next (s.raiseFault .inputAfterEnd)

end Sys2Proof.Machine
end

