-- ==== Sys2Proof/Machine/Dispatch.lean ====
section
/-! DEFINITION. The dispatch: one arm per instruction (spec/30_encoding.md R58 for the symbol rows,
R56 for the grammar's rows). -/

namespace Sys2Proof.Machine

/-- The meaning of an instruction. -/
def exec (i : Instr) (s : State) : Host.Outcome State Fault Refusal :=
  match i with
  | .scanHdrSeiLiteral => Sys2Proof.Machine.execScanHdrSeiLiteral s
  | .scanHdrSeiTypemask b => Sys2Proof.Machine.execScanHdrSeiTypemask b s
  | .scanHdrOther b => Sys2Proof.Machine.execScanHdrOther b s
  | .scanZero => Sys2Proof.Machine.execScanZero s
  | .scanOne => Sys2Proof.Machine.execScanOne s
  | .scanOther b => Sys2Proof.Machine.execScanOther b s
  | .endScan => Sys2Proof.Machine.execEndScan s
  | .typeCont => Sys2Proof.Machine.execTypeCont s
  | .typeLast b => Sys2Proof.Machine.execTypeLast b s
  | .sizeCont => Sys2Proof.Machine.execSizeCont s
  | .sizeLast b => Sys2Proof.Machine.execSizeLast b s
  | .copyEpb => Sys2Proof.Machine.execCopyEpb s
  | .copyData b => Sys2Proof.Machine.execCopyData b s
  | .endTrunc => Sys2Proof.Machine.execEndTrunc s
  | .doneAny sym => Sys2Proof.Machine.execDoneAny sym s
  | .readBit => Sys2Proof.Machine.execReadBit s
  | .readU w => Sys2Proof.Machine.execReadU w s
  | .readUe => Sys2Proof.Machine.execReadUe s
  | .decodeFpa => Sys2Proof.Machine.execDecodeFpa s
  | .fpaId => Sys2Proof.Machine.execFpaId s
  | .fpaCancel => Sys2Proof.Machine.execFpaCancel s
  | .fpaType => Sys2Proof.Machine.execFpaType s
  | .fpaQuincunx => Sys2Proof.Machine.execFpaQuincunx s
  | .fpaCit => Sys2Proof.Machine.execFpaCit s
  | .fpaSpatialFlipping => Sys2Proof.Machine.execFpaSpatialFlipping s
  | .fpaFrame0Flipped => Sys2Proof.Machine.execFpaFrame0Flipped s
  | .fpaFieldViews => Sys2Proof.Machine.execFpaFieldViews s
  | .fpaCurrentFrameIsFrame0 => Sys2Proof.Machine.execFpaCurrentFrameIsFrame0 s
  | .fpaFrame0SelfContained => Sys2Proof.Machine.execFpaFrame0SelfContained s
  | .fpaFrame1SelfContained => Sys2Proof.Machine.execFpaFrame1SelfContained s
  | .fpaGrid0 => Sys2Proof.Machine.execFpaGrid0 s
  | .fpaGrid1 => Sys2Proof.Machine.execFpaGrid1 s
  | .fpaGrid2 => Sys2Proof.Machine.execFpaGrid2 s
  | .fpaGrid3 => Sys2Proof.Machine.execFpaGrid3 s
  | .fpaReservedByte => Sys2Proof.Machine.execFpaReservedByte s
  | .fpaRepetitionPeriod => Sys2Proof.Machine.execFpaRepetitionPeriod s
  | .fpaExtensionFlag => Sys2Proof.Machine.execFpaExtensionFlag s
  | .fpaTrailer => Sys2Proof.Machine.execFpaTrailer s

end Sys2Proof.Machine
end

