-- ==== Sys2Proof/Machine/Step.lean ====
section
/-! DEFINITION. The machine step (spec/10_state.md R26): one input symbol is consumed and the
operation its word selects is executed. -/

namespace Sys2Proof.Machine

/-- `Step(s, sym)` (10_state.md R26), with the symbol the host offers next. In a faulted state, and
where no symbol is offered, there is no step (10_state.md R22, 20_memory.md R32, log 2, log 9). -/
def step (s : State) : Host.Outcome State Fault Refusal :=
  match s.fault with
  | some f => .fault f.stuck
  | none =>
    match s.input with
    | [] => .refused .awaitingSymbol
    | sym :: rest => exec (selectSymbol s.ctx sym.word) (s.consume rest)

/-- The state in which the host offers a table word as the next symbol, before those it has offered
already (log 2). A number of more than 9 bits is no symbol word, and nothing is offered. -/
def State.withFetchWord (s : State) (nbits w : Nat) : State :=
  if w % 2 ^ nbits < 512 then
    { s with input := Symbol.ofWord (BitVec.ofNat 9 (w % 2 ^ nbits)) :: s.input }
  else s

end Sys2Proof.Machine
end

