-- ==== Sys2Proof/Safety.lean ====
section
/-! DEFINITION. The terms the claims are stated in: runs, the invariant every step keeps, the form of
a record, which registers are live, what the scanner's match state means, and the streams a host
makes of a payload. Nothing here is part of the machine. -/

namespace Sys2Proof.Machine

/-! ### Runs -/

/-- `k` steps, stopping at the first fault or refusal. -/
def runSteps : Nat → State → Host.Outcome State Fault Refusal
  | 0, s => .next s
  | k + 1, s =>
    match step s with
    | .next t => runSteps k t
    | .fault f => .fault f
    | .refused r => .refused r

/-- `k` items of the frame-packing grammar, each executed by `exec` (30_encoding.md R56). -/
def execItems : Nat → State → Host.Outcome State Fault Refusal
  | 0, s => .next s
  | k + 1, s =>
    match exec (grammarNext s.dec.fpa) s with
    | .next t => execItems k t
    | .fault f => .fault f
    | .refused r => .refused r

/-- A payload of the current type is in progress. -/
def inUnit (m : Mode) : Prop := m = .type ∨ m = .size ∨ m = .copy

/-! ### Records -/

/-- A slot that is present with a value of n bits (43_frame_packing.md R108, "hardware width"). -/
def slotFits (n : Nat) (o : Option Nat) : Prop := ∃ v, o = some v ∧ v < 2 ^ n

/-- A slot that is present with a value of a `ue(v)` field under a cap (40_bitcursor.md R67). -/
def slotFitsUe (cap : Nat) (o : Option Nat) : Prop := ∃ v, o = some v ∧ v + 2 ≤ 2 ^ (cap + 1)

/-- The slots read only when `cancel_flag == 0`, the grid apart (43_frame_packing.md R108). -/
structure ArrangementPresent (cap : Nat) (f : FieldFile) : Prop where
  arrangementType : slotFits 7 f.arrangementType
  quincunx : slotFits 1 f.quincunxSamplingFlag
  cit : slotFits 6 f.contentInterpretationType
  spatialFlipping : slotFits 1 f.spatialFlipping
  frame0Flipped : slotFits 1 f.frame0Flipped
  fieldViews : slotFits 1 f.fieldViews
  currentFrameIsFrame0 : slotFits 1 f.currentFrameIsFrame0
  frame0SelfContained : slotFits 1 f.frame0SelfContained
  frame1SelfContained : slotFits 1 f.frame1SelfContained
  reservedByte : slotFits 8 f.reservedByte
  repetitionPeriod : slotFitsUe cap f.repetitionPeriod

/-- The grid quartet present. -/
structure GridSlotsPresent (f : FieldFile) : Prop where
  grid0 : slotFits 4 f.grid0
  grid1 : slotFits 4 f.grid1
  grid2 : slotFits 4 f.grid2
  grid3 : slotFits 4 f.grid3

/-- The grid quartet absent. -/
structure GridSlotsAbsent (f : FieldFile) : Prop where
  grid0 : f.grid0 = none
  grid1 : f.grid1 = none
  grid2 : f.grid2 = none
  grid3 : f.grid3 = none

/-- The slots read only when `cancel_flag == 0`, absent. -/
structure ArrangementAbsent (f : FieldFile) : Prop where
  arrangementType : f.arrangementType = none
  quincunx : f.quincunxSamplingFlag = none
  cit : f.contentInterpretationType = none
  spatialFlipping : f.spatialFlipping = none
  frame0Flipped : f.frame0Flipped = none
  fieldViews : f.fieldViews = none
  currentFrameIsFrame0 : f.currentFrameIsFrame0 = none
  frame0SelfContained : f.frame0SelfContained = none
  frame1SelfContained : f.frame1SelfContained = none
  grid : GridSlotsAbsent f
  reservedByte : f.reservedByte = none
  repetitionPeriod : f.repetitionPeriod = none

/-- The field file of an FPA_OK record under a cap: the presence and widths of
43_frame_packing.md R108, the grid as R99 says. -/
structure OkShape (cap : Nat) (f : FieldFile) : Prop where
  id : slotFitsUe cap f.id
  cancelFlag : f.cancelFlag = some 0 ∨ f.cancelFlag = some 1
  arrangement : f.cancelFlag = some 0 → ArrangementPresent cap f
  gridRead : f.cancelFlag = some 0 → f.quincunxSamplingFlag = some 0 →
    f.arrangementType ≠ some 5 → GridSlotsPresent f
  gridNotRead : f.cancelFlag = some 0 →
    (f.quincunxSamplingFlag ≠ some 0 ∨ f.arrangementType = some 5) → GridSlotsAbsent f
  cancelled : f.cancelFlag = some 1 → ArrangementAbsent f
  extensionFlag : slotFits 1 f.extensionFlag

/-- The presence table of 20_memory.md R41, by status. -/
def RecordForm (cap : Nat) (r : Record) : Prop :=
  match r.status with
  | .fpaOk => r.cause = .none ∧ r.payloadType = some 45 ∧ r.payloadSize.isSome ∧ OkShape cap r.fpa
  | .skipped =>
    r.cause = .none ∧ (∃ t, r.payloadType = some t ∧ t ≠ 45) ∧ r.payloadSize.isSome ∧
      r.fpa = .empty ∧ r.trailer = []
  | .truncated =>
    r.cause = .none ∧ (r.payloadSize.isSome → r.payloadType.isSome) ∧
      r.fpa = .empty ∧ r.trailer = []
  | .malformed =>
    r.cause ≠ .none ∧ r.payloadType = some 45 ∧ r.payloadSize.isSome ∧
      r.fpa.extensionFlag = none ∧ r.trailer = []

/-! ### The invariant -/

/-- What every step keeps, from any state that has it. -/
structure Inv (s : State) : Prop where
  /-- The buffer keeps its canonical form. -/
  bufWf : Memory.wf s.buf = true
  /-- In COPY mode only the addresses below `n_out` have been written (20_memory.md R33). -/
  bufBelow : s.mode = .copy → ∀ a, s.nOut ≤ a → Memory.read s.buf a = Memory.unwritten
  /-- In COPY mode the payload is incomplete (10_state.md R20). -/
  copyOpen : s.mode = .copy → s.nOut < s.ps
  /-- No start-code byte is matched inside a unit (42_payload_extractor.md R86). -/
  unitSc : inUnit s.mode → s.sc = 0
  /-- No size byte has been read in TYPE mode (41_nal_scanner.md R71). -/
  typePs : s.mode = .type → s.ps = 0
  /-- The accumulators fit `P_ACC_BITS` (42_payload_extractor.md R84). -/
  accFits : ∀ k, s.params.accBits = some k → s.pt < 2 ^ k ∧ s.ps < 2 ^ k
  /-- A payload of type 45 being copied fits `P_BUF_BYTES` (42_payload_extractor.md R84). -/
  bufFits : s.mode = .copy → s.pt = 45 → ∀ n, s.params.bufBytes = some n → s.ps ≤ n
  /-- No decode is in progress between steps (10_state.md R24). -/
  noDecode : s.dec = .idle
  /-- Every record emitted has the form of 20_memory.md R41. -/
  records : ∀ r ∈ s.out, RecordForm s.params.egMaxZeros r

/-! ### Live registers -/

/-- Two states agree on every register that a later step can read: parameters, `mode`, `fault`,
the ports, and per mode the registers of 70_reset_and_hazards.md R124 that are not dead there. -/
structure SameLive (s t : State) : Prop where
  params : s.params = t.params
  mode : s.mode = t.mode
  fault : s.fault = t.fault
  inPos : s.inPos = t.inPos
  out : s.out = t.out
  input : s.input = t.input
  sc : s.mode ≠ .done → s.sc = t.sc
  pt : inUnit s.mode → s.pt = t.pt
  ps : inUnit s.mode → s.ps = t.ps
  zc : s.mode = .copy → s.zc = t.zc
  nOut : s.mode = .copy → s.nOut = t.nOut
  bufWf : s.mode = .copy → Memory.wf s.buf = true ∧ Memory.wf t.buf = true
  buf : s.mode = .copy → ∀ a, a < s.nOut → Memory.read s.buf a = Memory.read t.buf a

/-- Two states agree on everything but the bytes in the buffer, the contents of the records and the
decode's cap: the scan position and the extractor's counts are the same. -/
structure SameScan (s t : State) : Prop where
  hdrMatch : s.params.hdrMatch = t.params.hdrMatch
  accBits : s.params.accBits = t.params.accBits
  bufBytes : s.params.bufBytes = t.params.bufBytes
  mode : s.mode = t.mode
  sc : s.sc = t.sc
  pt : s.pt = t.pt
  ps : s.ps = t.ps
  zc : s.zc = t.zc
  nOut : s.nOut = t.nOut
  fault : s.fault = t.fault
  inPos : s.inPos = t.inPos
  input : s.input = t.input
  units : s.out.length = t.out.length

/-- Two outcomes go on together in related states, or stop together for the same reason. -/
def SameOutcome (rel : State → State → Prop) :
    Host.Outcome State Fault Refusal → Host.Outcome State Fault Refusal → Prop
  | .next s, .next t => rel s t
  | .fault f, .fault g => f = g
  | .refused q, .refused r => q = r
  | _, _ => False

/-! ### The scanner's match state, independently -/

/-- The length of the longest suffix of the bytes that is a prefix of `00 00 01` (10_state.md R17). -/
def matchLen (bs : List Byte) : Fin 4 :=
  if [0x00, 0x00, 0x01] <:+ bs then 3
  else if [0x00, 0x00] <:+ bs then 2
  else if [0x00] <:+ bs then 1
  else 0

/-- No start code in the bytes is followed by an SEI header byte (41_nal_scanner.md R73, R76). -/
def NoUnit (m : HdrMatch) (bs : List Byte) : Prop :=
  ∀ pre h post, bs = pre ++ [0x00, 0x00, 0x01] ++ h :: post → hdrIsSei m h = false

/-! ### The host's side of a payload -/

/-- The bytes as input symbols. -/
def byteSymbols (bs : List Byte) : List Symbol := bs.map .byte

/-- The emulation-prevention form of a payload: a `03` goes before a byte of at most `03` that
follows two zero bytes (spec G10, the encoder's side of 30_encoding.md R53). `z` counts the zero
bytes sent since the start or the last `03`. -/
def insertEpb : Nat → List Byte → List Byte
  | _, [] => []
  | z, b :: q =>
    if 2 ≤ z ∧ b.toNat ≤ 3 then epb :: b :: insertEpb (if b = 0x00 then 1 else 0) q
    else b :: insertEpb (if b = 0x00 then z + 1 else 0) q

/-- The buffer that holds the bytes from an address on (20_memory.md R33). -/
def bufFrom : Nat → List Byte → Memory
  | _, [] => []
  | a, b :: q => Memory.cons a b (bufFrom (a + 1) q)

/-- The record a payload leads to (42_payload_extractor.md R82). -/
def recordOf (p : Params) (type : Nat) (payload : List Byte) : Record :=
  if type = 45 then decodeRecord p (bufFrom 0 payload) payload.length
  else skippedRecord type payload.length

end Sys2Proof.Machine
end

