-- ==== Sys2Proof/Certificates/Slice0/Obligations.lean ====
section
/-! DEFINITION. The statements about the block, for the provers. Each says which rule of spec/ it
formalises; OBLIGATIONS.json lists them. -/

open Sys2Proof Sys2Proof.Machine

/-! ### Reset, step and whole-machine rules -/

/-- R124: the reset values the spec gives, under every setting of the parameters. -/
def Obligations.ResetHoldsTheSpecValues : Prop :=
  ∀ p : Params,
    (State.resetWith p).mode = .scan ∧ (State.resetWith p).sc = 0 ∧ (State.resetWith p).pt = 0 ∧
    (State.resetWith p).ps = 0 ∧ (State.resetWith p).zc = 0 ∧ (State.resetWith p).nOut = 0 ∧
    (State.resetWith p).fault = none ∧ (State.resetWith p).inPos = 0 ∧
    (State.resetWith p).out = [] ∧ (State.resetWith p).params = p ∧
    State.reset = State.resetWith Params.default

/-- The reset state meets the invariant, under every setting of the parameters. Two clauses rest on
the model's own choices and not on R124: `noDecode`, that the decode registers are idle (log 5: R124
gives them no value), and the canonical form of the buffer's list of cells (log 3: R124 leaves `buf`
unspecified). -/
def Obligations.ResetMeetsTheInvariant : Prop :=
  ∀ p : Params, Inv (State.resetWith p)

/-- The invariant is kept by every step, from every state that has it: the buffer's canonical form
and its unwritten part (log 3), the open payload, the start-code state inside a unit, the capacity
bounds, the idle decode registers (log 5), and the form of every record. -/
def Obligations.EveryStepKeepsTheInvariant : Prop :=
  ∀ s t : State, Inv s → step s = .next t → Inv t

/-- The numeric codes of R16 (modes), of R41 and R111 (statuses and causes) and of R116 (faults);
cause value 3 is never produced. -/
def Obligations.NumericCodesAreTheSpecs : Prop :=
  [modeCode .scan, modeCode .type, modeCode .size, modeCode .copy, modeCode .done] = [0, 1, 2, 3, 4] ∧
  [Status.fpaOk.code, Status.skipped.code, Status.truncated.code, Status.malformed.code] =
    [0, 1, 2, 3] ∧
  [Cause.none.code, Cause.outOfRange.code, Cause.malformedGolomb.code] = [0, 1, 2] ∧
  [ModelFault.inputAfterEnd.code, ModelFault.capacityExceeded.code] = [1, 2] ∧
  (∀ c : Cause, c.code ≠ 3)

/-- R26: a step consumes the next symbol and executes the operation its word decodes to; in a
faulted state there is no step; where no symbol is offered there is none either (log 2, log 9). -/
def Obligations.StepRunsTheDecodedInstruction : Prop :=
  (∀ s sym rest, s.fault = none → s.input = sym :: rest →
    ∃ i, decode s.ctx (.word sym.word) = .instr i ∧
      step s = exec i { s with inPos := s.inPos + 1, input := rest }) ∧
  (∀ s f, s.fault = some f → step s = .fault f.stuck) ∧
  (∀ s, s.fault = none → s.input = [] → step s = .refused .awaitingSymbol)

/-- R58: the operation map, row by row, with R51's header test on the right. -/
def Obligations.OperationMapFollowsTheTable : Prop :=
  ∀ (c : Ctx) (b : Byte),
    (c.mode = .scan → c.sc = 3 → hdrIsSei c.hdrMatch b → c.hdrMatch = .literal →
      selectSymbol c (Symbol.byte b).word = .scanHdrSeiLiteral) ∧
    (c.mode = .scan → c.sc = 3 → hdrIsSei c.hdrMatch b → c.hdrMatch = .typeMask →
      selectSymbol c (Symbol.byte b).word = .scanHdrSeiTypemask b) ∧
    (c.mode = .scan → c.sc = 3 → ¬ hdrIsSei c.hdrMatch b →
      selectSymbol c (Symbol.byte b).word = .scanHdrOther b) ∧
    (c.mode = .scan → c.sc < 3 → b = 0x00 → selectSymbol c (Symbol.byte b).word = .scanZero) ∧
    (c.mode = .scan → c.sc < 3 → b = 0x01 → selectSymbol c (Symbol.byte b).word = .scanOne) ∧
    (c.mode = .scan → c.sc < 3 → b ≠ 0x00 → b ≠ 0x01 →
      selectSymbol c (Symbol.byte b).word = .scanOther b) ∧
    (c.mode = .scan → selectSymbol c Symbol.eos.word = .endScan) ∧
    (c.mode = .type → b = 0xFF → selectSymbol c (Symbol.byte b).word = .typeCont) ∧
    (c.mode = .type → b ≠ 0xFF → selectSymbol c (Symbol.byte b).word = .typeLast b) ∧
    (c.mode = .size → b = 0xFF → selectSymbol c (Symbol.byte b).word = .sizeCont) ∧
    (c.mode = .size → b ≠ 0xFF → selectSymbol c (Symbol.byte b).word = .sizeLast b) ∧
    (c.mode = .copy → c.zc = 2 → b = 0x03 → selectSymbol c (Symbol.byte b).word = .copyEpb) ∧
    (c.mode = .copy → ¬ (c.zc = 2 ∧ b = 0x03) →
      selectSymbol c (Symbol.byte b).word = .copyData b) ∧
    (inUnit c.mode → selectSymbol c Symbol.eos.word = .endTrunc) ∧
    (c.mode = .done → ∀ sym : Symbol, selectSymbol c sym.word = .doneAny sym)

/-- R58's conclusion (which the spec marks as its own inference): every context and symbol select
exactly one row, the one whose word and condition they meet. -/
def Obligations.EverySymbolSelectsExactlyOneRow : Prop :=
  ∀ (c : Ctx) (sym : Symbol) (i : Instr),
    (encode i = .word sym.word ∧ i.selectable c) ↔ i = selectSymbol c sym.word

/-- Decoding an encoded instruction gives it back, for every well-formed instruction with every
operand, in every context that may select it. That a READ_U is well formed up to 32 bits only is
the model's choice (log 4). -/
def Obligations.DecodeOfEncodeGivesTheInstruction : Prop :=
  ∀ (c : Ctx) (i : Instr), i.wellFormed → i.selectable c → decode c (encode i) = .instr i

/-- Eight words, written out from opcode_table.json, in the contexts their rows name (R48, R51, R58).
The last clause, that a read of 33 bits is rejected, is the model's choice (log 4, DESIGN CHOICE):
R69 says that such a read is never issued and only that a model may refuse it. -/
def Obligations.WrittenWordsDecodeToTheirRows : Prop :=
  decode { mode := .scan, sc := 0, zc := 0, hdrMatch := .typeMask, fpa := .empty }
    (.word 0b0_0000_0000) = .instr .scanZero ∧
  decode { mode := .scan, sc := 3, zc := 0, hdrMatch := .typeMask, fpa := .empty }
    (.word 0b0_1010_0110) = .instr (.scanHdrSeiTypemask 0xA6) ∧
  decode { mode := .scan, sc := 3, zc := 0, hdrMatch := .literal, fpa := .empty }
    (.word 0b0_1010_0110) = .instr (.scanHdrOther 0xA6) ∧
  decode { mode := .type, sc := 0, zc := 0, hdrMatch := .typeMask, fpa := .empty }
    (.word 0b0_1111_1111) = .instr .typeCont ∧
  decode { mode := .copy, sc := 0, zc := 2, hdrMatch := .typeMask, fpa := .empty }
    (.word 0b0_0000_0011) = .instr .copyEpb ∧
  decode { mode := .copy, sc := 0, zc := 1, hdrMatch := .typeMask, fpa := .empty }
    (.word 0b0_0000_0011) = .instr (.copyData 0x03) ∧
  decode { mode := .size, sc := 0, zc := 0, hdrMatch := .typeMask, fpa := .empty }
    (.word 0b1_0000_0000) = .instr .endTrunc ∧
  decode { mode := .done, sc := 0, zc := 0, hdrMatch := .typeMask, fpa := .empty }
    (.word 0b0_0100_0010) = .instr (.doneAny (.byte 0x42)) ∧
  decode { mode := .scan, sc := 0, zc := 0, hdrMatch := .typeMask, fpa := .empty }
    (.read (.u 33)) = .rejected .widthOver32

/-- R32: a step consumes exactly the next symbol and looks at no later one. (`in_pos` is R23's.) -/
def Obligations.StepConsumesOneSymbolWithoutLookahead : Prop :=
  ∀ s t : State, step s = .next t →
    (∃ sym, s.input = sym :: t.input ∧ t.inPos = s.inPos + 1 ∧ s.fault = none ∧
      ∀ rest, step { s with input := sym :: rest } = .next { t with input := rest })

/-- R42: a step emits at most one record, appended to the log, and emits one exactly when it ends a
unit. -/
def Obligations.StepEmitsOneRecordExactlyWhenAUnitEnds : Prop :=
  ∀ s t : State, step s = .next t →
    ((inUnit s.mode ∧ ¬ inUnit t.mode) → ∃ r, t.out = s.out ++ [r]) ∧
    (¬ (inUnit s.mode ∧ ¬ inUnit t.mode) → t.out = s.out)

/-- R41's presence table for the record a step emits: by status, and for a TRUNCATED record by the
mode the stream ended in. -/
def Obligations.EmittedRecordHasThePresenceOfItsStatus : Prop :=
  ∀ (s t : State) (r : Record), step s = .next t → t.out = s.out ++ [r] →
    RecordForm s.params.egMaxZeros r ∧
    (r.status = .truncated →
      (r.payloadType.isSome ↔ s.mode = .size ∨ s.mode = .copy) ∧
      (r.payloadSize.isSome ↔ s.mode = .copy) ∧ t.mode = .done) ∧
    (r.status ≠ .truncated → r.payloadType = some t.pt ∧ r.payloadSize = some t.ps ∧ t.mode = .scan)

/-- R126: no operation and no step writes a parameter. -/
def Obligations.ParametersAreHeldConstant : Prop :=
  (∀ (i : Instr) (s t : State), exec i s = .next t → t.params = s.params) ∧
  (∀ s t : State, step s = .next t → t.params = s.params)

/-- R116: the two model faults: their codes, exactly when a step raises each, that such a step
emits nothing, and that no step follows it (which the model says by its fault outcome, log 9). -/
def Obligations.ModelFaultsAreRaisedExactly : Prop :=
  ModelFault.inputAfterEnd.code = 1 ∧ ModelFault.capacityExceeded.code = 2 ∧
  (∀ s t : State, step s = .next t →
    (t.fault = some .inputAfterEnd ↔ s.mode = .done) ∧
    (t.fault = some .capacityExceeded ↔
      ∃ b rest, s.input = .byte b :: rest ∧
        ((s.mode = .type ∧ ∃ k, s.params.accBits = some k ∧ 2 ^ k ≤ s.pt + b.toNat) ∨
         (s.mode = .size ∧ ∃ k, s.params.accBits = some k ∧ 2 ^ k ≤ s.ps + b.toNat) ∨
         (s.mode = .size ∧ b ≠ 0xFF ∧ s.pt = 45 ∧
           ∃ n, s.params.bufBytes = some n ∧ n < s.ps + b.toNat))) ∧
    (t.fault ≠ none → t.out = s.out ∧ t.mode = s.mode)) ∧
  (∀ (s : State) (f : ModelFault) (k : Nat), s.fault = some f → runSteps (k + 1) s = .fault f.stuck)

/-! ### NalScanner -/

/-- R51: the header test under both settings. -/
def Obligations.HeaderTestIsLiteralOrMasked : Prop :=
  ∀ h : Byte, (hdrIsSei .literal h ↔ h.toNat = 0x06) ∧ (hdrIsSei .typeMask h ↔ h.toNat % 32 = 6)

/-- R70: SCAN_ZERO, SCAN_ONE and SCAN_OTHER advance `sc` and change nothing else. -/
def Obligations.ScanByteAdvancesTheMatchState : Prop :=
  ∀ (s : State) (b : Byte), s.sc < 3 →
    exec .scanZero s = .next { s with sc := if s.sc = 0 then 1 else 2 } ∧
    exec .scanOne s = .next { s with sc := if s.sc = 2 then 3 else 0 } ∧
    (b ≠ 0x00 → b ≠ 0x01 → exec (.scanOther b) s = .next { s with sc := 0 })

/-- R71: both header rows begin a unit and change nothing else; and a step takes the row of the
parameter's setting when the header test holds. -/
def Obligations.SeiHeaderBeginsAUnit : Prop :=
  (∀ (s : State) (b : Byte),
    exec .scanHdrSeiLiteral s = .next { s with mode := .type, pt := 0, ps := 0, sc := 0 } ∧
    exec (.scanHdrSeiTypemask b) s = .next { s with mode := .type, pt := 0, ps := 0, sc := 0 }) ∧
  (∀ (s : State) (b : Byte) (rest : List Symbol),
    s.fault = none → s.mode = .scan → s.sc = 3 → s.input = .byte b :: rest →
    hdrIsSei s.params.hdrMatch b →
    step s = .next { s with mode := .type, pt := 0, ps := 0, sc := 0,
                            inPos := s.inPos + 1, input := rest })

/-- R72: a header byte of another unit leaves the scanner scanning. -/
def Obligations.OtherHeaderIsIgnored : Prop :=
  (∀ (s : State) (b : Byte),
    exec (.scanHdrOther b) s = .next { s with sc := if b = 0x00 then 1 else 0 }) ∧
  (∀ (s : State) (b : Byte) (rest : List Symbol),
    s.fault = none → s.mode = .scan → s.sc = 3 → s.input = .byte b :: rest →
    ¬ hdrIsSei s.params.hdrMatch b →
    step s = .next { s with sc := if b = 0x00 then 1 else 0,
                            inPos := s.inPos + 1, input := rest })

/-- R74: End in SCAN mode ends the run, emits nothing and leaves `sc`. -/
def Obligations.EndInScanModeEndsTheRun : Prop :=
  (∀ s : State, exec .endScan s = .next { s with mode := .done }) ∧
  (∀ (s : State) (rest : List Symbol),
    s.fault = none → s.mode = .scan → s.input = .eos :: rest →
    step s = .next { s with mode := .done, inPos := s.inPos + 1, input := rest })

/-- R17 and R73 (an inference of the spec's own): over bytes with no start code before an SEI
header, the scanner only moves `sc`, to the longest suffix that is a prefix of `00 00 01`; and a
unit begins at the byte after such bytes exactly when they end in a start code and the byte passes
the header test. -/
def Obligations.ScannerFindsExactlyTheStartCodes : Prop :=
  ∀ (s : State) (bs : List Byte) (rest : List Symbol),
    s.fault = none → s.mode = .scan → s.sc = 0 → NoUnit s.params.hdrMatch bs →
    (s.input = byteSymbols bs ++ rest →
      runSteps bs.length s =
        .next { s with sc := matchLen bs, inPos := s.inPos + bs.length, input := rest }) ∧
    (∀ h, s.input = byteSymbols bs ++ .byte h :: rest →
      ∃ t, runSteps (bs.length + 1) s = .next t ∧ t.input = rest ∧ t.out = s.out ∧
        (t.mode = .type ↔ [0x00, 0x00, 0x01] <:+ bs ∧ hdrIsSei s.params.hdrMatch h) ∧
        (t.mode = .scan ↔ ¬ ([0x00, 0x00, 0x01] <:+ bs ∧ hdrIsSei s.params.hdrMatch h)))

/-- R76 (an inference of the spec's own): a stream without an SEI unit ends with no record. -/
def Obligations.StreamWithoutUnitsEmitsNothing : Prop :=
  ∀ (s : State) (bs : List Byte),
    s.fault = none → s.mode = .scan → s.sc = 0 → NoUnit s.params.hdrMatch bs →
    s.input = byteSymbols bs ++ [.eos] →
    ∃ t, runSteps (bs.length + 1) s = .next t ∧ t.mode = .done ∧ t.fault = none ∧ t.out = s.out ∧
      t.input = []

/-- R75: when a unit ends without the stream ending, scanning resumes with `sc = 0`. The premise is
the part of the invariant that says so inside a unit. -/
def Obligations.ScanningResumesWithNothingMatched : Prop :=
  ∀ s t : State, (inUnit s.mode → s.sc = 0) → step s = .next t →
    (inUnit s.mode → t.mode = .scan → t.sc = 0) ∧ (inUnit t.mode → t.sc = 0)

/-! ### PayloadExtractor -/

/-- R77: a byte of `payload_type`. -/
def Obligations.TypeBytesAccumulate : Prop :=
  ∀ (s : State) (b : Byte),
    ((∀ k, s.params.accBits = some k → s.pt + 255 < 2 ^ k) →
      exec .typeCont s = .next { s with pt := s.pt + 255 }) ∧
    ((∃ k, s.params.accBits = some k ∧ 2 ^ k ≤ s.pt + 255) →
      exec .typeCont s = .next { s with fault := some .capacityExceeded }) ∧
    ((∀ k, s.params.accBits = some k → s.pt + b.toNat < 2 ^ k) →
      exec (.typeLast b) s = .next { s with pt := s.pt + b.toNat, mode := .size }) ∧
    ((∃ k, s.params.accBits = some k ∧ 2 ^ k ≤ s.pt + b.toNat) →
      exec (.typeLast b) s = .next { s with fault := some .capacityExceeded })

/-- R78 and R79: a byte of `payload_size`; its last byte starts the payload, which ends at once when
it is empty. -/
def Obligations.SizeBytesAccumulateAndStartThePayload : Prop :=
  ∀ (s : State) (b : Byte),
    ((∀ k, s.params.accBits = some k → s.ps + 255 < 2 ^ k) →
      exec .sizeCont s = .next { s with ps := s.ps + 255 }) ∧
    ((∃ k, s.params.accBits = some k ∧ 2 ^ k ≤ s.ps + 255) →
      exec .sizeCont s = .next { s with fault := some .capacityExceeded }) ∧
    ((∃ k, s.params.accBits = some k ∧ 2 ^ k ≤ s.ps + b.toNat) →
      exec (.sizeLast b) s = .next { s with fault := some .capacityExceeded }) ∧
    ((∀ k, s.params.accBits = some k → s.ps + b.toNat < 2 ^ k) →
      ((s.pt = 45 ∧ ∃ n, s.params.bufBytes = some n ∧ n < s.ps + b.toNat) →
        exec (.sizeLast b) s =
          .next { s with ps := s.ps + b.toNat, fault := some .capacityExceeded }) ∧
      (¬ (s.pt = 45 ∧ ∃ n, s.params.bufBytes = some n ∧ n < s.ps + b.toNat) →
        (s.ps + b.toNat ≠ 0 →
          exec (.sizeLast b) s =
            .next { s with ps := s.ps + b.toNat, nOut := 0, zc := 0, buf := [], mode := .copy }) ∧
        (s.ps + b.toNat = 0 → s.pt ≠ 45 →
          exec (.sizeLast b) s =
            .next { s with
              ps := 0, nOut := 0, zc := 0, buf := [], mode := .scan,
              out := s.out ++ [{ status := .skipped, cause := .none, payloadType := some s.pt,
                                 payloadSize := some 0, fpa := .empty, trailer := [] }] }) ∧
        (s.ps + b.toNat = 0 → s.pt = 45 →
          exec (.sizeLast b) s =
            .next { s with
              ps := 0, nOut := 0, zc := 0, buf := [], mode := .scan,
              out := s.out ++ [{ status := .malformed, cause := .outOfRange,
                                 payloadType := some 45, payloadSize := some 0,
                                 fpa := .empty, trailer := [] }] })))

/-- R80, R82 and R86: a payload byte is stored at `n_out`, every other byte of the buffer stays, and
the byte that completes the payload emits its record and resumes scanning. The premise is the
canonical form of the buffer's list of cells (log 3), which every step keeps. -/
def Obligations.CopyDataStoresAndFinishes : Prop :=
  ∀ (s : State) (b : Byte), Memory.wf s.buf = true → ∃ m : Memory,
    Memory.wf m = true ∧
    Memory.read m s.nOut = b ∧
    (∀ a, a ≠ s.nOut → Memory.read m a = Memory.read s.buf a) ∧
    (s.nOut + 1 ≠ s.ps →
      exec (.copyData b) s =
        .next { s with buf := m, nOut := s.nOut + 1,
                       zc := if b = 0x00 then (if s.zc = 0 then 1 else 2) else 0 }) ∧
    (s.nOut + 1 = s.ps →
      exec (.copyData b) s =
        .next { s with buf := m, nOut := s.nOut + 1,
                       zc := if b = 0x00 then (if s.zc = 0 then 1 else 2) else 0,
                       mode := .scan,
                       out := s.out ++
                         [if s.pt = 45 then decodeRecord s.params m s.ps
                          else { status := .skipped, cause := .none, payloadType := some s.pt,
                                 payloadSize := some s.ps, fpa := .empty, trailer := [] }] })

/-- R81: an emulation-prevention byte is discarded: only `zc` changes. -/
def Obligations.EmulationPreventionByteIsDiscarded : Prop :=
  (∀ s : State, exec .copyEpb s = .next { s with zc := 0 }) ∧
  (∀ (s : State) (rest : List Symbol),
    s.fault = none → s.mode = .copy → s.zc = 2 → s.input = .byte 0x03 :: rest →
    step s = .next { s with zc := 0, inPos := s.inPos + 1, input := rest })

/-- R83: the record of a stream that ends inside a unit, by mode. -/
def Obligations.EndInsideAUnitIsTruncation : Prop :=
  ∀ s : State,
    (s.mode = .type →
      exec .endTrunc s = .next { s with
        mode := .done,
        out := s.out ++ [{ status := .truncated, cause := .none, payloadType := none,
                           payloadSize := none, fpa := .empty, trailer := [] }] }) ∧
    (s.mode = .size →
      exec .endTrunc s = .next { s with
        mode := .done,
        out := s.out ++ [{ status := .truncated, cause := .none, payloadType := some s.pt,
                           payloadSize := none, fpa := .empty, trailer := [] }] }) ∧
    (s.mode = .copy →
      exec .endTrunc s = .next { s with
        mode := .done,
        out := s.out ++ [{ status := .truncated, cause := .none, payloadType := some s.pt,
                           payloadSize := some s.ps, fpa := .empty, trailer := [] }] })

/-- DONE_ANY (R26's last case): any symbol in DONE mode sets the fault register and nothing else. -/
def Obligations.SymbolAfterEndIsAFault : Prop :=
  ∀ (s : State) (sym : Symbol),
    exec (.doneAny sym) s = .next { s with fault := some .inputAfterEnd }

/-- R52: the ff-coding of n, read from TYPE mode, adds n to `payload_type`, and read from SIZE mode
adds n to `payload_size`, whatever n is. -/
def Obligations.FfCodingIsSummed : Prop :=
  ∀ (s : State) (n : Nat) (rest : List Symbol),
    s.fault = none → s.params.accBits = none → s.input = byteSymbols (ffBytes n) ++ rest →
    (s.mode = .type →
      runSteps (n / 255 + 1) s =
        .next { s with pt := s.pt + n, mode := .size, inPos := s.inPos + (n / 255 + 1),
                       input := rest }) ∧
    (s.mode = .size → s.params.bufBytes = none →
      ∃ t, runSteps (n / 255 + 1) s = .next t ∧ t.ps = s.ps + n ∧ t.pt = s.pt ∧ t.input = rest ∧
        t.mode = if s.ps + n = 0 then .scan else .copy)

/-- R53 (with the encoder of spec G10): a payload sent with its emulation-prevention bytes is stored
without them, byte for byte, and the unit ends there with the record of that payload. -/
def Obligations.EmulationPreventionRoundTrip : Prop :=
  ∀ (s : State) (q : List Byte) (rest : List Symbol),
    s.fault = none → s.mode = .copy → s.nOut = 0 → s.zc = 0 → s.buf = [] →
    s.ps = q.length → q ≠ [] → s.input = byteSymbols (insertEpb 0 q) ++ rest →
    ∃ z, runSteps (insertEpb 0 q).length s =
      .next { s with mode := .scan, nOut := q.length, zc := z, buf := bufFrom 0 q,
                     out := s.out ++ [recordOf s.params s.pt q],
                     inPos := s.inPos + (insertEpb 0 q).length, input := rest }

/-- The source's own property (95_test_vectors.md L1-3): a payload in which `00 00 03` never occurs
is copied unchanged. -/
def Obligations.CleanPayloadIsCopiedUnchanged : Prop :=
  ∀ (s : State) (q : List Byte) (rest : List Symbol),
    s.fault = none → s.mode = .copy → s.nOut = 0 → s.zc = 0 → s.buf = [] →
    s.ps = q.length → q ≠ [] → ¬ [0x00, 0x00, 0x03] <:+: q → s.input = byteSymbols q ++ rest →
    ∃ z, runSteps q.length s =
      .next { s with mode := .scan, nOut := q.length, zc := z, buf := bufFrom 0 q,
                     out := s.out ++ [recordOf s.params s.pt q],
                     inPos := s.inPos + q.length, input := rest }

/-- R114 (L1-6): a stream that ends before the declared size is reached gives one TRUNCATED record
and no decode, whatever the bytes are. -/
def Obligations.ShortPayloadIsTruncated : Prop :=
  ∀ (s : State) (q : List Byte),
    s.fault = none → s.mode = .copy → s.nOut + q.length < s.ps →
    s.input = byteSymbols q ++ [.eos] →
    ∃ t, runSteps (q.length + 1) s = .next t ∧ t.mode = .done ∧ t.fault = none ∧
      t.out = s.out ++ [{ status := .truncated, cause := .none, payloadType := some s.pt,
                          payloadSize := some s.ps, fpa := .empty, trailer := [] }]

/-- A whole unit, end to end: a start code, an SEI header, the ff-coded type and size, and the
payload with its emulation-prevention bytes lead to exactly the record of that payload, and the
scanner goes on at the next symbol with nothing matched (R49, R52, R53, R71, R77 to R82, R86). -/
def Obligations.AWholeUnitYieldsItsRecord : Prop :=
  ∀ (s : State) (h : Byte) (type : Nat) (q : List Byte) (rest : List Symbol),
    s.fault = none → s.mode = .scan → s.sc = 0 → hdrIsSei s.params.hdrMatch h →
    s.params.accBits = none → s.params.bufBytes = none →
    s.input = byteSymbols ([0x00, 0x00, 0x01, h] ++ ffBytes type ++ ffBytes q.length ++
      insertEpb 0 q) ++ rest →
    ∃ t, runSteps ([0x00, 0x00, 0x01, h] ++ ffBytes type ++ ffBytes q.length ++
        insertEpb 0 q).length s = .next t ∧
      t.mode = .scan ∧ t.sc = 0 ∧ t.fault = none ∧ t.input = rest ∧
      t.out = s.out ++ [recordOf s.params type q]

/-! ### BitCursor -/

/-- R34 and R64: `read_bit` returns bit 7 - (p mod 8) of byte p div 8 and advances by one; at the
end of the buffer it raises OutOfRange. -/
def Obligations.ReadBitReturnsTheNextBit : Prop :=
  ∀ (buf : Memory) (c : Cursor),
    (c.pos < c.len →
      readBit buf c =
        .ok ((Memory.read buf (c.pos / 8)).toNat / 2 ^ (7 - c.pos % 8) % 2)
          { c with pos := c.pos + 1 }) ∧
    (c.len ≤ c.pos → readBit buf c = .raised .outOfRange c)

/-- R35 and R65: `read_u(w)` composes w bits, the first the most significant; it raises OutOfRange
when fewer than w bits remain; width 0 reads nothing. -/
def Obligations.ReadUComposesMostSignificantFirst : Prop :=
  ∀ (buf : Memory) (w : Nat) (c : Cursor),
    (c.pos + w ≤ c.len →
      readU buf w c =
        .ok (((List.range w).map fun k => (bitAt buf (c.pos + k)).toNat * 2 ^ (w - 1 - k)).sum)
          { c with pos := c.pos + w }) ∧
    (c.len < c.pos + w → readU buf w c = .raised .outOfRange c) ∧
    (c.pos ≤ c.len → readU buf 0 c = .ok 0 c)

/-- R66: `read_ue` under every cap and buffer: the four ways it ends, by the zero run it meets. -/
def Obligations.ReadUeFollowsTheZeroRun : Prop :=
  ∀ (cap : Nat) (buf : Memory) (c : Cursor) (z : Nat), c.pos ≤ c.len →
    (∀ k, k < z → bitAt buf (c.pos + k) = false) →
    -- z zeros, a one, and a z-bit suffix
    (z ≤ cap → bitAt buf (c.pos + z) = true → c.pos + (2 * z + 1) ≤ c.len →
      readUe cap buf c =
        .ok (2 ^ z - 1 + bitsValue buf (c.pos + z + 1) z) { c with pos := c.pos + (2 * z + 1) }) ∧
    -- the buffer ends inside the suffix
    (z ≤ cap → bitAt buf (c.pos + z) = true → c.pos + z < c.len → c.len < c.pos + (2 * z + 1) →
      ∃ c', readUe cap buf c = .raised .outOfRange c') ∧
    -- the buffer ends inside the zero run, or where the one should stand
    (z ≤ cap → c.pos + z = c.len → ∃ c', readUe cap buf c = .raised .outOfRange c') ∧
    -- the zero run goes beyond the cap
    (z = cap + 1 → c.pos + z ≤ c.len →
      readUe cap buf c = .raised .malformedGolombCode { c with pos := c.pos + z })

/-- R54 (the source's property L1-1): re-encoding a value `read_u(w)` returned gives the bits read. -/
def Obligations.ReadUThenReencodeGivesTheBits : Prop :=
  ∀ (buf : Memory) (w : Nat) (c c' : Cursor) (v : Nat), readU buf w c = .ok v c' →
    uBits w v = bitsFrom buf c.pos w ∧ v < 2 ^ w

/-- R55 and R67 (L1-2 for every value): `read_ue` returns v and consumes its codeword exactly when
the bits at the cursor are the codeword of v and v is within the cap. -/
def Obligations.ReadUeReadsExactlyTheCodewords : Prop :=
  ∀ (cap : Nat) (buf : Memory) (c : Cursor) (v : Nat), c.pos ≤ c.len →
    (readUe cap buf c = .ok v { c with pos := c.pos + (ueBits v).length } ↔
      c.pos + (ueBits v).length ≤ c.len ∧ v + 2 ≤ 2 ^ (cap + 1) ∧
        bitsFrom buf c.pos (ueBits v).length = ueBits v) ∧
    (∀ c', readUe cap buf c = .ok v c' → c' = { c with pos := c.pos + (ueBits v).length }) ∧
    (ueBits v).length = 2 * Nat.log2 (v + 1) + 1

/-- R63: every operation keeps the cursor within its buffer, and a BitCursor operation never moves
it back. -/
def Obligations.CursorStaysInBounds : Prop :=
  (∀ (i : Instr) (s t : State), exec i s = .next t → s.dec.cur.pos ≤ s.dec.cur.len →
    t.dec.cur.pos ≤ t.dec.cur.len) ∧
  (∀ (buf : Memory) (w cap v : Nat) (c c' : Cursor),
    (readBit buf c = .ok v c' ∨ readU buf w c = .ok v c' ∨ readUe cap buf c = .ok v c') →
    c.pos ≤ c'.pos ∧ c'.len = c.len)

/-- READ_BIT, READ_U and READ_UE as operations of their own (log 7) complete: where the bits are
there, the value read goes to the model's own result register (log 6) and the cursor moves past
them; where the read raises an error, it is taken as R118 says, with the fields completed so far in the record and
the decode registers idle again (log 5). -/
def Obligations.CursorOperationsComplete : Prop :=
  ∀ s : State,
    (s.dec.cur.pos < s.dec.cur.len →
      exec .readBit s = .next { s with dec := { s.dec with
        cur := { s.dec.cur with pos := s.dec.cur.pos + 1 }
        ret := (bitAt s.buf s.dec.cur.pos).toNat } }) ∧
    (∀ w, w ≤ 32 → s.dec.cur.pos + w ≤ s.dec.cur.len →
      exec (.readU w) s = .next { s with dec := { s.dec with
        cur := { s.dec.cur with pos := s.dec.cur.pos + w }
        ret := bitsValue s.buf s.dec.cur.pos w } }) ∧
    (∀ v, s.dec.cur.pos + (ueBits v).length ≤ s.dec.cur.len →
      v + 2 ≤ 2 ^ (s.params.egMaxZeros.val + 1) →
      bitsFrom s.buf s.dec.cur.pos (ueBits v).length = ueBits v →
      exec .readUe s = .next { s with dec := { s.dec with
        cur := { s.dec.cur with pos := s.dec.cur.pos + (ueBits v).length }
        ret := v } }) ∧
    (∀ i, (i = .readBit ∧ s.dec.cur.len ≤ s.dec.cur.pos ∨
        (∃ w, w ≤ 32 ∧ i = .readU w ∧ s.dec.cur.len < s.dec.cur.pos + w) ∨
        i = .readUe ∧ ∃ c, readUe s.params.egMaxZeros s.buf s.dec.cur = .raised .outOfRange c) →
      exec i s = .next { s with
        mode := .scan, dec := .idle,
        out := s.out ++ [{ status := .malformed, cause := .outOfRange, payloadType := some 45,
                           payloadSize := some s.ps, fpa := s.dec.fpa, trailer := [] }] }) ∧
    (∀ c, readUe s.params.egMaxZeros s.buf s.dec.cur = .raised .malformedGolombCode c →
      exec .readUe s = .next { s with
        mode := .scan, dec := .idle,
        out := s.out ++ [{ status := .malformed, cause := .malformedGolomb, payloadType := some 45,
                           payloadSize := some s.ps, fpa := s.dec.fpa, trailer := [] }] })

/-- A READ_U wider than 32 bits is refused by name. The refusal is the model's choice (log 4, DESIGN
CHOICE): R69 says that such a read is never issued and only that a model may refuse it. -/
def Obligations.ReadWidthOver32IsRefused : Prop :=
  ∀ (s : State) (w : Nat), 32 < w → exec (.readU w) s = .refused .readWidthOver32

/-! ### SeiFramePackingDecoder -/

/-- R89 to R98, R100 to R104 and R106: each fixed-width field read writes its own slot with the
value of its bits, advances the cursor by its width, and changes nothing else. -/
def Obligations.FixedWidthFieldsReadTheirSlots : Prop :=
  ∀ (s : State) (d : DecodeRegs) (p : Nat), d = s.dec → p = d.cur.pos →
    (p + 1 ≤ d.cur.len → exec .fpaCancel s = .next { s with dec := { d with
      cur := { d.cur with pos := p + 1 }
      fpa := { d.fpa with cancelFlag := some (bitsValue s.buf p 1) } } }) ∧
    (p + 7 ≤ d.cur.len → exec .fpaType s = .next { s with dec := { d with
      cur := { d.cur with pos := p + 7 }
      fpa := { d.fpa with arrangementType := some (bitsValue s.buf p 7) } } }) ∧
    (p + 1 ≤ d.cur.len → exec .fpaQuincunx s = .next { s with dec := { d with
      cur := { d.cur with pos := p + 1 }
      fpa := { d.fpa with quincunxSamplingFlag := some (bitsValue s.buf p 1) } } }) ∧
    (p + 6 ≤ d.cur.len → exec .fpaCit s = .next { s with dec := { d with
      cur := { d.cur with pos := p + 6 }
      fpa := { d.fpa with contentInterpretationType := some (bitsValue s.buf p 6) } } }) ∧
    (p + 1 ≤ d.cur.len → exec .fpaSpatialFlipping s = .next { s with dec := { d with
      cur := { d.cur with pos := p + 1 }
      fpa := { d.fpa with spatialFlipping := some (bitsValue s.buf p 1) } } }) ∧
    (p + 1 ≤ d.cur.len → exec .fpaFrame0Flipped s = .next { s with dec := { d with
      cur := { d.cur with pos := p + 1 }
      fpa := { d.fpa with frame0Flipped := some (bitsValue s.buf p 1) } } }) ∧
    (p + 1 ≤ d.cur.len → exec .fpaFieldViews s = .next { s with dec := { d with
      cur := { d.cur with pos := p + 1 }
      fpa := { d.fpa with fieldViews := some (bitsValue s.buf p 1) } } }) ∧
    (p + 1 ≤ d.cur.len → exec .fpaCurrentFrameIsFrame0 s = .next { s with dec := { d with
      cur := { d.cur with pos := p + 1 }
      fpa := { d.fpa with currentFrameIsFrame0 := some (bitsValue s.buf p 1) } } }) ∧
    (p + 1 ≤ d.cur.len → exec .fpaFrame0SelfContained s = .next { s with dec := { d with
      cur := { d.cur with pos := p + 1 }
      fpa := { d.fpa with frame0SelfContained := some (bitsValue s.buf p 1) } } }) ∧
    (p + 1 ≤ d.cur.len → exec .fpaFrame1SelfContained s = .next { s with dec := { d with
      cur := { d.cur with pos := p + 1 }
      fpa := { d.fpa with frame1SelfContained := some (bitsValue s.buf p 1) } } }) ∧
    (p + 4 ≤ d.cur.len → exec .fpaGrid0 s = .next { s with dec := { d with
      cur := { d.cur with pos := p + 4 }
      fpa := { d.fpa with grid0 := some (bitsValue s.buf p 4) } } }) ∧
    (p + 4 ≤ d.cur.len → exec .fpaGrid1 s = .next { s with dec := { d with
      cur := { d.cur with pos := p + 4 }
      fpa := { d.fpa with grid1 := some (bitsValue s.buf p 4) } } }) ∧
    (p + 4 ≤ d.cur.len → exec .fpaGrid2 s = .next { s with dec := { d with
      cur := { d.cur with pos := p + 4 }
      fpa := { d.fpa with grid2 := some (bitsValue s.buf p 4) } } }) ∧
    (p + 4 ≤ d.cur.len → exec .fpaGrid3 s = .next { s with dec := { d with
      cur := { d.cur with pos := p + 4 }
      fpa := { d.fpa with grid3 := some (bitsValue s.buf p 4) } } }) ∧
    (p + 8 ≤ d.cur.len → exec .fpaReservedByte s = .next { s with dec := { d with
      cur := { d.cur with pos := p + 8 }
      fpa := { d.fpa with reservedByte := some (bitsValue s.buf p 8) } } }) ∧
    (p + 1 ≤ d.cur.len → exec .fpaExtensionFlag s = .next { s with dec := { d with
      cur := { d.cur with pos := p + 1 }
      fpa := { d.fpa with extensionFlag := some (bitsValue s.buf p 1) } } })

/-- R88 and R105: where the bits at the cursor are the codeword of v (R55) and v is within the cap
(R67), the two Exp-Golomb fields write v to their own slot, move the cursor past the codeword, and
change nothing else. -/
def Obligations.ExpGolombFieldsReadTheirSlots : Prop :=
  ∀ (s : State) (v : Nat),
    s.dec.cur.pos + (ueBits v).length ≤ s.dec.cur.len →
    v + 2 ≤ 2 ^ (s.params.egMaxZeros.val + 1) →
    bitsFrom s.buf s.dec.cur.pos (ueBits v).length = ueBits v →
    exec .fpaId s = .next { s with dec := { s.dec with
      cur := { s.dec.cur with pos := s.dec.cur.pos + (ueBits v).length }
      fpa := { s.dec.fpa with id := some v } } } ∧
    exec .fpaRepetitionPeriod s = .next { s with dec := { s.dec with
      cur := { s.dec.cur with pos := s.dec.cur.pos + (ueBits v).length }
      fpa := { s.dec.fpa with repetitionPeriod := some v } } }

/-- R112, R113 and R118: a field read that cannot complete emits the MALFORMED record with the
fields completed so far and returns to SCAN mode; nothing else is saved. That the decode registers
are idle again is the model's way to hold them (log 5), and so is that a field read runs as an
operation of its own (log 7). -/
def Obligations.FailingFieldReadAbortsTheUnit : Prop :=
  ∀ (s : State) (i : Instr),
    (∀ w, itemFormat i = some (.u w) → s.dec.cur.len < s.dec.cur.pos + w →
      exec i s = .next { s with
        mode := .scan, dec := .idle,
        out := s.out ++ [{ status := .malformed, cause := .outOfRange, payloadType := some 45,
                           payloadSize := some s.ps, fpa := s.dec.fpa, trailer := [] }] }) ∧
    (∀ c, itemFormat i = some .ue →
      readUe s.params.egMaxZeros s.buf s.dec.cur = .raised .outOfRange c →
      exec i s = .next { s with
        mode := .scan, dec := .idle,
        out := s.out ++ [{ status := .malformed, cause := .outOfRange, payloadType := some 45,
                           payloadSize := some s.ps, fpa := s.dec.fpa, trailer := [] }] }) ∧
    (∀ c, itemFormat i = some .ue →
      readUe s.params.egMaxZeros s.buf s.dec.cur = .raised .malformedGolombCode c →
      exec i s = .next { s with
        mode := .scan, dec := .idle,
        out := s.out ++ [{ status := .malformed, cause := .malformedGolomb, payloadType := some 45,
                           payloadSize := some s.ps, fpa := s.dec.fpa, trailer := [] }] })

/-- R107: FPA_TRAILER takes every bit from the cursor to the end of the payload, in read order, and
leaves the cursor at the end. -/
def Obligations.TrailerTakesTheRemainingBits : Prop :=
  ∀ s : State, s.dec.cur.pos ≤ s.dec.cur.len →
    ∃ T : List Bool,
      exec .fpaTrailer s = .next { s with dec := { s.dec with
        cur := { s.dec.cur with pos := s.dec.cur.len }, trailer := T } } ∧
      T.length = s.dec.cur.len - s.dec.cur.pos ∧
      ∀ k, k < s.dec.cur.len - s.dec.cur.pos → T[k]? = some (bitAt s.buf (s.dec.cur.pos + k))

/-- DECODE_FPA (R87) writes only `out`: it appends the decode's record. -/
def Obligations.DecodeFpaWritesOnlyTheLog : Prop :=
  ∀ s : State,
    exec .decodeFpa s = .next { s with out := s.out ++ [decodeRecord s.params s.buf s.ps] }

/-- R56, R57 and R108: the decode of a payload is FPA_OK with fields F and trailer T exactly when F
has the presence and widths of R108 (under the cap) and the payload's bits are the bits of F, in the
order of R56, followed by T. -/
def Obligations.FpaDecodeIsTheInverseOfItsEncoding : Prop :=
  ∀ (p : Params) (buf : Memory) (ps : Nat) (F : FieldFile) (T : List Bool),
    decodeRecord p buf ps =
      { status := .fpaOk, cause := .none, payloadType := some 45, payloadSize := some ps,
        fpa := F, trailer := T } ↔
    OkShape p.egMaxZeros F ∧ bitsFrom buf 0 (8 * ps) = fpaBits F ++ T

/-- R99: in an FPA_OK record the grid quartet is present, all four, exactly when
`quincunx_sampling_flag` is 0 and `type` is not 5. -/
def Obligations.GridIsReadExactlyWhenPresent : Prop :=
  ∀ (p : Params) (buf : Memory) (ps : Nat) (r : Record),
    decodeRecord p buf ps = r → r.status = .fpaOk → r.fpa.cancelFlag = some 0 →
    ((r.fpa.quincunxSamplingFlag = some 0 ∧ r.fpa.arrangementType ≠ some 5) ↔
      r.fpa.grid0.isSome) ∧
    (r.fpa.grid0.isSome = r.fpa.grid1.isSome) ∧ (r.fpa.grid0.isSome = r.fpa.grid2.isSome) ∧
    (r.fpa.grid0.isSome = r.fpa.grid3.isSome)

/-- R87, R109 and R117(c): the atomic decode is the run of the grammar's items, one `exec` each, in
the order the grammar selects them: either every item completes and the record is FPA_OK with the
fields and trailer they leave, or the record is MALFORMED with exactly the fields completed before
the first item that fails. -/
def Obligations.DecodeIsTheRunOfItsItems : Prop :=
  ∀ (s : State) (r : Record), s.dec = .start s.ps → decodeRecord s.params s.buf s.ps = r →
    (r.status = .fpaOk ∧
      ∃ k t, k ≤ 19 ∧ execItems k s = .next t ∧ t.out = s.out ∧
        r = { status := .fpaOk, cause := .none, payloadType := some 45, payloadSize := some s.ps,
              fpa := t.dec.fpa, trailer := t.dec.trailer } ∧
        t.dec.cur.pos = 8 * s.ps ∧ grammarNext t.dec.fpa = .fpaTrailer) ∨
    (r.status = .malformed ∧
      ∃ k t u, k < 18 ∧ execItems k s = .next t ∧ t.out = s.out ∧ r.fpa = t.dec.fpa ∧
        exec (grammarNext t.dec.fpa) t = .next u ∧ u.out = s.out ++ [r] ∧ u.mode = .scan)

/-- R109 and R115: a decode that raises an error `e` stops at the item that raised it and yields the
MALFORMED record with `CauseOf(e)`, payload_type 45, the declared size, exactly the fields completed
before that item, and no trailer; the extension flag, the last slot read, is absent. The error is
the one the failing item's own read meets: OutOfRange where a `u(w)` field lacks bits, the error of
`read_ue` for a `ue(v)` field. A decode whose record is not FPA_OK has raised an error. -/
def Obligations.FailedDecodeIsMalformed : Prop :=
  ∀ s : State, s.dec = .start s.ps →
    (∀ e d, decodeFields s.params s.buf s.dec = .raised e d →
      decodeRecord s.params s.buf s.ps =
        { status := .malformed,
          cause := match e with
            | .outOfRange => .outOfRange
            | .malformedGolombCode => .malformedGolomb,
          payloadType := some 45, payloadSize := some s.ps, fpa := d.fpa, trailer := [] } ∧
      d.fpa.extensionFlag = none ∧
      ∃ k t, k < 18 ∧ execItems k s = .next t ∧ t.out = s.out ∧ t.dec.fpa = d.fpa ∧
        ((∃ w, itemFormat (grammarNext t.dec.fpa) = some (.u w) ∧
            t.dec.cur.len < t.dec.cur.pos + w ∧ e = .outOfRange) ∨
         (itemFormat (grammarNext t.dec.fpa) = some .ue ∧
            ∃ c, readUe s.params.egMaxZeros s.buf t.dec.cur = .raised e c))) ∧
    ((decodeRecord s.params s.buf s.ps).status ≠ .fpaOk →
      ∃ e d, decodeFields s.params s.buf s.dec = .raised e d)

/-! ### Whole-machine claims -/

/-- R124 and R30 (inferences of the spec's own): a register that is dead in the current mode, and a
buffer byte the payload has not written, reach no record and no later step. -/
def Obligations.DeadRegistersAreNeverObserved : Prop :=
  ∀ s t : State, SameLive s t → ∀ k, SameOutcome SameLive (runSteps k s) (runSteps k t)

/-- R120 (an inference of the spec's own): the contents of payloads, and whether their decodes
succeed, change neither the scan nor the number of records. -/
def Obligations.ErrorsNeverChangeTheScan : Prop :=
  ∀ s t : State, SameScan s t → ∀ k, SameOutcome SameScan (runSteps k s) (runSteps k t)

/-- R131 and R132 (R131 an inference of the spec's own): with unbounded parameters, a finite stream
and one End take exactly one step per symbol and end the run in DONE without a fault. -/
def Obligations.FiniteStreamEndsTheRun : Prop :=
  ∀ (s : State) (bs : List Byte),
    s.fault = none → s.mode ≠ .done → s.params.accBits = none → s.params.bufBytes = none →
    s.input = byteSymbols bs ++ [.eos] →
    ∃ t, runSteps (bs.length + 1) s = .next t ∧ t.runEnded = true ∧ t.input = [] ∧
      t.inPos = s.inPos + (bs.length + 1)
end

