-- ==== Sys2Proof/Laws/Memory.lean ====
section
/-! SUPPORT. The laws of the payload buffer (spec/20_memory.md R33): a read after a write, and the
canonical form that every operation keeps. -/

namespace Sys2Proof.Machine

@[simp] theorem Memory.read_nil (a : Nat) : Memory.read [] a = Memory.unwritten := rfl

theorem Memory.read_cons_cell (k : Nat) (v : Byte) (m : Memory) (a : Nat) :
    Memory.read ((k, v) :: m) a = if k = a then v else Memory.read m a := rfl

/-- Below a memory's bound every address is unlisted. -/
theorem Memory.read_below {lo : Nat} {m : Memory} (h : Memory.wfFrom lo m = true) {a : Nat}
    (ha : a < lo) : Memory.read m a = Memory.unwritten := by
  induction m generalizing lo with
  | nil => rfl
  | cons c m ih =>
    obtain ⟨k, v⟩ := c
    simp only [Memory.wfFrom, Bool.and_eq_true, decide_eq_true_eq] at h
    rw [Memory.read_cons_cell, if_neg (by omega)]
    exact ih h.2 (by omega)

/-- The canonical form above a bound is the canonical form above a smaller one. -/
theorem Memory.wfFrom_mono {lo lo' : Nat} {m : Memory} (hle : lo' ≤ lo)
    (h : Memory.wfFrom lo m = true) : Memory.wfFrom lo' m = true := by
  cases m with
  | nil => rfl
  | cons c m =>
    obtain ⟨k, v⟩ := c
    simp only [Memory.wfFrom, Bool.and_eq_true, decide_eq_true_eq] at h ⊢
    exact ⟨⟨by omega, h.1.2⟩, h.2⟩

/-- `Memory.cons` reads as its byte at its address and as the rest elsewhere, where the rest does
not list that address. -/
theorem Memory.read_cons (a : Nat) (b : Byte) (m : Memory) (c : Nat)
    (hm : Memory.read m a = Memory.unwritten) :
    Memory.read (Memory.cons a b m) c = if c = a then b else Memory.read m c := by
  unfold Memory.cons
  by_cases hb : b = Memory.unwritten
  · rw [if_pos hb]
    by_cases hc : c = a
    · rw [if_pos hc, hc, hm, hb]
    · rw [if_neg hc]
  · rw [if_neg hb, Memory.read_cons_cell]
    simp only [eq_comm]

theorem Memory.wfFrom_cons {lo a : Nat} {b : Byte} {m : Memory} (hlo : lo ≤ a)
    (hm : Memory.wfFrom (a + 1) m = true) : Memory.wfFrom lo (Memory.cons a b m) = true := by
  unfold Memory.cons
  split
  · exact Memory.wfFrom_mono (by omega) hm
  · simp [Memory.wfFrom, *]

/-- A write keeps the canonical form above every bound at or below its address. -/
theorem Memory.wfFrom_write {lo : Nat} {m : Memory} (h : Memory.wfFrom lo m = true) {a : Nat}
    (ha : lo ≤ a) (b : Byte) : Memory.wfFrom lo (Memory.write m a b) = true := by
  induction m generalizing lo with
  | nil => exact Memory.wfFrom_cons ha rfl
  | cons c m ih =>
    obtain ⟨k, v⟩ := c
    have h' := h
    simp only [Memory.wfFrom, Bool.and_eq_true, decide_eq_true_eq] at h
    unfold Memory.write
    split
    · refine Memory.wfFrom_cons ha ?_
      simp only [Memory.wfFrom, Bool.and_eq_true, decide_eq_true_eq]
      exact ⟨⟨by omega, h.1.2⟩, h.2⟩
    · split
      · refine Memory.wfFrom_cons ha ?_
        subst_vars
        exact h.2
      · simp only [Memory.wfFrom, Bool.and_eq_true, decide_eq_true_eq]
        exact ⟨h.1, ih h.2 (by omega)⟩

/-- A write keeps the canonical form. -/
theorem Memory.wf_write {m : Memory} (h : Memory.wf m = true) (a : Nat) (b : Byte) :
    Memory.wf (Memory.write m a b) = true :=
  Memory.wfFrom_write h (Nat.zero_le a) b

/-- A read after a write, in any memory above a bound. -/
theorem Memory.read_write_of_wfFrom {lo : Nat} {m : Memory} (h : Memory.wfFrom lo m = true)
    (a : Nat) (b : Byte) (c : Nat) :
    Memory.read (Memory.write m a b) c = if c = a then b else Memory.read m c := by
  induction m generalizing lo with
  | nil => exact Memory.read_cons a b [] c rfl
  | cons d m ih =>
    obtain ⟨k, v⟩ := d
    have h' := h
    simp only [Memory.wfFrom, Bool.and_eq_true, decide_eq_true_eq] at h
    unfold Memory.write
    split
    · rename_i hak
      refine Memory.read_cons a b _ c ?_
      rw [Memory.read_cons_cell, if_neg (by omega)]
      exact Memory.read_below h.2 (by omega)
    · split
      · rename_i hak
        rw [Memory.read_cons a b m c (Memory.read_below h.2 (by omega)), Memory.read_cons_cell]
        split
        · rfl
        · rw [if_neg (by omega)]
      · rw [Memory.read_cons_cell, Memory.read_cons_cell, ih h.2]
        split
        · rw [if_neg (by omega)]
        · rfl

/-- A written byte reads back. -/
theorem Memory.read_write_same (m : Memory) (hm : Memory.wf m = true) (a : Nat) (b : Byte) :
    Memory.read (Memory.write m a b) a = b := by
  rw [Memory.read_write_of_wfFrom hm, if_pos rfl]

theorem Memory.read_write_other (m : Memory) (hm : Memory.wf m = true) {a c : Nat} (hc : c ≠ a)
    (b : Byte) : Memory.read (Memory.write m a b) c = Memory.read m c := by
  rw [Memory.read_write_of_wfFrom hm, if_neg hc]

/-- Canonical memories that read the same are the same data. -/
theorem Memory.ext_of_wfFrom {lo : Nat} {m n : Memory} (hm : Memory.wfFrom lo m = true)
    (hn : Memory.wfFrom lo n = true) (h : ∀ a, Memory.read m a = Memory.read n a) : m = n := by
  induction m generalizing lo n with
  | nil =>
    cases n with
    | nil => rfl
    | cons c n =>
      obtain ⟨k, v⟩ := c
      simp only [Memory.wfFrom, Bool.and_eq_true, bne_iff_ne] at hn
      have := h k
      rw [Memory.read_cons_cell, if_pos rfl] at this
      exact absurd this.symm hn.1.2
  | cons c m ih =>
    obtain ⟨k, v⟩ := c
    simp only [Memory.wfFrom, Bool.and_eq_true, bne_iff_ne, decide_eq_true_eq] at hm
    cases n with
    | nil =>
      have := h k
      rw [Memory.read_cons_cell, if_pos rfl] at this
      exact absurd this hm.1.2
    | cons d n =>
      obtain ⟨k', v'⟩ := d
      simp only [Memory.wfFrom, Bool.and_eq_true, bne_iff_ne, decide_eq_true_eq] at hn
      have hk : k = k' := by
        rcases Nat.lt_trichotomy k k' with hlt | heq | hgt
        · have := h k
          rw [Memory.read_cons_cell, if_pos rfl, Memory.read_cons_cell, if_neg (by omega),
            Memory.read_below hn.2 (by omega)] at this
          exact absurd this hm.1.2
        · exact heq
        · have := h k'
          rw [Memory.read_cons_cell, if_neg (by omega), Memory.read_below hm.2 (by omega),
            Memory.read_cons_cell, if_pos rfl] at this
          exact absurd this.symm hn.1.2
      subst hk
      have hv : v = v' := by
        have := h k
        simpa only [Memory.read_cons_cell, if_true] using this
      subst hv
      have hmn : m = n := by
        refine ih hm.2 hn.2 fun a => ?_
        by_cases ha : k = a
        · rw [Memory.read_below hm.2 (by omega), Memory.read_below hn.2 (by omega)]
        · have := h a
          simpa only [Memory.read_cons_cell, if_neg ha] using this
      rw [hmn]

theorem Memory.ext_of_wf {m n : Memory} (hm : Memory.wf m = true) (hn : Memory.wf n = true)
    (h : ∀ a, Memory.read m a = Memory.read n a) : m = n :=
  Memory.ext_of_wfFrom hm hn h

/-- The buffer of a list of bytes is canonical. -/
theorem wfFrom_bufFrom (a : Nat) (q : List Byte) : Memory.wfFrom a (bufFrom a q) = true := by
  induction q generalizing a with
  | nil => rfl
  | cons b q ih => exact Memory.wfFrom_cons (Nat.le_refl a) (ih (a + 1))

theorem wf_bufFrom (a : Nat) (q : List Byte) : Memory.wf (bufFrom a q) = true :=
  Memory.wfFrom_mono (Nat.zero_le a) (wfFrom_bufFrom a q)

/-- The reset memory is canonical. -/
theorem Memory.wf_nil : Memory.wf [] = true := rfl

end Sys2Proof.Machine
end

