-- ==== Sys2Proof/Laws/Cursor.lean ====
section
/-! SUPPORT. What the bit space and the BitCursor reads can do (spec/20_memory.md R34, R35;
spec/40_bitcursor.md R64 to R68), each said once. -/

namespace Sys2Proof.Machine

/-! ### The bit space -/

@[simp] theorem bitsFrom_zero (buf : Memory) (p : Nat) : bitsFrom buf p 0 = [] := rfl

theorem bitsFrom_succ (buf : Memory) (p n : Nat) :
    bitsFrom buf p (n + 1) = bitAt buf p :: bitsFrom buf (p + 1) n := rfl

@[simp] theorem bitsFrom_length (buf : Memory) (p n : Nat) : (bitsFrom buf p n).length = n := by
  induction n generalizing p with
  | zero => rfl
  | succ n ih => rw [bitsFrom_succ, List.length_cons, ih]

/-- The bits from p split where a read ends. -/
theorem bitsFrom_add (buf : Memory) (p m n : Nat) :
    bitsFrom buf p (m + n) = bitsFrom buf p m ++ bitsFrom buf (p + m) n := by
  induction m generalizing p with
  | zero => rw [Nat.zero_add, bitsFrom_zero, List.nil_append, Nat.add_zero]
  | succ m ih =>
    rw [Nat.add_right_comm, bitsFrom_succ, bitsFrom_succ, ih, List.cons_append,
      Nat.add_right_comm p 1 m, Nat.add_assoc p m 1]

theorem bitsFrom_getElem? (buf : Memory) (p n k : Nat) (hk : k < n) :
    (bitsFrom buf p n)[k]? = some (bitAt buf (p + k)) := by
  induction n generalizing p k with
  | zero => omega
  | succ n ih =>
    rw [bitsFrom_succ]
    cases k with
    | zero => rfl
    | succ k => rw [List.getElem?_cons_succ, ih (p + 1) k (by omega), Nat.add_right_comm,
        Nat.add_assoc]

/-- The bit at a position as a number: bit 7 - (p mod 8) of its byte (20_memory.md R34). -/
theorem bitAt_toNat (buf : Memory) (p : Nat) :
    (bitAt buf p).toNat = (Memory.read buf (p / 8)).toNat / 2 ^ (7 - p % 8) % 2 := by
  unfold bitAt
  rw [BitVec.getLsbD, Nat.testBit_eq_decide_div_mod_eq]
  rcases Nat.mod_two_eq_zero_or_one ((Memory.read buf (p / 8)).toNat / 2 ^ (7 - p % 8)) with h | h
  all_goals simp [h]

/-- A read of w bits stays below 2^w. -/
theorem bitsValue_lt (buf : Memory) (p w : Nat) : bitsValue buf p w < 2 ^ w := by
  induction w with
  | zero => exact Nat.one_pos
  | succ w ih =>
    have hb : (bitAt buf (p + w)).toNat ≤ 1 := Bool.toNat_le _
    rw [bitsValue, Nat.pow_succ]
    omega

/-- Reading one bit more in front: the first bit is the most significant. -/
theorem bitsValue_succ_front (buf : Memory) (p w : Nat) :
    bitsValue buf p (w + 1) = (bitAt buf p).toNat * 2 ^ w + bitsValue buf (p + 1) w := by
  induction w with
  | zero => simp [bitsValue]
  | succ w ih =>
    rw [bitsValue, ih, bitsValue, Nat.pow_succ, Nat.add_right_comm p 1 w, Nat.add_assoc p w 1]
    ring

/-- A bit of the value is the bit of the buffer it was read from. -/
theorem bitsValue_eq_of_bitsFrom {buf buf' : Memory} {p p' w : Nat}
    (h : bitsFrom buf p w = bitsFrom buf' p' w) : bitsValue buf p w = bitsValue buf' p' w := by
  induction w generalizing p p' with
  | zero => rfl
  | succ w ih =>
    rw [bitsFrom_succ, bitsFrom_succ, List.cons.injEq] at h
    rw [bitsValue_succ_front, bitsValue_succ_front, h.1, ih h.2]

@[simp] theorem uBits_length (n v : Nat) : (uBits n v).length = n := by
  induction n with
  | zero => rfl
  | succ n ih => rw [uBits, List.length_cons, ih]

/-- The w low bits of a number do not see a multiple of 2^w. -/
theorem uBits_add_mul (n v k : Nat) : uBits n (k * 2 ^ n + v) = uBits n v := by
  have key : ∀ m, m ≤ n → uBits m (k * 2 ^ n + v) = uBits m v := by
    intro m hm
    induction m with
    | zero => rfl
    | succ m ih =>
      rw [uBits, uBits, ih (by omega)]
      congr 1
      obtain ⟨d, rfl⟩ : ∃ d, n = m + 1 + d := ⟨n - (m + 1), by omega⟩
      rw [show k * 2 ^ (m + 1 + d) + v = 2 ^ (m + 1) * (k * 2 ^ d) + v by ring,
        Nat.testBit_eq_decide_div_mod_eq, Nat.testBit_eq_decide_div_mod_eq]
      congr 1
      rw [show 2 ^ (m + 1) * (k * 2 ^ d) + v = 2 ^ m * (2 * (k * 2 ^ d)) + v by ring,
        Nat.mul_add_div (Nat.two_pow_pos m), Nat.mul_add_mod]
  exact key n (Nat.le_refl n)

/-- Re-encoding a value gives the bits it was read from (30_encoding.md R54). -/
theorem uBits_bitsValue (buf : Memory) (p w : Nat) :
    uBits w (bitsValue buf p w) = bitsFrom buf p w := by
  induction w generalizing p with
  | zero => rfl
  | succ w ih =>
    rw [uBits, bitsFrom_succ, bitsValue_succ_front]
    rw [uBits_add_mul, ih]
    congr 1
    have hlt := bitsValue_lt buf (p + 1) w
    rw [Nat.testBit_eq_decide_div_mod_eq]
    cases bitAt buf p
    · simp [Nat.div_eq_of_lt hlt]
    · simp only [Bool.toNat_true, Nat.one_mul, decide_eq_true_eq]
      rw [Nat.add_div_left _ (Nat.two_pow_pos w), Nat.div_eq_of_lt hlt]

/-- The value of bits that are an encoding is the value encoded. -/
theorem bitsValue_of_uBits {buf : Memory} {p w v : Nat} (hv : v < 2 ^ w)
    (h : bitsFrom buf p w = uBits w v) : bitsValue buf p w = v := by
  have inj : ∀ n a b, a < 2 ^ n → b < 2 ^ n → uBits n a = uBits n b → a = b := by
    intro n
    induction n with
    | zero => intro a b ha hb _; omega
    | succ n ih =>
      intro a b ha hb hab
      rw [uBits, uBits, List.cons.injEq] at hab
      have split : ∀ x : Nat, uBits n x = uBits n (x % 2 ^ n) := fun x => by
        conv => lhs; rw [← Nat.div_add_mod' x (2 ^ n)]
        exact uBits_add_mul n _ _
      have hmod : a % 2 ^ n = b % 2 ^ n :=
        ih _ _ (Nat.mod_lt _ (Nat.two_pow_pos n)) (Nat.mod_lt _ (Nat.two_pow_pos n))
          (by rw [← split, ← split, hab.2])
      have hdiv : a / 2 ^ n = b / 2 ^ n := by
        have h1 := hab.1
        rw [Nat.testBit_eq_decide_div_mod_eq, Nat.testBit_eq_decide_div_mod_eq] at h1
        have ha' : a / 2 ^ n < 2 := Nat.div_lt_of_lt_mul (by rw [Nat.pow_succ] at ha; omega)
        have hb' : b / 2 ^ n < 2 := Nat.div_lt_of_lt_mul (by rw [Nat.pow_succ] at hb; omega)
        rw [Nat.mod_eq_of_lt ha', Nat.mod_eq_of_lt hb'] at h1
        have hiff := decide_eq_decide.mp h1
        generalize a / 2 ^ n = x at *
        generalize b / 2 ^ n = y at *
        omega
      rw [← Nat.div_add_mod' a (2 ^ n), ← Nat.div_add_mod' b (2 ^ n), hmod, hdiv]
  exact inj w _ _ (bitsValue_lt buf p w) hv (by rw [uBits_bitsValue, h])

/-! ### read_bit and read_u -/

theorem readBit_of_lt {buf : Memory} {c : Cursor} (h : c.pos < c.len) :
    readBit buf c = .ok (bitAt buf c.pos).toNat { c with pos := c.pos + 1 } := by
  rw [readBit, if_neg (by omega)]

theorem readBit_of_le {buf : Memory} {c : Cursor} (h : c.len ≤ c.pos) :
    readBit buf c = .raised .outOfRange c := by
  rw [readBit, if_pos h]

/-- Everything `read_bit` can do. -/
theorem readBit_cases (buf : Memory) (c : Cursor) :
    (c.pos < c.len ∧ readBit buf c = .ok (bitAt buf c.pos).toNat { c with pos := c.pos + 1 }) ∨
    (c.len ≤ c.pos ∧ readBit buf c = .raised .outOfRange c) := by
  rcases Nat.lt_or_ge c.pos c.len with h | h
  · exact .inl ⟨h, readBit_of_lt h⟩
  · exact .inr ⟨h, readBit_of_le h⟩

theorem readU_of_le {buf : Memory} {w : Nat} {c : Cursor} (h : c.pos + w ≤ c.len) :
    readU buf w c = .ok (bitsValue buf c.pos w) { c with pos := c.pos + w } := by
  rw [readU, if_neg (by omega)]

theorem readU_of_lt {buf : Memory} {w : Nat} {c : Cursor} (h : c.len < c.pos + w) :
    readU buf w c = .raised .outOfRange c := by
  rw [readU, if_pos h]

/-- Everything `read_u(w)` can do. -/
theorem readU_cases (buf : Memory) (w : Nat) (c : Cursor) :
    (c.pos + w ≤ c.len ∧
      readU buf w c = .ok (bitsValue buf c.pos w) { c with pos := c.pos + w }) ∨
    (c.len < c.pos + w ∧ readU buf w c = .raised .outOfRange c) := by
  rcases Nat.lt_or_ge c.len (c.pos + w) with h | h
  · exact .inr ⟨h, readU_of_lt h⟩
  · exact .inl ⟨h, readU_of_le h⟩

/-! ### read_ue -/

/-- How the zero-run loop ends, by the number n of zeros it reads first. -/
inductive RunEnd (buf : Memory) (left zeros : Nat) (c : Cursor) : Read → Prop where
  /-- n zeros, then a one. -/
  | one (n : Nat) (hn : n ≤ left) (hin : c.pos + n < c.len)
      (hz : bitsFrom buf c.pos (n + 1) = List.replicate n false ++ [true]) :
      RunEnd buf left zeros c (.ok (zeros + n) { c with pos := c.pos + n + 1 })
  /-- n zeros, then the end of the buffer. -/
  | end_ (n : Nat) (hn : n ≤ left) (hin : c.pos + n = max c.pos c.len)
      (hz : bitsFrom buf c.pos n = List.replicate n false) :
      RunEnd buf left zeros c (.raised .outOfRange { c with pos := c.pos + n })
  /-- one zero more than the cap accepts. -/
  | cap (hin : c.pos + left < c.len)
      (hz : bitsFrom buf c.pos (left + 1) = List.replicate (left + 1) false) :
      RunEnd buf left zeros c (.raised .malformedGolombCode { c with pos := c.pos + left + 1 })

/-- Everything the zero-run loop can do. -/
theorem zeroRun_cases (buf : Memory) (left zeros : Nat) (c : Cursor) :
    RunEnd buf left zeros c (zeroRun buf left zeros c) := by
  induction left generalizing zeros c with
  | zero =>
    unfold zeroRun
    rcases readBit_cases buf c with ⟨h, hr⟩ | ⟨h, hr⟩
    · rw [hr]
      cases hb : bitAt buf c.pos
      · exact RunEnd.cap (by omega) (by simp [bitsFrom, hb])
      · exact RunEnd.one 0 (Nat.le_refl 0) (by omega) (by simp [bitsFrom, hb])
    · rw [hr]
      exact RunEnd.end_ 0 (Nat.le_refl 0) (by omega) rfl
  | succ left ih =>
    unfold zeroRun
    rcases readBit_cases buf c with ⟨h, hr⟩ | ⟨h, hr⟩
    · rw [hr]
      cases hb : bitAt buf c.pos
      · simp only [Bool.toNat_false, Nat.zero_ne_one, if_false]
        have hih := ih (zeros + 1) { c with pos := c.pos + 1 }
        generalize zeroRun buf left (zeros + 1) { c with pos := c.pos + 1 } = r at hih
        cases hih with
        | one n hn hin hz =>
          have := RunEnd.one (buf := buf) (left := left + 1) (zeros := zeros) (c := c) (n + 1)
            (by omega) (by simp only at hin; omega)
            (by rw [bitsFrom_succ, hb, hz, List.replicate_succ, List.cons_append])
          convert this using 2
          · omega
          · simp only [Cursor.mk.injEq, and_true]; omega
        | end_ n hn hin hz =>
          have := RunEnd.end_ (buf := buf) (left := left + 1) (zeros := zeros) (c := c) (n + 1)
            (by omega) (by simp only at hin; omega)
            (by rw [bitsFrom_succ, hb, hz, List.replicate_succ])
          convert this using 2
          simp only [Cursor.mk.injEq, and_true]; omega
        | cap hin hz =>
          have := RunEnd.cap (buf := buf) (left := left + 1) (zeros := zeros) (c := c)
            (by simp only at hin; omega)
            (by rw [bitsFrom_succ, hb, hz, ← List.replicate_succ])
          convert this using 2
          simp only [Cursor.mk.injEq, and_true]; omega
      · exact RunEnd.one 0 (Nat.zero_le _) (by omega) (by simp [bitsFrom, hb])
    · rw [hr]
      exact RunEnd.end_ 0 (Nat.zero_le _) (by omega) rfl

/-- How `read_ue` ends. -/
inductive UeEnd (cap : Nat) (buf : Memory) (c : Cursor) : Read → Prop where
  /-- A whole codeword of z zeros. -/
  | ok (z : Nat) (hz : z ≤ cap) (hin : c.pos + (2 * z + 1) ≤ c.len)
      (hb : bitsFrom buf c.pos (z + 1) = List.replicate z false ++ [true]) :
      UeEnd cap buf c
        (.ok (2 ^ z - 1 + bitsValue buf (c.pos + z + 1) z) { c with pos := c.pos + (2 * z + 1) })
  /-- The buffer ends inside the zero run or at the one. -/
  | run (z : Nat) (hz : z ≤ cap) (hin : c.pos + z = max c.pos c.len)
      (hb : bitsFrom buf c.pos z = List.replicate z false) :
      UeEnd cap buf c (.raised .outOfRange { c with pos := c.pos + z })
  /-- The buffer ends inside the suffix. -/
  | suffix (z : Nat) (hz : z ≤ cap) (hone : c.pos + z < c.len) (hin : c.len < c.pos + (2 * z + 1))
      (hb : bitsFrom buf c.pos (z + 1) = List.replicate z false ++ [true]) :
      UeEnd cap buf c (.raised .outOfRange { c with pos := c.pos + z + 1 })
  /-- The zero run is longer than the cap. -/
  | cap (hin : c.pos + cap < c.len)
      (hb : bitsFrom buf c.pos (cap + 1) = List.replicate (cap + 1) false) :
      UeEnd cap buf c (.raised .malformedGolombCode { c with pos := c.pos + cap + 1 })

/-- Everything `read_ue` can do (40_bitcursor.md R66). -/
theorem readUe_cases (cap : Nat) (buf : Memory) (c : Cursor) :
    UeEnd cap buf c (readUe cap buf c) := by
  unfold readUe
  have h := zeroRun_cases buf cap 0 c
  generalize zeroRun buf cap 0 c = r at h
  cases h with
  | one n hn hin hz =>
    simp only [Nat.zero_add]
    rcases readU_cases buf n { c with pos := c.pos + n + 1 } with ⟨hle, hr⟩ | ⟨hlt, hr⟩
    · rw [hr]
      simp only at hle
      have := UeEnd.ok (cap := cap) (buf := buf) (c := c) n hn (by omega) hz
      convert this using 2
      simp only [Cursor.mk.injEq, and_true]; omega
    · rw [hr]
      simp only at hlt
      exact UeEnd.suffix n hn hin (by omega) hz
  | end_ n hn hin hz => exact UeEnd.run n hn hin hz
  | cap hin hz => exact UeEnd.cap hin hz

end Sys2Proof.Machine
end

