-- ==== Sys2Proof/Laws/State.lean ====
section
/-! SUPPORT. One lemma per field per named update of State, true by rfl. -/

namespace Sys2Proof.Machine

@[simp] theorem State.consume_params (s : State) (rest : List Symbol) : (s.consume rest).params = s.params := rfl
@[simp] theorem State.consume_mode (s : State) (rest : List Symbol) : (s.consume rest).mode = s.mode := rfl
@[simp] theorem State.consume_sc (s : State) (rest : List Symbol) : (s.consume rest).sc = s.sc := rfl
@[simp] theorem State.consume_pt (s : State) (rest : List Symbol) : (s.consume rest).pt = s.pt := rfl
@[simp] theorem State.consume_ps (s : State) (rest : List Symbol) : (s.consume rest).ps = s.ps := rfl
@[simp] theorem State.consume_zc (s : State) (rest : List Symbol) : (s.consume rest).zc = s.zc := rfl
@[simp] theorem State.consume_nOut (s : State) (rest : List Symbol) : (s.consume rest).nOut = s.nOut := rfl
@[simp] theorem State.consume_buf (s : State) (rest : List Symbol) : (s.consume rest).buf = s.buf := rfl
@[simp] theorem State.consume_fault (s : State) (rest : List Symbol) : (s.consume rest).fault = s.fault := rfl
@[simp] theorem State.consume_inPos (s : State) (rest : List Symbol) : (s.consume rest).inPos = s.inPos + 1 := rfl
@[simp] theorem State.consume_out (s : State) (rest : List Symbol) : (s.consume rest).out = s.out := rfl
@[simp] theorem State.consume_dec (s : State) (rest : List Symbol) : (s.consume rest).dec = s.dec := rfl
@[simp] theorem State.consume_input (s : State) (rest : List Symbol) : (s.consume rest).input = rest := rfl

@[simp] theorem State.offer_params (s : State) (syms : List Symbol) : (s.offer syms).params = s.params := rfl
@[simp] theorem State.offer_mode (s : State) (syms : List Symbol) : (s.offer syms).mode = s.mode := rfl
@[simp] theorem State.offer_sc (s : State) (syms : List Symbol) : (s.offer syms).sc = s.sc := rfl
@[simp] theorem State.offer_pt (s : State) (syms : List Symbol) : (s.offer syms).pt = s.pt := rfl
@[simp] theorem State.offer_ps (s : State) (syms : List Symbol) : (s.offer syms).ps = s.ps := rfl
@[simp] theorem State.offer_zc (s : State) (syms : List Symbol) : (s.offer syms).zc = s.zc := rfl
@[simp] theorem State.offer_nOut (s : State) (syms : List Symbol) : (s.offer syms).nOut = s.nOut := rfl
@[simp] theorem State.offer_buf (s : State) (syms : List Symbol) : (s.offer syms).buf = s.buf := rfl
@[simp] theorem State.offer_fault (s : State) (syms : List Symbol) : (s.offer syms).fault = s.fault := rfl
@[simp] theorem State.offer_inPos (s : State) (syms : List Symbol) : (s.offer syms).inPos = s.inPos := rfl
@[simp] theorem State.offer_out (s : State) (syms : List Symbol) : (s.offer syms).out = s.out := rfl
@[simp] theorem State.offer_dec (s : State) (syms : List Symbol) : (s.offer syms).dec = s.dec := rfl
@[simp] theorem State.offer_input (s : State) (syms : List Symbol) : (s.offer syms).input = s.input ++ syms := rfl

@[simp] theorem State.emit_params (s : State) (r : Record) : (s.emit r).params = s.params := rfl
@[simp] theorem State.emit_mode (s : State) (r : Record) : (s.emit r).mode = s.mode := rfl
@[simp] theorem State.emit_sc (s : State) (r : Record) : (s.emit r).sc = s.sc := rfl
@[simp] theorem State.emit_pt (s : State) (r : Record) : (s.emit r).pt = s.pt := rfl
@[simp] theorem State.emit_ps (s : State) (r : Record) : (s.emit r).ps = s.ps := rfl
@[simp] theorem State.emit_zc (s : State) (r : Record) : (s.emit r).zc = s.zc := rfl
@[simp] theorem State.emit_nOut (s : State) (r : Record) : (s.emit r).nOut = s.nOut := rfl
@[simp] theorem State.emit_buf (s : State) (r : Record) : (s.emit r).buf = s.buf := rfl
@[simp] theorem State.emit_fault (s : State) (r : Record) : (s.emit r).fault = s.fault := rfl
@[simp] theorem State.emit_inPos (s : State) (r : Record) : (s.emit r).inPos = s.inPos := rfl
@[simp] theorem State.emit_out (s : State) (r : Record) : (s.emit r).out = s.out ++ [r] := rfl
@[simp] theorem State.emit_dec (s : State) (r : Record) : (s.emit r).dec = s.dec := rfl
@[simp] theorem State.emit_input (s : State) (r : Record) : (s.emit r).input = s.input := rfl

@[simp] theorem State.endUnit_params (s : State) : (s.endUnit).params = s.params := rfl
@[simp] theorem State.endUnit_mode (s : State) : (s.endUnit).mode = .scan := rfl
@[simp] theorem State.endUnit_sc (s : State) : (s.endUnit).sc = s.sc := rfl
@[simp] theorem State.endUnit_pt (s : State) : (s.endUnit).pt = s.pt := rfl
@[simp] theorem State.endUnit_ps (s : State) : (s.endUnit).ps = s.ps := rfl
@[simp] theorem State.endUnit_zc (s : State) : (s.endUnit).zc = s.zc := rfl
@[simp] theorem State.endUnit_nOut (s : State) : (s.endUnit).nOut = s.nOut := rfl
@[simp] theorem State.endUnit_buf (s : State) : (s.endUnit).buf = s.buf := rfl
@[simp] theorem State.endUnit_fault (s : State) : (s.endUnit).fault = s.fault := rfl
@[simp] theorem State.endUnit_inPos (s : State) : (s.endUnit).inPos = s.inPos := rfl
@[simp] theorem State.endUnit_out (s : State) : (s.endUnit).out = s.out := rfl
@[simp] theorem State.endUnit_dec (s : State) : (s.endUnit).dec = s.dec := rfl
@[simp] theorem State.endUnit_input (s : State) : (s.endUnit).input = s.input := rfl

@[simp] theorem State.raiseFault_params (s : State) (f : ModelFault) : (s.raiseFault f).params = s.params := rfl
@[simp] theorem State.raiseFault_mode (s : State) (f : ModelFault) : (s.raiseFault f).mode = s.mode := rfl
@[simp] theorem State.raiseFault_sc (s : State) (f : ModelFault) : (s.raiseFault f).sc = s.sc := rfl
@[simp] theorem State.raiseFault_pt (s : State) (f : ModelFault) : (s.raiseFault f).pt = s.pt := rfl
@[simp] theorem State.raiseFault_ps (s : State) (f : ModelFault) : (s.raiseFault f).ps = s.ps := rfl
@[simp] theorem State.raiseFault_zc (s : State) (f : ModelFault) : (s.raiseFault f).zc = s.zc := rfl
@[simp] theorem State.raiseFault_nOut (s : State) (f : ModelFault) : (s.raiseFault f).nOut = s.nOut := rfl
@[simp] theorem State.raiseFault_buf (s : State) (f : ModelFault) : (s.raiseFault f).buf = s.buf := rfl
@[simp] theorem State.raiseFault_fault (s : State) (f : ModelFault) : (s.raiseFault f).fault = some f := rfl
@[simp] theorem State.raiseFault_inPos (s : State) (f : ModelFault) : (s.raiseFault f).inPos = s.inPos := rfl
@[simp] theorem State.raiseFault_out (s : State) (f : ModelFault) : (s.raiseFault f).out = s.out := rfl
@[simp] theorem State.raiseFault_dec (s : State) (f : ModelFault) : (s.raiseFault f).dec = s.dec := rfl
@[simp] theorem State.raiseFault_input (s : State) (f : ModelFault) : (s.raiseFault f).input = s.input := rfl

@[simp] theorem State.setDec_params (s : State) (d : DecodeRegs) : (s.setDec d).params = s.params := rfl
@[simp] theorem State.setDec_mode (s : State) (d : DecodeRegs) : (s.setDec d).mode = s.mode := rfl
@[simp] theorem State.setDec_sc (s : State) (d : DecodeRegs) : (s.setDec d).sc = s.sc := rfl
@[simp] theorem State.setDec_pt (s : State) (d : DecodeRegs) : (s.setDec d).pt = s.pt := rfl
@[simp] theorem State.setDec_ps (s : State) (d : DecodeRegs) : (s.setDec d).ps = s.ps := rfl
@[simp] theorem State.setDec_zc (s : State) (d : DecodeRegs) : (s.setDec d).zc = s.zc := rfl
@[simp] theorem State.setDec_nOut (s : State) (d : DecodeRegs) : (s.setDec d).nOut = s.nOut := rfl
@[simp] theorem State.setDec_buf (s : State) (d : DecodeRegs) : (s.setDec d).buf = s.buf := rfl
@[simp] theorem State.setDec_fault (s : State) (d : DecodeRegs) : (s.setDec d).fault = s.fault := rfl
@[simp] theorem State.setDec_inPos (s : State) (d : DecodeRegs) : (s.setDec d).inPos = s.inPos := rfl
@[simp] theorem State.setDec_out (s : State) (d : DecodeRegs) : (s.setDec d).out = s.out := rfl
@[simp] theorem State.setDec_dec (s : State) (d : DecodeRegs) : (s.setDec d).dec = d := rfl
@[simp] theorem State.setDec_input (s : State) (d : DecodeRegs) : (s.setDec d).input = s.input := rfl

@[simp] theorem State.takeError_params (s : State) (e : ErrKind) : (s.takeError e).params = s.params := rfl
@[simp] theorem State.takeError_mode (s : State) (e : ErrKind) : (s.takeError e).mode = .scan := rfl
@[simp] theorem State.takeError_sc (s : State) (e : ErrKind) : (s.takeError e).sc = s.sc := rfl
@[simp] theorem State.takeError_pt (s : State) (e : ErrKind) : (s.takeError e).pt = s.pt := rfl
@[simp] theorem State.takeError_ps (s : State) (e : ErrKind) : (s.takeError e).ps = s.ps := rfl
@[simp] theorem State.takeError_zc (s : State) (e : ErrKind) : (s.takeError e).zc = s.zc := rfl
@[simp] theorem State.takeError_nOut (s : State) (e : ErrKind) : (s.takeError e).nOut = s.nOut := rfl
@[simp] theorem State.takeError_buf (s : State) (e : ErrKind) : (s.takeError e).buf = s.buf := rfl
@[simp] theorem State.takeError_fault (s : State) (e : ErrKind) : (s.takeError e).fault = s.fault := rfl
@[simp] theorem State.takeError_inPos (s : State) (e : ErrKind) : (s.takeError e).inPos = s.inPos := rfl
@[simp] theorem State.takeError_out (s : State) (e : ErrKind) : (s.takeError e).out = s.out ++ [malformedRecord e s.ps s.dec.fpa] := rfl
@[simp] theorem State.takeError_dec (s : State) (e : ErrKind) : (s.takeError e).dec = .idle := rfl
@[simp] theorem State.takeError_input (s : State) (e : ErrKind) : (s.takeError e).input = s.input := rfl

@[simp] theorem scanByte_params (b : Byte) (s : State) : (scanByte b s).params = s.params := rfl
@[simp] theorem scanByte_mode (b : Byte) (s : State) : (scanByte b s).mode = s.mode := rfl
@[simp] theorem scanByte_sc (b : Byte) (s : State) : (scanByte b s).sc = scNext s.sc b := rfl
@[simp] theorem scanByte_pt (b : Byte) (s : State) : (scanByte b s).pt = s.pt := rfl
@[simp] theorem scanByte_ps (b : Byte) (s : State) : (scanByte b s).ps = s.ps := rfl
@[simp] theorem scanByte_zc (b : Byte) (s : State) : (scanByte b s).zc = s.zc := rfl
@[simp] theorem scanByte_nOut (b : Byte) (s : State) : (scanByte b s).nOut = s.nOut := rfl
@[simp] theorem scanByte_buf (b : Byte) (s : State) : (scanByte b s).buf = s.buf := rfl
@[simp] theorem scanByte_fault (b : Byte) (s : State) : (scanByte b s).fault = s.fault := rfl
@[simp] theorem scanByte_inPos (b : Byte) (s : State) : (scanByte b s).inPos = s.inPos := rfl
@[simp] theorem scanByte_out (b : Byte) (s : State) : (scanByte b s).out = s.out := rfl
@[simp] theorem scanByte_dec (b : Byte) (s : State) : (scanByte b s).dec = s.dec := rfl
@[simp] theorem scanByte_input (b : Byte) (s : State) : (scanByte b s).input = s.input := rfl

@[simp] theorem beginUnit_params (s : State) : (beginUnit s).params = s.params := rfl
@[simp] theorem beginUnit_mode (s : State) : (beginUnit s).mode = .type := rfl
@[simp] theorem beginUnit_sc (s : State) : (beginUnit s).sc = 0 := rfl
@[simp] theorem beginUnit_pt (s : State) : (beginUnit s).pt = 0 := rfl
@[simp] theorem beginUnit_ps (s : State) : (beginUnit s).ps = 0 := rfl
@[simp] theorem beginUnit_zc (s : State) : (beginUnit s).zc = s.zc := rfl
@[simp] theorem beginUnit_nOut (s : State) : (beginUnit s).nOut = s.nOut := rfl
@[simp] theorem beginUnit_buf (s : State) : (beginUnit s).buf = s.buf := rfl
@[simp] theorem beginUnit_fault (s : State) : (beginUnit s).fault = s.fault := rfl
@[simp] theorem beginUnit_inPos (s : State) : (beginUnit s).inPos = s.inPos := rfl
@[simp] theorem beginUnit_out (s : State) : (beginUnit s).out = s.out := rfl
@[simp] theorem beginUnit_dec (s : State) : (beginUnit s).dec = s.dec := rfl
@[simp] theorem beginUnit_input (s : State) : (beginUnit s).input = s.input := rfl

@[simp] theorem storeByte_params (b : Byte) (s : State) : (storeByte b s).params = s.params := rfl
@[simp] theorem storeByte_mode (b : Byte) (s : State) : (storeByte b s).mode = s.mode := rfl
@[simp] theorem storeByte_sc (b : Byte) (s : State) : (storeByte b s).sc = s.sc := rfl
@[simp] theorem storeByte_pt (b : Byte) (s : State) : (storeByte b s).pt = s.pt := rfl
@[simp] theorem storeByte_ps (b : Byte) (s : State) : (storeByte b s).ps = s.ps := rfl
@[simp] theorem storeByte_zc (b : Byte) (s : State) : (storeByte b s).zc = zcNext s.zc b := rfl
@[simp] theorem storeByte_nOut (b : Byte) (s : State) : (storeByte b s).nOut = s.nOut + 1 := rfl
@[simp] theorem storeByte_buf (b : Byte) (s : State) : (storeByte b s).buf = Memory.write s.buf s.nOut b := rfl
@[simp] theorem storeByte_fault (b : Byte) (s : State) : (storeByte b s).fault = s.fault := rfl
@[simp] theorem storeByte_inPos (b : Byte) (s : State) : (storeByte b s).inPos = s.inPos := rfl
@[simp] theorem storeByte_out (b : Byte) (s : State) : (storeByte b s).out = s.out := rfl
@[simp] theorem storeByte_dec (b : Byte) (s : State) : (storeByte b s).dec = s.dec := rfl
@[simp] theorem storeByte_input (b : Byte) (s : State) : (storeByte b s).input = s.input := rfl

@[simp] theorem finish_params (s : State) : (finish s).params = s.params := rfl
@[simp] theorem finish_mode (s : State) : (finish s).mode = .scan := rfl
@[simp] theorem finish_sc (s : State) : (finish s).sc = s.sc := rfl
@[simp] theorem finish_pt (s : State) : (finish s).pt = s.pt := rfl
@[simp] theorem finish_ps (s : State) : (finish s).ps = s.ps := rfl
@[simp] theorem finish_zc (s : State) : (finish s).zc = s.zc := rfl
@[simp] theorem finish_nOut (s : State) : (finish s).nOut = s.nOut := rfl
@[simp] theorem finish_buf (s : State) : (finish s).buf = s.buf := rfl
@[simp] theorem finish_fault (s : State) : (finish s).fault = s.fault := rfl
@[simp] theorem finish_inPos (s : State) : (finish s).inPos = s.inPos := rfl
@[simp] theorem finish_out (s : State) : (finish s).out = s.out ++ [payloadRecord s] := rfl
@[simp] theorem finish_dec (s : State) : (finish s).dec = s.dec := rfl
@[simp] theorem finish_input (s : State) : (finish s).input = s.input := rfl

end Sys2Proof.Machine
end

