-- ==== Sys2Proof/Laws/FramePacking.lean ====
section
/-! SUPPORT. What a field read and the decode can do (spec/43_frame_packing.md R87 to R109), each
said once: the provers cite these and never unfold a field. -/

namespace Sys2Proof.Machine

@[simp] theorem andThen_ok (d : DecodeRegs) (k : DecodeRegs → FieldRead) :
    (FieldRead.ok d).andThen k = k d := rfl

@[simp] theorem andThen_raised (e : ErrKind) (d : DecodeRegs) (k : DecodeRegs → FieldRead) :
    (FieldRead.raised e d).andThen k = .raised e d := rfl

/-- A chain completes exactly when both parts do. -/
theorem andThen_eq_ok {r : FieldRead} {k : DecodeRegs → FieldRead} {d' : DecodeRegs} :
    r.andThen k = .ok d' ↔ ∃ d, r = .ok d ∧ k d = .ok d' := by
  cases r <;> simp

/-- A chain raises in its first part, or in its second after the first completed. -/
theorem andThen_eq_raised {r : FieldRead} {k : DecodeRegs → FieldRead} {e : ErrKind}
    {d' : DecodeRegs} :
    r.andThen k = .raised e d' ↔ r = .raised e d' ∨ ∃ d, r = .ok d ∧ k d = .raised e d' := by
  cases r <;> simp

@[simp] theorem readField_ok (v : Nat) (c : Cursor) (set : Nat → FieldFile → FieldFile)
    (d : DecodeRegs) : readField (.ok v c) set d = .ok { d with cur := c, fpa := set v d.fpa } := rfl

@[simp] theorem readField_raised (e : ErrKind) (c : Cursor) (set : Nat → FieldFile → FieldFile)
    (d : DecodeRegs) : readField (.raised e c) set d = .raised e { d with cur := c } := rfl

/-- Everything a fixed-width field read can do. -/
theorem readField_readU_cases (buf : Memory) (w : Nat) (set : Nat → FieldFile → FieldFile)
    (d : DecodeRegs) :
    (d.cur.pos + w ≤ d.cur.len ∧
      readField (readU buf w d.cur) set d =
        .ok { d with cur := { d.cur with pos := d.cur.pos + w },
                     fpa := set (bitsValue buf d.cur.pos w) d.fpa }) ∨
    (d.cur.len < d.cur.pos + w ∧
      readField (readU buf w d.cur) set d = .raised .outOfRange d) := by
  rcases readU_cases buf w d.cur with ⟨h, e⟩ | ⟨h, e⟩
  · exact .inl ⟨h, by rw [e, readField_ok]⟩
  · exact .inr ⟨h, by rw [e, readField_raised]⟩

theorem readField_readU_of_le {buf : Memory} {w : Nat} (set : Nat → FieldFile → FieldFile)
    {d : DecodeRegs} (h : d.cur.pos + w ≤ d.cur.len) :
    readField (readU buf w d.cur) set d =
      .ok { d with cur := { d.cur with pos := d.cur.pos + w },
                   fpa := set (bitsValue buf d.cur.pos w) d.fpa } := by
  rw [readU_of_le h, readField_ok]

theorem readField_readU_of_lt {buf : Memory} {w : Nat} (set : Nat → FieldFile → FieldFile)
    {d : DecodeRegs} (h : d.cur.len < d.cur.pos + w) :
    readField (readU buf w d.cur) set d = .raised .outOfRange d := by
  rw [readU_of_lt h, readField_raised]

/-- A field read that raises writes no slot (43_frame_packing.md R109). -/
theorem readField_raised_fpa {r : Read} {set : Nat → FieldFile → FieldFile} {d d' : DecodeRegs}
    {e : ErrKind} (h : readField r set d = .raised e d') :
    d'.fpa = d.fpa ∧ d'.trailer = d.trailer ∧ d'.ret = d.ret := by
  cases r with
  | ok v c => cases h
  | raised e c => cases h; exact ⟨rfl, rfl, rfl⟩

/-- A field read that completes writes its slot with some value and no other slot. Take the field
file apart into its slots before composing several of these: an update of an update, not reduced,
doubles with every slot. -/
theorem readField_ok_fpa {r : Read} {set : Nat → FieldFile → FieldFile} {d d' : DecodeRegs}
    {F : FieldFile} (h : readField r set d = .ok d') (hF : d.fpa = F) : ∃ v, d'.fpa = set v F := by
  cases r <;> cases h
  exact ⟨_, by rw [hF]⟩

/-- The cursor stands after `pre` in a bit buffer of length `len` that holds `pre ++ rest`. -/
structure BitsAt (buf : Memory) (d : DecodeRegs) (len : Nat) (pre rest : List Bool) : Prop where
  len_eq : d.cur.len = len
  bits : bitsFrom buf 0 len = pre ++ rest
  pos : d.cur.pos = pre.length

theorem BitsAt.total {buf : Memory} {d : DecodeRegs} {len : Nat} {pre rest : List Bool}
    (h : BitsAt buf d len pre rest) : len = pre.length + rest.length := by
  simpa using congrArg List.length h.bits

theorem BitsAt.rest_eq {buf : Memory} {d : DecodeRegs} {len : Nat} {pre rest : List Bool}
    (h : BitsAt buf d len pre rest) : bitsFrom buf d.cur.pos rest.length = rest := by
  have h1 := h.bits
  rw [h.total, bitsFrom_add] at h1
  rw [h.pos]
  simpa using (List.append_inj h1 (by simp)).2

/-- What remains splits where a read of `a` bits ends. -/
theorem BitsAt.split {buf : Memory} {d : DecodeRegs} {len : Nat} {pre rest : List Bool}
    (h : BitsAt buf d len pre rest) {a b : Nat} (e : rest.length = a + b) :
    rest = bitsFrom buf d.cur.pos a ++ bitsFrom buf (d.cur.pos + a) b := by
  rw [← bitsFrom_add, ← e, h.rest_eq]

/-- The decode starts before all the bits. -/
theorem BitsAt.start (buf : Memory) (ps : Nat) :
    BitsAt buf (.start ps) (8 * ps) [] (bitsFrom buf 0 (8 * ps)) :=
  ⟨rfl, by simp, rfl⟩

/-- A fixed-width field that completes took the encoding of its value off the bits that remain. -/
theorem BitsAt.of_readU {buf : Memory} {d d' : DecodeRegs} {len w : Nat} {pre rest : List Bool}
    {set : Nat → FieldFile → FieldFile} (h : BitsAt buf d len pre rest)
    (hr : readField (readU buf w d.cur) set d = .ok d') :
    ∃ v rest', v < 2 ^ w ∧ rest = uBits w v ++ rest' ∧ d'.fpa = set v d.fpa ∧
      BitsAt buf d' len (pre ++ uBits w v) rest' := by
  rcases readField_readU_cases buf w set d with ⟨hle, e⟩ | ⟨_, e⟩
  · rw [e] at hr
    cases hr
    have ht := h.total
    have hp := h.pos
    rw [h.len_eq] at hle
    have hs := h.split (a := w) (b := rest.length - w) (by omega)
    refine ⟨bitsValue buf d.cur.pos w, bitsFrom buf (d.cur.pos + w) (rest.length - w),
      bitsValue_lt _ _ _, ?_, rfl, ⟨h.len_eq, ?_, ?_⟩⟩
    · rw [uBits_bitsValue]; exact hs
    · rw [uBits_bitsValue, h.bits, List.append_assoc, ← hs]
    · simp [hp]
  · rw [e] at hr; cases hr

/-- Where the bits that remain begin with the encoding of a value, a fixed-width field reads it. -/
theorem BitsAt.readU {buf : Memory} {d : DecodeRegs} {len w v : Nat} {pre rest : List Bool}
    (set : Nat → FieldFile → FieldFile) (h : BitsAt buf d len pre (uBits w v ++ rest))
    (hv : v < 2 ^ w) :
    ∃ d', readField (Machine.readU buf w d.cur) set d = .ok d' ∧ d'.fpa = set v d.fpa ∧
      BitsAt buf d' len (pre ++ uBits w v) rest := by
  have ht := h.total
  have hs := h.split (a := w) (b := rest.length) (by simp)
  have hval := bitsValue_of_uBits hv (List.append_inj hs (by simp)).1.symm
  simp only [List.length_append, uBits_length] at ht
  refine ⟨_, readField_readU_of_le _ (by rw [h.len_eq, h.pos]; omega), by rw [hval],
    ⟨h.len_eq, ?_, ?_⟩⟩
  · rw [h.bits, List.append_assoc]
  · simp [h.pos]

@[simp] theorem runField_ok (d : DecodeRegs) (s : State) :
    runField (.ok d) s = .next (s.setDec d) := rfl

@[simp] theorem runField_raised (e : ErrKind) (d : DecodeRegs) (s : State) :
    runField (.raised e d) s = .next ((s.setDec d).takeError e) := rfl

@[simp] theorem runRead_ok (v : Nat) (c : Cursor) (s : State) :
    runRead (.ok v c) s = .next (s.setDec { s.dec with cur := c, ret := v }) := rfl

@[simp] theorem runRead_raised (e : ErrKind) (c : Cursor) (s : State) :
    runRead (.raised e c) s = .next (s.takeError e) := rfl

/-- The record of a decode, from how its fields end. -/
theorem decodeRecord_of_ok {p : Params} {buf : Memory} {ps : Nat} {d : DecodeRegs}
    (h : decodeFields p buf (.start ps) = .ok d) :
    decodeRecord p buf ps = okRecord ps d.fpa (bitsFrom buf d.cur.pos (d.cur.len - d.cur.pos)) := by
  rw [decodeRecord, h]
  rfl

theorem decodeRecord_of_raised {p : Params} {buf : Memory} {ps : Nat} {e : ErrKind} {d : DecodeRegs}
    (h : decodeFields p buf (.start ps) = .raised e d) :
    decodeRecord p buf ps = malformedRecord e ps d.fpa := by
  rw [decodeRecord, h]

/-- Everything a decode can answer (43_frame_packing.md R87, R109). -/
theorem decodeRecord_cases (p : Params) (buf : Memory) (ps : Nat) :
    (∃ d, decodeFields p buf (.start ps) = .ok d ∧
      decodeRecord p buf ps =
        okRecord ps d.fpa (bitsFrom buf d.cur.pos (d.cur.len - d.cur.pos))) ∨
    (∃ e d, decodeFields p buf (.start ps) = .raised e d ∧
      decodeRecord p buf ps = malformedRecord e ps d.fpa) := by
  cases h : decodeFields p buf (.start ps) with
  | ok d => exact .inl ⟨d, rfl, decodeRecord_of_ok h⟩
  | raised e d => exact .inr ⟨e, d, rfl, decodeRecord_of_raised h⟩

end Sys2Proof.Machine
end

