-- ==== Sys2Proof/Laws/Step.lean ====
section
/-! SUPPORT. What one step can do, said once (spec/10_state.md R26, spec/30_encoding.md R58): claims
about steps are proved by cases on `StepEnd` and never by unfolding `step`. -/

namespace Sys2Proof.Machine

/-! ### Symbols and words -/

@[simp] theorem isEnd_byte (b : Byte) : SymWord.isEnd (Symbol.byte b).word = false := by
  simp [SymWord.isEnd, Symbol.word]

@[simp] theorem isEnd_eos : SymWord.isEnd Symbol.eos.word = true := by decide

@[simp] theorem data_byte (b : Byte) : SymWord.data (Symbol.byte b).word = b := by
  simp [SymWord.data, Symbol.word]

/-- A symbol is read back from its word (30_encoding.md R48). -/
@[simp] theorem ofWord_word (sym : Symbol) : Symbol.ofWord sym.word = sym := by
  cases sym with
  | byte b => simp [Symbol.ofWord]
  | eos => decide

/-- Two symbols with one word are one symbol. -/
theorem word_injective {a b : Symbol} (h : a.word = b.word) : a = b := by
  rw [← ofWord_word a, h, ofWord_word]

/-! ### The selected operation, by mode -/

theorem select_scan_byte {c : Ctx} (h : c.mode = .scan) (b : Byte) :
    selectSymbol c (Symbol.byte b).word = selectScan c b := by
  simp [selectSymbol, h]

theorem select_scan_eos {c : Ctx} (h : c.mode = .scan) :
    selectSymbol c Symbol.eos.word = .endScan := by
  simp [selectSymbol, h]

theorem select_type_byte {c : Ctx} (h : c.mode = .type) (b : Byte) :
    selectSymbol c (Symbol.byte b).word = if b = ffCont then .typeCont else .typeLast b := by
  simp [selectSymbol, h]

theorem select_size_byte {c : Ctx} (h : c.mode = .size) (b : Byte) :
    selectSymbol c (Symbol.byte b).word = if b = ffCont then .sizeCont else .sizeLast b := by
  simp [selectSymbol, h]

theorem select_copy_byte {c : Ctx} (h : c.mode = .copy) (b : Byte) :
    selectSymbol c (Symbol.byte b).word =
      if c.zc = 2 ∧ b = epb then .copyEpb else .copyData b := by
  simp [selectSymbol, h]

theorem select_unit_eos {c : Ctx} (h : inUnit c.mode) :
    selectSymbol c Symbol.eos.word = .endTrunc := by
  rcases h with h | h | h <;> simp [selectSymbol, h]

theorem select_done {c : Ctx} (h : c.mode = .done) (sym : Symbol) :
    selectSymbol c sym.word = .doneAny sym := by
  simp [selectSymbol, h]

@[simp] theorem ctx_mode (s : State) : s.ctx.mode = s.mode := rfl
@[simp] theorem ctx_sc (s : State) : s.ctx.sc = s.sc := rfl
@[simp] theorem ctx_zc (s : State) : s.ctx.zc = s.zc := rfl
@[simp] theorem ctx_hdrMatch (s : State) : s.ctx.hdrMatch = s.params.hdrMatch := rfl
@[simp] theorem ctx_fpa (s : State) : s.ctx.fpa = s.dec.fpa := rfl

/-! ### One step -/

/-- The state after a byte of `payload_type` (42_payload_extractor.md R77). -/
def typeByte (b : Byte) (s : State) : State :=
  if b = ffCont then addType ffCont id s else addType b (fun t => { t with mode := .size }) s

/-- The state after a byte of `payload_size` (42_payload_extractor.md R78). -/
def sizeByte (b : Byte) (s : State) : State :=
  if b = ffCont then addSize ffCont id s else addSize b startPayload s

/-- The state after a stored byte (42_payload_extractor.md R80). -/
def copyByte (b : Byte) (s : State) : State :=
  if (storeByte b s).nOut = (storeByte b s).ps then finish (storeByte b s) else storeByte b s

/-- How a step from s with a symbol ends, by mode; u is s with the symbol consumed. -/
inductive StepEnd (s u : State) : Symbol → State → Prop where
  | scan (b : Byte) (hm : s.mode = .scan) (hsc : s.sc ≠ 3) : StepEnd s u (.byte b) (scanByte b u)
  | hdrSei (b : Byte) (hm : s.mode = .scan) (hsc : s.sc = 3)
      (hh : hdrIsSei s.params.hdrMatch b = true) : StepEnd s u (.byte b) (beginUnit u)
  | hdrOther (b : Byte) (hm : s.mode = .scan) (hsc : s.sc = 3)
      (hh : hdrIsSei s.params.hdrMatch b = false) :
      StepEnd s u (.byte b) { u with sc := if b = 0x00 then 1 else 0 }
  | endScan (hm : s.mode = .scan) : StepEnd s u .eos { u with mode := .done }
  | type (b : Byte) (hm : s.mode = .type) : StepEnd s u (.byte b) (typeByte b u)
  | size (b : Byte) (hm : s.mode = .size) : StepEnd s u (.byte b) (sizeByte b u)
  | epb (hm : s.mode = .copy) (hz : s.zc = 2) : StepEnd s u (.byte 0x03) { u with zc := 0 }
  | copy (b : Byte) (hm : s.mode = .copy) (hz : ¬ (s.zc = 2 ∧ b = 0x03)) :
      StepEnd s u (.byte b) (copyByte b u)
  | trunc (hm : inUnit s.mode) :
      StepEnd s u .eos { u.emit (truncatedRecord u.mode u.pt u.ps) with mode := .done }
  | done (sym : Symbol) (hm : s.mode = .done) : StepEnd s u sym (u.raiseFault .inputAfterEnd)

theorem step_faulted {s : State} {f : ModelFault} (h : s.fault = some f) :
    step s = .fault f.stuck := by
  simp [step, h]

theorem step_waiting {s : State} (hf : s.fault = none) (hi : s.input = []) :
    step s = .refused .awaitingSymbol := by
  simp [step, hf, hi]

theorem step_symbol {s : State} {sym : Symbol} {rest : List Symbol} (hf : s.fault = none)
    (hi : s.input = sym :: rest) :
    step s = exec (selectSymbol s.ctx sym.word) (s.consume rest) := by
  simp [step, hf, hi]

/-- Every step with a symbol goes on, and ends as `StepEnd` says. -/
theorem step_ends {s : State} {sym : Symbol} {rest : List Symbol} (hf : s.fault = none)
    (hi : s.input = sym :: rest) :
    ∃ t, step s = .next t ∧ StepEnd s (s.consume rest) sym t := by
  rw [step_symbol hf hi]
  cases hm : s.mode with
  | scan =>
    cases sym with
    | byte b =>
      rw [select_scan_byte (by simpa using hm), selectScan]
      by_cases hsc : s.sc = 3
      · rw [if_pos (by simpa using hsc)]
        cases hh : hdrIsSei s.params.hdrMatch b
        · exact ⟨_, by simp [hh, exec, execScanHdrOther], .hdrOther b hm hsc hh⟩
        · refine ⟨beginUnit (s.consume rest), ?_, .hdrSei b hm hsc hh⟩
          simp only [ctx_hdrMatch, hh, if_true]
          cases s.params.hdrMatch <;> rfl
      · refine ⟨scanByte b (s.consume rest), ?_, .scan b hm hsc⟩
        rw [if_neg (by simpa using hsc)]
        by_cases h0 : b = 0x00
        · subst h0; rfl
        · rw [if_neg h0]
          by_cases h1 : b = 0x01
          · subst h1; rfl
          · rw [if_neg h1]; rfl
    | eos =>
      rw [select_scan_eos (by simpa using hm)]
      exact ⟨_, rfl, .endScan hm⟩
  | type =>
    cases sym with
    | byte b =>
      rw [select_type_byte (by simpa using hm)]
      refine ⟨typeByte b (s.consume rest), ?_, .type b hm⟩
      unfold typeByte
      split <;> rfl
    | eos =>
      rw [select_unit_eos (.inl (by simpa using hm))]
      exact ⟨_, rfl, .trunc (.inl hm)⟩
  | size =>
    cases sym with
    | byte b =>
      rw [select_size_byte (by simpa using hm)]
      refine ⟨sizeByte b (s.consume rest), ?_, .size b hm⟩
      unfold sizeByte
      split <;> rfl
    | eos =>
      rw [select_unit_eos (.inr (.inl (by simpa using hm)))]
      exact ⟨_, rfl, .trunc (.inr (.inl hm))⟩
  | copy =>
    cases sym with
    | byte b =>
      rw [select_copy_byte (by simpa using hm)]
      by_cases hz : s.zc = 2 ∧ b = epb
      · obtain ⟨hz, rfl⟩ := hz
        refine ⟨_, ?_, .epb hm hz⟩
        rw [if_pos ⟨by simpa using hz, rfl⟩]
        rfl
      · refine ⟨_, ?_, .copy b hm hz⟩
        rw [if_neg (by simpa using hz)]
        rfl
    | eos =>
      rw [select_unit_eos (.inr (.inr (by simpa using hm)))]
      exact ⟨_, rfl, .trunc (.inr (.inr hm))⟩
  | done =>
    rw [select_done (by simpa using hm)]
    exact ⟨_, rfl, .done sym hm⟩

/-- THE INVERSION: a step that goes on consumed a symbol, in an unfaulted state, and ended as
`StepEnd` says. -/
theorem step_next {s t : State} (h : step s = .next t) :
    ∃ sym rest, s.fault = none ∧ s.input = sym :: rest ∧ StepEnd s (s.consume rest) sym t := by
  cases hf : s.fault with
  | some f => rw [step_faulted hf] at h; cases h
  | none =>
    cases hi : s.input with
    | nil => rw [step_waiting hf hi] at h; cases h
    | cons sym rest =>
      obtain ⟨t', ht', he⟩ := step_ends hf hi
      rw [h] at ht'
      cases ht'
      exact ⟨sym, rest, rfl, rfl, he⟩

/-- The converse: what `StepEnd` says is the step. -/
theorem step_of_end {s t : State} {sym : Symbol} {rest : List Symbol} (hf : s.fault = none)
    (hi : s.input = sym :: rest) (h : StepEnd s (s.consume rest) sym t) : step s = .next t := by
  obtain ⟨t', ht, he⟩ := step_ends hf hi
  rw [ht]
  congr 1
  generalize s.consume rest = u at *
  cases h <;> cases he <;> first | rfl | (exfalso; simp_all [inUnit])

/-! ### The extractor's parts, by cases -/

/-- Everything `addType` can do. -/
theorem addType_cases (b : Byte) (k : State → State) (s : State) :
    (fitsAcc s.params (s.pt + b.toNat) = true ∧
      addType b k s = k { s with pt := s.pt + b.toNat }) ∨
    (fitsAcc s.params (s.pt + b.toNat) = false ∧
      addType b k s = s.raiseFault .capacityExceeded) := by
  unfold addType
  cases fitsAcc s.params (s.pt + b.toNat) <;> simp

/-- Everything `addSize` can do. -/
theorem addSize_cases (b : Byte) (k : State → State) (s : State) :
    (fitsAcc s.params (s.ps + b.toNat) = true ∧
      addSize b k s = k { s with ps := s.ps + b.toNat }) ∨
    (fitsAcc s.params (s.ps + b.toNat) = false ∧
      addSize b k s = s.raiseFault .capacityExceeded) := by
  unfold addSize
  cases fitsAcc s.params (s.ps + b.toNat) <;> simp

/-- Everything `startPayload` can do. -/
theorem startPayload_cases (s : State) :
    (fitsBuf s.params s.pt s.ps = false ∧ startPayload s = s.raiseFault .capacityExceeded) ∨
    (fitsBuf s.params s.pt s.ps = true ∧ s.ps = 0 ∧
      startPayload s = finish { s with nOut := 0, zc := 0, buf := [] }) ∨
    (fitsBuf s.params s.pt s.ps = true ∧ s.ps ≠ 0 ∧
      startPayload s = { s with nOut := 0, zc := 0, buf := [], mode := .copy }) := by
  unfold startPayload
  cases fitsBuf s.params s.pt s.ps
  · simp
  · by_cases h : s.ps = 0 <;> simp [h]

theorem fitsAcc_iff (p : Params) (v : Nat) :
    fitsAcc p v = true ↔ ∀ k, p.accBits = some k → v < 2 ^ k := by
  unfold fitsAcc
  cases p.accBits <;> simp

theorem not_fitsAcc_iff (p : Params) (v : Nat) :
    fitsAcc p v = false ↔ ∃ k, p.accBits = some k ∧ 2 ^ k ≤ v := by
  unfold fitsAcc
  cases p.accBits <;> simp

theorem not_fitsBuf_iff (p : Params) (pt ps : Nat) :
    fitsBuf p pt ps = false ↔ pt = 45 ∧ ∃ n, p.bufBytes = some n ∧ n < ps := by
  unfold fitsBuf
  cases p.bufBytes <;> simp [fpaPayloadType]

theorem fitsBuf_iff (p : Params) (pt ps : Nat) :
    fitsBuf p pt ps = true ↔ ¬ (pt = 45 ∧ ∃ n, p.bufBytes = some n ∧ n < ps) := by
  rw [← not_fitsBuf_iff, Bool.not_eq_false]

/-- Everything `typeByte` can do. -/
theorem typeByte_cases (b : Byte) (s : State) :
    (fitsAcc s.params (s.pt + b.toNat) = false ∧ typeByte b s = s.raiseFault .capacityExceeded) ∨
    (fitsAcc s.params (s.pt + b.toNat) = true ∧ b = 0xFF ∧
      typeByte b s = { s with pt := s.pt + b.toNat }) ∨
    (fitsAcc s.params (s.pt + b.toNat) = true ∧ b ≠ 0xFF ∧
      typeByte b s = { s with pt := s.pt + b.toNat, mode := .size }) := by
  unfold typeByte
  by_cases hb : b = ffCont
  · subst hb
    rw [if_pos rfl]
    rcases addType_cases ffCont id s with ⟨h, e⟩ | ⟨h, e⟩
    · exact .inr (.inl ⟨h, rfl, e⟩)
    · exact .inl ⟨h, e⟩
  · rw [if_neg hb]
    rcases addType_cases b (fun t => { t with mode := .size }) s with ⟨h, e⟩ | ⟨h, e⟩
    · exact .inr (.inr ⟨h, hb, e⟩)
    · exact .inl ⟨h, e⟩

/-- Everything `sizeByte` can do. -/
theorem sizeByte_cases (b : Byte) (s : State) :
    (fitsAcc s.params (s.ps + b.toNat) = false ∧ sizeByte b s = s.raiseFault .capacityExceeded) ∨
    (fitsAcc s.params (s.ps + b.toNat) = true ∧ b = 0xFF ∧
      sizeByte b s = { s with ps := s.ps + b.toNat }) ∨
    (fitsAcc s.params (s.ps + b.toNat) = true ∧ b ≠ 0xFF ∧
      sizeByte b s = startPayload { s with ps := s.ps + b.toNat }) := by
  unfold sizeByte
  by_cases hb : b = ffCont
  · subst hb
    rw [if_pos rfl]
    rcases addSize_cases ffCont id s with ⟨h, e⟩ | ⟨h, e⟩
    · exact .inr (.inl ⟨h, rfl, e⟩)
    · exact .inl ⟨h, e⟩
  · rw [if_neg hb]
    rcases addSize_cases b startPayload s with ⟨h, e⟩ | ⟨h, e⟩
    · exact .inr (.inr ⟨h, hb, e⟩)
    · exact .inl ⟨h, e⟩

/-- Everything `copyByte` can do. -/
theorem copyByte_cases (b : Byte) (s : State) :
    (s.nOut + 1 = s.ps ∧ copyByte b s = finish (storeByte b s)) ∨
    (s.nOut + 1 ≠ s.ps ∧ copyByte b s = storeByte b s) := by
  unfold copyByte
  by_cases h : s.nOut + 1 = s.ps
  · exact .inl ⟨h, by simp [h]⟩
  · exact .inr ⟨h, by simp [h]⟩

theorem copyByte_last {b : Byte} {s : State} (h : s.nOut + 1 = s.ps) :
    copyByte b s = finish (storeByte b s) := by
  rcases copyByte_cases b s with ⟨_, e⟩ | ⟨h', _⟩
  · exact e
  · exact absurd h h'

theorem copyByte_more {b : Byte} {s : State} (h : s.nOut + 1 ≠ s.ps) :
    copyByte b s = storeByte b s := by
  rcases copyByte_cases b s with ⟨h', _⟩ | ⟨_, e⟩
  · exact absurd h' h
  · exact e

/-! ### The input port

No operation reads the input port or its position (20_memory.md R32): with another port, an
operation does the same and leaves that port. -/

/-- The state with another input port. -/
def State.atPort (s : State) (n : Nat) (x : List Symbol) : State := { s with inPos := n, input := x }

theorem startPayload_atPort (s : State) (n : Nat) (x : List Symbol) :
    startPayload (s.atPort n x) = (startPayload s).atPort n x := by
  unfold startPayload State.atPort State.raiseFault
  dsimp only [id]
  split
  · split <;> rfl
  · rfl

theorem addType_atPort (b : Byte) (k : State → State) (s : State) (n : Nat) (x : List Symbol)
    (hk : ∀ s, k (State.atPort s n x) = (k s).atPort n x) :
    addType b k (s.atPort n x) = (addType b k s).atPort n x := by
  unfold addType
  by_cases h : fitsAcc s.params (s.pt + b.toNat) = true
  · rw [if_pos h, if_pos (show fitsAcc (s.atPort n x).params ((s.atPort n x).pt + b.toNat) = true from h),
      ← hk]
    rfl
  · rw [if_neg h, if_neg (show ¬ fitsAcc (s.atPort n x).params ((s.atPort n x).pt + b.toNat) = true from h)]
    rfl

theorem addSize_atPort (b : Byte) (k : State → State) (s : State) (n : Nat) (x : List Symbol)
    (hk : ∀ s, k (State.atPort s n x) = (k s).atPort n x) :
    addSize b k (s.atPort n x) = (addSize b k s).atPort n x := by
  unfold addSize
  by_cases h : fitsAcc s.params (s.ps + b.toNat) = true
  · rw [if_pos h, if_pos (show fitsAcc (s.atPort n x).params ((s.atPort n x).ps + b.toNat) = true from h),
      ← hk]
    rfl
  · rw [if_neg h, if_neg (show ¬ fitsAcc (s.atPort n x).params ((s.atPort n x).ps + b.toNat) = true from h)]
    rfl

theorem runField_atPort {r : FieldRead} {s t : State} (h : runField r s = .next t) (n : Nat)
    (x : List Symbol) : runField r (s.atPort n x) = .next (t.atPort n x) := by
  cases r <;> cases h <;> rfl

theorem runRead_atPort {r : Read} {s t : State} (h : runRead r s = .next t) (n : Nat)
    (x : List Symbol) : runRead r (s.atPort n x) = .next (t.atPort n x) := by
  cases r <;> cases h <;> rfl

theorem exec_atPort {i : Instr} {s t : State} (h : exec i s = .next t) (n : Nat) (x : List Symbol) :
    exec i (s.atPort n x) = .next (t.atPort n x) := by
  cases i
  case typeCont => cases h; exact congrArg _ (addType_atPort _ _ _ _ _ fun _ => rfl)
  case typeLast b => cases h; exact congrArg _ (addType_atPort _ _ _ _ _ fun _ => rfl)
  case sizeCont => cases h; exact congrArg _ (addSize_atPort _ _ _ _ _ fun _ => rfl)
  case sizeLast b =>
    cases h; exact congrArg _ (addSize_atPort _ _ _ _ _ fun _ => startPayload_atPort _ _ _)
  case copyData b =>
    cases h
    show Host.Outcome.next (if s.nOut + 1 = s.ps then _ else _) =
      .next ((if s.nOut + 1 = s.ps then _ else _ : State).atPort n x)
    split <;> rfl
  case readU w =>
    simp only [exec, execReadU] at h ⊢
    split at h
    · rename_i hw
      rw [if_pos hw]
      exact runRead_atPort h n x
    · cases h
  all_goals first
    | (cases h; rfl)
    | exact runField_atPort h n x
    | exact runRead_atPort h n x

/-! ### Runs -/

@[simp] theorem runSteps_zero (s : State) : runSteps 0 s = .next s := rfl

theorem runSteps_succ {s t : State} (h : step s = .next t) (k : Nat) :
    runSteps (k + 1) s = runSteps k t := by
  simp [runSteps, h]

/-- A run goes on from where a shorter run ends. -/
theorem runSteps_add {s t : State} {j : Nat} (h : runSteps j s = .next t) (k : Nat) :
    runSteps (j + k) s = runSteps k t := by
  induction j generalizing s with
  | zero =>
    cases h
    rw [Nat.zero_add]
  | succ j ih =>
    rw [Nat.add_right_comm]
    cases hs : step s with
    | next u =>
      rw [runSteps_succ hs] at h ⊢
      exact ih h
    | fault f => simp [runSteps, hs] at h
    | refused r => simp [runSteps, hs] at h

/-! ### Items of the grammar -/

/-- The item the grammar selects has a bit format (30_encoding.md R56). -/
theorem grammarNext_isItem (f : FieldFile) : itemFormat (grammarNext f) ≠ none := by
  unfold grammarNext
  iterate 18
    (refine iteInduction (motive := fun i => itemFormat i ≠ none)
      (fun _ => by simp [itemFormat]) fun _ => ?_)
  simp [itemFormat]

/-- A field operation that takes an error took the one its read raised: a completed read emits
nothing, and the cause in the record tells the two errors apart. -/
theorem raised_of_runField_takeError {r : Read} {set : Nat → FieldFile → FieldFile} {s : State}
    {d : DecodeRegs} {e : ErrKind}
    (h : runField (readField r set s.dec) s = .next ((s.setDec d).takeError e)) :
    ∃ c, r = .raised e c := by
  cases r with
  | ok v c =>
    have := congrArg (fun o => (nextOf o).map (·.out.length)) h
    simp [runField, nextOf, State.takeError, State.emit, State.endUnit, State.setDec] at this
  | raised e' c =>
    have := congrArg (fun o => (nextOf o).map (·.out.getLast?.map (·.cause))) h
    simp [runField, nextOf, State.takeError, State.emit, State.endUnit, State.setDec,
      malformedRecord] at this
    cases e <;> cases e' <;> simp [causeOf] at this ⊢

/-- When an item takes an error, its own read met that error: a `u(w)` field lacks bits, or
`read_ue` raised it; the trailer never does (60_exceptions.md R112, R113). -/
theorem item_takeError {i : Instr} {s : State} {d : DecodeRegs} {e : ErrKind}
    (hi : itemFormat i ≠ none) (h : exec i s = .next ((s.setDec d).takeError e)) :
    (∃ w, itemFormat i = some (.u w) ∧ s.dec.cur.len < s.dec.cur.pos + w ∧ e = .outOfRange) ∨
    (itemFormat i = some .ue ∧ ∃ c, readUe s.params.egMaxZeros s.buf s.dec.cur = .raised e c) := by
  have lacks {w : Nat} (hr : ∃ c, readU s.buf w s.dec.cur = .raised e c) :
      s.dec.cur.len < s.dec.cur.pos + w ∧ e = .outOfRange := by
    obtain ⟨c, hr⟩ := hr
    rcases readU_cases s.buf w s.dec.cur with ⟨_, k⟩ | ⟨hlt, k⟩ <;> rw [k] at hr <;> cases hr
    exact ⟨hlt, rfl⟩
  cases i
  case fpaId => exact .inr ⟨rfl, raised_of_runField_takeError h⟩
  case fpaRepetitionPeriod => exact .inr ⟨rfl, raised_of_runField_takeError h⟩
  case fpaTrailer =>
    have := congrArg (fun o => (nextOf o).map (·.out.length)) h
    simp [exec, execFpaTrailer, nextOf, State.takeError, State.emit, State.endUnit,
      State.setDec] at this
  all_goals first
    | exact absurd rfl hi
    | exact .inl ⟨_, rfl, lacks (raised_of_runField_takeError h)⟩

/-- A run of items goes on from where a shorter run ends. -/
theorem execItems_add {s t : State} {j : Nat} (h : execItems j s = .next t) (k : Nat) :
    execItems (j + k) s = execItems k t := by
  induction j generalizing s with
  | zero =>
    cases h
    rw [Nat.zero_add]
  | succ j ih =>
    rw [Nat.add_right_comm]
    cases hs : exec (grammarNext s.dec.fpa) s with
    | next u =>
      simp only [execItems, hs] at h ⊢
      exact ih h
    | fault f => simp [execItems, hs] at h
    | refused r => simp [execItems, hs] at h

end Sys2Proof.Machine
end

