-- ==== Sys2Proof/Laws/Decode.lean ====
section
/-! SUPPORT. The decoder's other direction: the operation a symbol selects is well formed, may be
selected where it is, and is encoded as that symbol's word (spec/30_encoding.md R48, R58). -/

namespace Sys2Proof.Machine

/-- What a symbol selects meets its own row, and its code is the symbol's word. -/
theorem selectSymbol_spec (c : Ctx) (sym : Symbol) :
    (selectSymbol c sym.word).selectable c = true ∧
    (selectSymbol c sym.word).wellFormed = true ∧ encode (selectSymbol c sym.word) = .word sym.word := by
  cases hm : c.mode with
  | done => rw [select_done hm]; simp [Instr.selectable, Instr.wellFormed, encode, hm]
  | scan =>
    cases sym with
    | eos => rw [select_scan_eos hm]; simp [Instr.selectable, Instr.wellFormed, encode, hm]; rfl
    | byte b =>
      rw [select_scan_byte hm, selectScan]
      split
      · rename_i hsc
        cases hh : hdrIsSei c.hdrMatch b
        · simp [Instr.selectable, Instr.wellFormed, encode, hm, hsc, hh]
          rintro rfl
          cases hl : c.hdrMatch <;> simp [hl, hdrIsSei] at hh
        · cases hl : c.hdrMatch <;> rw [hl] at hh
          · simp [hdrIsSei] at hh
            subst hh
            simp [Instr.selectable, Instr.wellFormed, encode, hm, hsc, hl]; rfl
          · simp [hdrIsSei] at hh
            simp [Instr.selectable, Instr.wellFormed, encode, hm, hsc, hl, hdrIsSei, hh]
      · rename_i hsc
        have hlt : c.sc < 3 := lt_of_le_of_ne (Fin.le_last _) hsc
        split
        · subst_vars; simp [Instr.selectable, Instr.wellFormed, encode, hm, hlt]; rfl
        · split
          · subst_vars; simp [Instr.selectable, Instr.wellFormed, encode, hm, hlt]; rfl
          · rename_i h0 h1
            simp [Instr.selectable, Instr.wellFormed, encode, hm, hlt]
            exact ⟨h0, h1⟩
  | type =>
    cases sym with
    | eos => rw [select_unit_eos (.inl hm)]; simp [Instr.selectable, Instr.wellFormed, encode, hm]; rfl
    | byte b =>
      rw [select_type_byte hm]
      split
      · subst_vars; simp [Instr.selectable, Instr.wellFormed, encode, hm]; rfl
      · rename_i h
        simp [Instr.selectable, Instr.wellFormed, encode, hm]
        exact h
  | size =>
    cases sym with
    | eos => rw [select_unit_eos (.inr (.inl hm))]; simp [Instr.selectable, Instr.wellFormed, encode, hm]; rfl
    | byte b =>
      rw [select_size_byte hm]
      split
      · subst_vars; simp [Instr.selectable, Instr.wellFormed, encode, hm]; rfl
      · rename_i h
        simp [Instr.selectable, Instr.wellFormed, encode, hm]
        exact h
  | copy =>
    cases sym with
    | eos => rw [select_unit_eos (.inr (.inr hm))]; simp [Instr.selectable, Instr.wellFormed, encode, hm]; rfl
    | byte b =>
      rw [select_copy_byte hm]
      split
      · rename_i h; obtain ⟨hz, rfl⟩ := h; simp [Instr.selectable, Instr.wellFormed, encode, hm, hz]; rfl
      · rename_i h
        simp only [Instr.selectable, Instr.wellFormed, encode, hm, beq_self_eq_true, Bool.true_and, and_true, Bool.not_eq_true', Bool.and_eq_false_iff, beq_eq_false_iff_ne]
        exact not_and_or.mp h

end Sys2Proof.Machine
end

