-- ==== Sys2Proof/Laws/PerInstr.lean ====
section
/-! SUPPORT. The per-instruction family RoundTrip: a well-formed instruction, encoded, decodes to
itself in every context that may select it (spec/30_encoding.md R48, R56, R58). One lemma per
constructor of Instr. -/

open Sys2Proof.Machine

namespace Sys2Proof.Laws.RoundTrip

/-- The round trip of one instruction. -/
def Statement (i : Instr) : Prop :=
  ∀ c : Ctx, i.wellFormed = true → i.selectable c = true → decode c (encode i) = .instr i

theorem scanHdrSeiLiteral : Statement .scanHdrSeiLiteral := by
  intro c _ hs
  simp [Instr.selectable, and_assoc] at hs
  change Decoded.instr (selectSymbol c (Symbol.byte 0x06).word) = _
  rw [select_scan_byte hs.1, selectScan, if_pos hs.2.1, hs.2.2]
  rfl

theorem scanHdrSeiTypemask (b : Byte) : Statement (.scanHdrSeiTypemask b) := by
  intro c _ hs
  simp [Instr.selectable, and_assoc] at hs
  change Decoded.instr (selectSymbol c (Symbol.byte b).word) = _
  rw [select_scan_byte hs.1, selectScan, if_pos hs.2.1, hs.2.2.1, hs.2.2.2]
  rfl

theorem scanHdrOther (b : Byte) : Statement (.scanHdrOther b) := by
  intro c _ hs
  simp [Instr.selectable, and_assoc] at hs
  change Decoded.instr (selectSymbol c (Symbol.byte b).word) = _
  rw [select_scan_byte hs.1, selectScan, if_pos hs.2.1, hs.2.2]
  rfl

theorem scanZero : Statement .scanZero := by
  intro c _ hs
  simp [Instr.selectable] at hs
  change Decoded.instr (selectSymbol c (Symbol.byte 0x00).word) = _
  rw [select_scan_byte hs.1, selectScan, if_neg (ne_of_lt hs.2)]
  rfl

theorem scanOne : Statement .scanOne := by
  intro c _ hs
  simp [Instr.selectable] at hs
  change Decoded.instr (selectSymbol c (Symbol.byte 0x01).word) = _
  rw [select_scan_byte hs.1, selectScan, if_neg (ne_of_lt hs.2)]
  rfl

theorem scanOther (b : Byte) : Statement (.scanOther b) := by
  intro c _ hs
  simp [Instr.selectable, and_assoc] at hs
  change Decoded.instr (selectSymbol c (Symbol.byte b).word) = _
  rw [select_scan_byte hs.1, selectScan, if_neg (ne_of_lt hs.2.1), if_neg (show ¬ b = 0x00 from hs.2.2.1),
    if_neg (show ¬ b = 0x01 from hs.2.2.2)]

theorem endScan : Statement .endScan := by
  intro c _ hs
  simp [Instr.selectable] at hs
  change Decoded.instr (selectSymbol c Symbol.eos.word) = _
  rw [select_scan_eos hs]

theorem typeCont : Statement .typeCont := by
  intro c _ hs
  simp [Instr.selectable] at hs
  change Decoded.instr (selectSymbol c (Symbol.byte ffCont).word) = _
  rw [select_type_byte hs, if_pos rfl]

theorem typeLast (b : Byte) : Statement (.typeLast b) := by
  intro c _ hs
  simp [Instr.selectable] at hs
  change Decoded.instr (selectSymbol c (Symbol.byte b).word) = _
  rw [select_type_byte hs.1, if_neg (show ¬ b = ffCont from hs.2)]

theorem sizeCont : Statement .sizeCont := by
  intro c _ hs
  simp [Instr.selectable] at hs
  change Decoded.instr (selectSymbol c (Symbol.byte ffCont).word) = _
  rw [select_size_byte hs, if_pos rfl]

theorem sizeLast (b : Byte) : Statement (.sizeLast b) := by
  intro c _ hs
  simp [Instr.selectable] at hs
  change Decoded.instr (selectSymbol c (Symbol.byte b).word) = _
  rw [select_size_byte hs.1, if_neg (show ¬ b = ffCont from hs.2)]

theorem copyEpb : Statement .copyEpb := by
  intro c _ hs
  simp [Instr.selectable] at hs
  change Decoded.instr (selectSymbol c (Symbol.byte epb).word) = _
  rw [select_copy_byte hs.1, if_pos ⟨hs.2, rfl⟩]

theorem copyData (b : Byte) : Statement (.copyData b) := by
  intro c _ hs
  simp only [Instr.selectable, Bool.and_eq_true, beq_iff_eq, Bool.not_eq_true', Bool.and_eq_false_iff,
    beq_eq_false_iff_ne] at hs
  change Decoded.instr (selectSymbol c (Symbol.byte b).word) = _
  rw [select_copy_byte hs.1, if_neg fun h => hs.2.elim (· h.1) (· h.2)]

theorem endTrunc : Statement .endTrunc := by
  intro c _ hs
  simp only [Instr.selectable, Bool.or_eq_true, beq_iff_eq] at hs
  change Decoded.instr (selectSymbol c Symbol.eos.word) = _
  rw [select_unit_eos (or_assoc.mp hs)]

theorem doneAny (sym : Symbol) : Statement (.doneAny sym) := by
  intro c _ hs
  simp [Instr.selectable] at hs
  change Decoded.instr (selectSymbol c sym.word) = _
  rw [select_done hs]

theorem readBit : Statement .readBit := by
  intro c _ _
  rfl

theorem readU (w : Nat) : Statement (.readU w) := by
  intro c hw _
  simp only [Instr.wellFormed, decide_eq_true_eq] at hw
  simp [encode, decode, decodeRead, hw]

theorem readUe : Statement .readUe := by
  intro c _ _
  rfl

theorem decodeFpa : Statement .decodeFpa := by
  intro c _ _
  rfl

theorem fpaId : Statement .fpaId := by
  intro c _ hs
  simp only [Instr.selectable, beq_iff_eq] at hs
  simp [encode, decode, hs, itemFormat]

theorem fpaCancel : Statement .fpaCancel := by
  intro c _ hs
  simp only [Instr.selectable, beq_iff_eq] at hs
  simp [encode, decode, hs, itemFormat]

theorem fpaType : Statement .fpaType := by
  intro c _ hs
  simp only [Instr.selectable, beq_iff_eq] at hs
  simp [encode, decode, hs, itemFormat]

theorem fpaQuincunx : Statement .fpaQuincunx := by
  intro c _ hs
  simp only [Instr.selectable, beq_iff_eq] at hs
  simp [encode, decode, hs, itemFormat]

theorem fpaCit : Statement .fpaCit := by
  intro c _ hs
  simp only [Instr.selectable, beq_iff_eq] at hs
  simp [encode, decode, hs, itemFormat]

theorem fpaSpatialFlipping : Statement .fpaSpatialFlipping := by
  intro c _ hs
  simp only [Instr.selectable, beq_iff_eq] at hs
  simp [encode, decode, hs, itemFormat]

theorem fpaFrame0Flipped : Statement .fpaFrame0Flipped := by
  intro c _ hs
  simp only [Instr.selectable, beq_iff_eq] at hs
  simp [encode, decode, hs, itemFormat]

theorem fpaFieldViews : Statement .fpaFieldViews := by
  intro c _ hs
  simp only [Instr.selectable, beq_iff_eq] at hs
  simp [encode, decode, hs, itemFormat]

theorem fpaCurrentFrameIsFrame0 : Statement .fpaCurrentFrameIsFrame0 := by
  intro c _ hs
  simp only [Instr.selectable, beq_iff_eq] at hs
  simp [encode, decode, hs, itemFormat]

theorem fpaFrame0SelfContained : Statement .fpaFrame0SelfContained := by
  intro c _ hs
  simp only [Instr.selectable, beq_iff_eq] at hs
  simp [encode, decode, hs, itemFormat]

theorem fpaFrame1SelfContained : Statement .fpaFrame1SelfContained := by
  intro c _ hs
  simp only [Instr.selectable, beq_iff_eq] at hs
  simp [encode, decode, hs, itemFormat]

theorem fpaGrid0 : Statement .fpaGrid0 := by
  intro c _ hs
  simp only [Instr.selectable, beq_iff_eq] at hs
  simp [encode, decode, hs, itemFormat]

theorem fpaGrid1 : Statement .fpaGrid1 := by
  intro c _ hs
  simp only [Instr.selectable, beq_iff_eq] at hs
  simp [encode, decode, hs, itemFormat]

theorem fpaGrid2 : Statement .fpaGrid2 := by
  intro c _ hs
  simp only [Instr.selectable, beq_iff_eq] at hs
  simp [encode, decode, hs, itemFormat]

theorem fpaGrid3 : Statement .fpaGrid3 := by
  intro c _ hs
  simp only [Instr.selectable, beq_iff_eq] at hs
  simp [encode, decode, hs, itemFormat]

theorem fpaReservedByte : Statement .fpaReservedByte := by
  intro c _ hs
  simp only [Instr.selectable, beq_iff_eq] at hs
  simp [encode, decode, hs, itemFormat]

theorem fpaRepetitionPeriod : Statement .fpaRepetitionPeriod := by
  intro c _ hs
  simp only [Instr.selectable, beq_iff_eq] at hs
  simp [encode, decode, hs, itemFormat]

theorem fpaExtensionFlag : Statement .fpaExtensionFlag := by
  intro c _ hs
  simp only [Instr.selectable, beq_iff_eq] at hs
  simp [encode, decode, hs, itemFormat]

theorem fpaTrailer : Statement .fpaTrailer := by
  intro c _ hs
  simp only [Instr.selectable, beq_iff_eq] at hs
  simp [encode, decode, hs, itemFormat]

end Sys2Proof.Laws.RoundTrip
end

