-- ==== Sys2Proof/Tests/Slice0.lean ====
section
/-! SUPPORT. Tests and witnesses. Expected results are the spec's own: its encodings
(spec/30_encoding.md R48, R54 to R58), its field examples (spec/43_frame_packing.md R88 to R107, on
the payload P of spec/95_test_vectors.md L1-5) and the vectors of spec/95_test_vectors.md. The
witnesses show concrete values that meet the hypotheses of each statement. -/

open Sys2Proof Sys2Proof.Machine

namespace Sys2Proof.Tests

/-! ### Helpers -/

/-- A state in a mode with symbols offered, everything else as after reset. -/
def at' (m : Mode) (inp : List Symbol) : State := { State.reset with mode := m, input := inp }

/-- The context of a mode. -/
def ctx (m : Mode) (sc : Fin 4) (zc : Fin 3) (h : HdrMatch) : Ctx :=
  { mode := m, sc := sc, zc := zc, hdrMatch := h, fpa := .empty }

/-- The payload P of L1-5. -/
def payloadP : List Byte := [0x81, 0x86, 0xA8, 0x48, 0xD2, 0xAE]

/-- A decode in progress: the cursor at a bit of a payload. -/
def decoding (q : List Byte) (pos : Nat) : State :=
  { State.reset with
    mode := .copy, pt := 45, ps := q.length, nOut := q.length, buf := bufFrom 0 q
    dec := { DecodeRegs.start q.length with cur := { pos := pos, len := 8 * q.length } } }

/-- What is read off the next state of an operation. -/
def after {α : Type} (o : Host.Outcome State Fault Refusal) (f : State → α) : Option α :=
  (nextOf o).map f

/-- The field file just before an item: the fields of L1-5 that stand before it. -/
def fieldsTo (n : Nat) : FieldFile :=
  { FieldFile.empty with
    id := if 1 ≤ n then some 0 else none
    cancelFlag := if 2 ≤ n then some 0 else none
    arrangementType := if 3 ≤ n then some 3 else none
    quincunxSamplingFlag := if 4 ≤ n then some 0 else none
    contentInterpretationType := if 5 ≤ n then some 6 else none
    spatialFlipping := if 6 ≤ n then some 1 else none
    frame0Flipped := if 7 ≤ n then some 0 else none
    fieldViews := if 8 ≤ n then some 1 else none
    currentFrameIsFrame0 := if 9 ≤ n then some 0 else none
    frame0SelfContained := if 10 ≤ n then some 1 else none
    frame1SelfContained := if 11 ≤ n then some 0 else none
    grid0 := if 12 ≤ n then some 1 else none
    grid1 := if 13 ≤ n then some 2 else none
    grid2 := if 14 ≤ n then some 3 else none
    grid3 := if 15 ≤ n then some 4 else none
    reservedByte := if 16 ≤ n then some 0xAB else none
    repetitionPeriod := if 17 ≤ n then some 0 else none
    extensionFlag := if 18 ≤ n then some 0 else none }

/-- A context in which the grammar has read the first n items of L1-5. -/
def itemCtx (n : Nat) : Ctx := { ctx .copy 0 0 .typeMask with fpa := fieldsTo n }

/-! ### Well-formedness: one ill-formed term for each check -/

theorem smoke_typemask_header : Instr.wellFormed (.scanHdrSeiTypemask 0x07) = false := by decide
theorem smoke_other_header : Instr.wellFormed (.scanHdrOther 0x06) = false := by decide
theorem smoke_other_zero : Instr.wellFormed (.scanOther 0x00) = false := by decide
theorem smoke_other_one : Instr.wellFormed (.scanOther 0x01) = false := by decide
theorem smoke_type_last : Instr.wellFormed (.typeLast 0xFF) = false := by decide
theorem smoke_size_last : Instr.wellFormed (.sizeLast 0xFF) = false := by decide
theorem smoke_read_width : Instr.wellFormed (.readU 33) = false := by decide
theorem smoke_bounds_accepted :
    Instr.wellFormed (.readU 32) ∧ Instr.wellFormed (.typeLast 0xFE) ∧
    Instr.wellFormed (.scanOther 0x02) ∧ Instr.wellFormed (.scanHdrSeiTypemask 0xE6) := by decide
theorem smoke_params : Params.wf { Params.default with accBits := some 7 } = false ∧
    Params.wf { Params.default with accBits := some 8 } = true := by decide

/-! ### Decoding: a word or a format for every constructor, written out from the table -/

theorem test_decode_scan_hdr_sei_literal :
    decode (ctx .scan 3 0 .literal) (.word 0b0_0000_0110) = .instr .scanHdrSeiLiteral := by decide
theorem test_decode_scan_hdr_sei_typemask :
    decode (ctx .scan 3 0 .typeMask) (.word 0b0_1110_0110) = .instr (.scanHdrSeiTypemask 0xE6) := by
  decide
theorem test_decode_scan_hdr_other :
    decode (ctx .scan 3 0 .typeMask) (.word 0b0_0110_0101) = .instr (.scanHdrOther 0x65) := by decide
theorem test_decode_scan_zero :
    decode (ctx .scan 2 0 .typeMask) (.word 0b0_0000_0000) = .instr .scanZero := by decide
theorem test_decode_scan_one :
    decode (ctx .scan 2 0 .typeMask) (.word 0b0_0000_0001) = .instr .scanOne := by decide
theorem test_decode_scan_other :
    decode (ctx .scan 1 0 .typeMask) (.word 0b0_0000_0010) = .instr (.scanOther 0x02) := by decide
theorem test_decode_end_scan :
    decode (ctx .scan 3 0 .typeMask) (.word 0b1_0000_0000) = .instr .endScan := by decide
theorem test_decode_type_cont :
    decode (ctx .type 0 0 .typeMask) (.word 0b0_1111_1111) = .instr .typeCont := by decide
theorem test_decode_type_last :
    decode (ctx .type 0 0 .typeMask) (.word 0b0_0010_1101) = .instr (.typeLast 45) := by decide
theorem test_decode_size_cont :
    decode (ctx .size 0 0 .typeMask) (.word 0b0_1111_1111) = .instr .sizeCont := by decide
theorem test_decode_size_last :
    decode (ctx .size 0 0 .typeMask) (.word 0b0_0000_0110) = .instr (.sizeLast 6) := by decide
theorem test_decode_copy_epb :
    decode (ctx .copy 0 2 .typeMask) (.word 0b0_0000_0011) = .instr .copyEpb := by decide
theorem test_decode_copy_data :
    decode (ctx .copy 0 1 .typeMask) (.word 0b0_0000_0011) = .instr (.copyData 0x03) := by decide
theorem test_decode_end_trunc :
    decode (ctx .copy 0 2 .typeMask) (.word 0b1_0000_0000) = .instr .endTrunc := by decide
theorem test_decode_done_any :
    decode (ctx .done 0 0 .typeMask) (.word 0b1_0000_0000) = .instr (.doneAny .eos) := by decide
theorem test_decode_read_bit : decode (itemCtx 0) (.read .bit) = .instr .readBit := by decide
theorem test_decode_read_u : decode (itemCtx 0) (.read (.u 32)) = .instr (.readU 32) := by decide
theorem test_decode_read_ue : decode (itemCtx 0) (.read .ue) = .instr .readUe := by decide
theorem test_decode_decode_fpa :
    decode (ctx .copy 0 0 .typeMask) (.payload 45) = .instr .decodeFpa := by decide
theorem test_decode_fpa_id : decode (itemCtx 0) (.item .ue) = .instr .fpaId := by decide
theorem test_decode_fpa_cancel : decode (itemCtx 1) (.item (.u 1)) = .instr .fpaCancel := by decide
theorem test_decode_fpa_type : decode (itemCtx 2) (.item (.u 7)) = .instr .fpaType := by decide
theorem test_decode_fpa_quincunx :
    decode (itemCtx 3) (.item (.u 1)) = .instr .fpaQuincunx := by decide
theorem test_decode_fpa_cit : decode (itemCtx 4) (.item (.u 6)) = .instr .fpaCit := by decide
theorem test_decode_fpa_spatial_flipping :
    decode (itemCtx 5) (.item (.u 1)) = .instr .fpaSpatialFlipping := by decide
theorem test_decode_fpa_frame0_flipped :
    decode (itemCtx 6) (.item (.u 1)) = .instr .fpaFrame0Flipped := by decide
theorem test_decode_fpa_field_views :
    decode (itemCtx 7) (.item (.u 1)) = .instr .fpaFieldViews := by decide
theorem test_decode_fpa_current_frame_is_frame0 :
    decode (itemCtx 8) (.item (.u 1)) = .instr .fpaCurrentFrameIsFrame0 := by decide
theorem test_decode_fpa_frame0_self_contained :
    decode (itemCtx 9) (.item (.u 1)) = .instr .fpaFrame0SelfContained := by decide
theorem test_decode_fpa_frame1_self_contained :
    decode (itemCtx 10) (.item (.u 1)) = .instr .fpaFrame1SelfContained := by decide
theorem test_decode_fpa_grid0 : decode (itemCtx 11) (.item (.u 4)) = .instr .fpaGrid0 := by decide
theorem test_decode_fpa_grid1 : decode (itemCtx 12) (.item (.u 4)) = .instr .fpaGrid1 := by decide
theorem test_decode_fpa_grid2 : decode (itemCtx 13) (.item (.u 4)) = .instr .fpaGrid2 := by decide
theorem test_decode_fpa_grid3 : decode (itemCtx 14) (.item (.u 4)) = .instr .fpaGrid3 := by decide
theorem test_decode_fpa_reserved_byte :
    decode (itemCtx 15) (.item (.u 8)) = .instr .fpaReservedByte := by decide
theorem test_decode_fpa_repetition_period :
    decode (itemCtx 16) (.item .ue) = .instr .fpaRepetitionPeriod := by decide
theorem test_decode_fpa_extension_flag :
    decode (itemCtx 17) (.item (.u 1)) = .instr .fpaExtensionFlag := by decide
theorem test_decode_fpa_trailer :
    decode (itemCtx 18) (.item .bitsToEnd) = .instr .fpaTrailer := by decide

/-- The grammar skips the grid with quincunx 1 or type 5, and everything but the extension flag with
cancel 1 (30_encoding.md R56). -/
theorem test_grammar_branches :
    grammarNext { fieldsTo 11 with quincunxSamplingFlag := some 1 } = .fpaReservedByte ∧
    grammarNext { fieldsTo 11 with arrangementType := some 5 } = .fpaReservedByte ∧
    grammarNext { fieldsTo 1 with cancelFlag := some 1 } = .fpaExtensionFlag := by decide

/-- What the decoder rejects, by name. -/
theorem test_decode_rejects :
    decodeNat resetCtx 512 = .rejected .notASymbolWord ∧
    decode resetCtx (.read (.u 33)) = .rejected .widthOver32 ∧
    decode resetCtx (.read .bitsToEnd) = .rejected .notACursorRead ∧
    decode (itemCtx 2) (.item (.u 1)) = .rejected .notTheNextItem ∧
    decode resetCtx (.payload 44) = .rejected .notFramePacking := by decide

/-- The table's numbering, right after reset. -/
theorem test_table_words :
    decodeTableWord 16 0x000 = some .scanZero ∧ decodeTableWord 16 0x001 = some .scanOne ∧
    decodeTableWord 16 0x002 = some (.scanOther 0x02) ∧ decodeTableWord 16 0x100 = some .endScan ∧
    decodeTableWord 16 0x200 = none := by decide

/-- The very next step after `withFetchWord` runs the word (here END_SCAN). -/
theorem test_fetch_word :
    step (State.reset.withFetchWord 16 0x100) = exec .endScan (State.reset.consume []) := rfl

/-! ### NalScanner -/

theorem test_scan_zero_saturates :
    after (exec .scanZero { at' .scan [] with sc := 2 }) (·.sc) = some 2 := by decide
theorem test_scan_one_completes :
    after (exec .scanOne { at' .scan [] with sc := 2 }) (·.sc) = some 3 := by decide
theorem test_scan_one_after_one_zero :
    after (exec .scanOne { at' .scan [] with sc := 1 }) (·.sc) = some 0 := by decide
theorem test_scan_other_breaks :
    after (exec (.scanOther 0x02) { at' .scan [] with sc := 2 }) (·.sc) = some 0 := by decide
/-- Vector S10: header `26` is SEI under TypeMask and not under Literal. -/
theorem test_header_26 :
    after (step { at' .scan [.byte 0x26] with sc := 3 }) (·.mode) = some .type ∧
    after (step { at' .scan [.byte 0x26] with
      sc := 3, params := { Params.default with hdrMatch := .literal } }) (·.mode) = some .scan := by
  decide
theorem test_header_literal :
    after (exec .scanHdrSeiLiteral { at' .scan [] with sc := 3, pt := 9, ps := 8 })
      (fun s => (s.mode, s.pt, s.ps, s.sc)) = some (.type, 0, 0, 0) := by decide
theorem test_header_typemask :
    after (exec (.scanHdrSeiTypemask 0x26) { at' .scan [] with sc := 3, pt := 9, ps := 8 })
      (fun s => (s.mode, s.pt, s.ps, s.sc)) = some (.type, 0, 0, 0) := by decide
/-- Vectors S6 and S16. -/
theorem test_header_other :
    after (exec (.scanHdrOther 0x00) { at' .scan [] with sc := 3 }) (·.sc) = some 1 ∧
    after (exec (.scanHdrOther 0x01) { at' .scan [] with sc := 3 }) (·.sc) = some 0 := by decide
/-- Vector S8: End after a start code leaves sc 3 and emits nothing. -/
theorem test_end_scan :
    after (step { at' .scan [.eos] with sc := 3 }) (fun s => (s.mode, s.sc, s.out)) =
      some (.done, 3, []) := by decide

/-! ### PayloadExtractor -/

/-- Vector E1: 255 + 255 + 45 = 555. -/
theorem test_type_cont :
    after (exec .typeCont { at' .type [] with pt := 255 }) (fun s => (s.pt, s.mode)) =
      some (510, .type) := by decide
theorem test_type_last :
    after (exec (.typeLast 45) { at' .type [] with pt := 510 }) (fun s => (s.pt, s.mode)) =
      some (555, .size) := by decide
theorem test_size_cont :
    after (exec .sizeCont (at' .size [])) (fun s => (s.ps, s.mode)) = some (255, .size) := by decide
theorem test_size_last_starts :
    after (exec (.sizeLast 6) { at' .size [] with pt := 45, zc := 2, nOut := 4, buf := [(0, 1)] })
      (fun s => (s.ps, s.mode, s.zc, s.nOut, s.buf.length)) = some (6, .copy, 0, 0, 0) := by decide
/-- Vector E12: an empty payload of type 45 is decoded at once and is MALFORMED. -/
theorem test_size_last_empty :
    after (exec (.sizeLast 0) { at' .size [] with pt := 45 }) (fun s => (s.mode, s.out)) =
      some (.scan, [malformedRecord .outOfRange 0 .empty]) := by decide
theorem test_copy_epb :
    after (exec .copyEpb { at' .copy [] with zc := 2, nOut := 2, ps := 3 })
      (fun s => (s.zc, s.nOut, s.buf.length)) = some (0, 2, 0) := by decide
theorem test_copy_data_stores :
    after (exec (.copyData 0xAA) { at' .copy [] with zc := 1, nOut := 2, ps := 4 })
      (fun s => (s.zc, s.nOut, s.mode, s.buf)) = some (0, 3, .copy, [(2, 0xAA)]) := by decide
/-- L1-5: the byte AE completes P, and the record has grid 1, 2, 3, 4 and reserved byte AB. -/
theorem test_copy_data_finishes :
    after (exec (.copyData 0xAE)
        { at' .copy [] with pt := 45, ps := 6, nOut := 5, buf := bufFrom 0 [0x81, 0x86, 0xA8, 0x48, 0xD2] })
      (fun s => (s.mode, s.out)) = some (.scan, [okRecord 6 (fieldsTo 18) []]) := by decide +kernel
/-- Vectors E3, E4 and E5. -/
theorem test_end_trunc :
    after (exec .endTrunc { at' .type [] with pt := 7, ps := 9 }) (fun s => (s.mode, s.out)) =
      some (.done, [{ status := .truncated, cause := .none, payloadType := none,
                      payloadSize := none, fpa := .empty, trailer := [] }]) ∧
    after (exec .endTrunc { at' .copy [] with pt := 45, ps := 10 }) (fun s => (s.mode, s.out)) =
      some (.done, [{ status := .truncated, cause := .none, payloadType := some 45,
                      payloadSize := some 10, fpa := .empty, trailer := [] }]) := by decide
theorem test_done_any :
    after (exec (.doneAny .eos) (at' .done [])) (fun s => (s.fault, s.mode, s.out)) =
      some (some .inputAfterEnd, .done, []) := by decide

/-! ### BitCursor -/

/-- Section 2.1: `A5` at bit 7 is 1; at bit 8 the read raises. -/
theorem test_read_bit :
    after (exec .readBit (decoding [0xA5] 7)) (fun s => (s.dec.ret, s.dec.cur.pos)) = some (1, 8) ∧
    after (exec .readBit (decoding [0xA5] 8)) (fun s => s.out.map (·.cause)) =
      some [.outOfRange] := by decide
/-- Section 2.1 and L1-1: a read over a byte boundary, and 32 bits from bit 8. -/
theorem test_read_u :
    after (exec (.readU 7) (decoding [0x81, 0x86] 2)) (fun s => (s.dec.ret, s.dec.cur.pos)) =
      some (3, 9) ∧
    after (exec (.readU 32) (decoding [0x12, 0x34, 0x56, 0x78, 0x9A] 8))
      (fun s => (s.dec.ret, s.dec.cur.pos)) = some (878082202, 40) := by decide
theorem test_read_u_width_33 :
    exec (.readU 33) (decoding [0x12] 0) = .refused .readWidthOver32 := rfl
/-- L1-2: the codeword of 8, and of 255. -/
theorem test_read_ue :
    after (exec .readUe (decoding [0x12] 0)) (fun s => (s.dec.ret, s.dec.cur.pos)) = some (8, 7) ∧
    after (exec .readUe (decoding [0x00, 0x80, 0x00] 0)) (fun s => (s.dec.ret, s.dec.cur.pos)) =
      some (255, 17) := by decide
/-- Section 2.1: 32 zeros are accepted, the 33rd raises. -/
theorem test_read_ue_cap :
    readUe 32 (bufFrom 0 [0, 0, 0, 0, 0x80, 0, 0, 0, 0]) { pos := 0, len := 72 } =
      .ok 4294967295 { pos := 65, len := 72 } ∧
    readUe 32 (bufFrom 0 [0, 0, 0, 0, 0x7F]) { pos := 0, len := 40 } =
      .raised .malformedGolombCode { pos := 33, len := 40 } := by decide +kernel

/-! ### SeiFramePackingDecoder: each field of P at its bit (43_frame_packing.md, the Examples) -/

theorem test_fpa_id : after (exec .fpaId (decoding payloadP 0))
    (fun s => (s.dec.fpa.id, s.dec.cur.pos)) = some (some 0, 1) := by decide
theorem test_fpa_cancel : after (exec .fpaCancel (decoding payloadP 1))
    (fun s => (s.dec.fpa.cancelFlag, s.dec.cur.pos)) = some (some 0, 2) := by decide
theorem test_fpa_type : after (exec .fpaType (decoding payloadP 2))
    (fun s => (s.dec.fpa.arrangementType, s.dec.cur.pos)) = some (some 3, 9) := by decide
theorem test_fpa_quincunx : after (exec .fpaQuincunx (decoding payloadP 9))
    (fun s => (s.dec.fpa.quincunxSamplingFlag, s.dec.cur.pos)) = some (some 0, 10) := by decide
theorem test_fpa_cit : after (exec .fpaCit (decoding payloadP 10))
    (fun s => (s.dec.fpa.contentInterpretationType, s.dec.cur.pos)) = some (some 6, 16) := by decide
theorem test_fpa_spatial_flipping : after (exec .fpaSpatialFlipping (decoding payloadP 16))
    (fun s => (s.dec.fpa.spatialFlipping, s.dec.cur.pos)) = some (some 1, 17) := by decide
theorem test_fpa_frame0_flipped : after (exec .fpaFrame0Flipped (decoding payloadP 17))
    (fun s => (s.dec.fpa.frame0Flipped, s.dec.cur.pos)) = some (some 0, 18) := by decide
theorem test_fpa_field_views : after (exec .fpaFieldViews (decoding payloadP 18))
    (fun s => (s.dec.fpa.fieldViews, s.dec.cur.pos)) = some (some 1, 19) := by decide
theorem test_fpa_current_frame : after (exec .fpaCurrentFrameIsFrame0 (decoding payloadP 19))
    (fun s => (s.dec.fpa.currentFrameIsFrame0, s.dec.cur.pos)) = some (some 0, 20) := by decide
theorem test_fpa_frame0_self : after (exec .fpaFrame0SelfContained (decoding payloadP 20))
    (fun s => (s.dec.fpa.frame0SelfContained, s.dec.cur.pos)) = some (some 1, 21) := by decide
theorem test_fpa_frame1_self : after (exec .fpaFrame1SelfContained (decoding payloadP 21))
    (fun s => (s.dec.fpa.frame1SelfContained, s.dec.cur.pos)) = some (some 0, 22) := by decide
theorem test_fpa_grid0 : after (exec .fpaGrid0 (decoding payloadP 22))
    (fun s => (s.dec.fpa.grid0, s.dec.cur.pos)) = some (some 1, 26) := by decide
theorem test_fpa_grid1 : after (exec .fpaGrid1 (decoding payloadP 26))
    (fun s => (s.dec.fpa.grid1, s.dec.cur.pos)) = some (some 2, 30) := by decide
theorem test_fpa_grid2 : after (exec .fpaGrid2 (decoding payloadP 30))
    (fun s => (s.dec.fpa.grid2, s.dec.cur.pos)) = some (some 3, 34) := by decide
theorem test_fpa_grid3 : after (exec .fpaGrid3 (decoding payloadP 34))
    (fun s => (s.dec.fpa.grid3, s.dec.cur.pos)) = some (some 4, 38) := by decide
theorem test_fpa_reserved_byte : after (exec .fpaReservedByte (decoding payloadP 38))
    (fun s => (s.dec.fpa.reservedByte, s.dec.cur.pos)) = some (some 0xAB, 46) := by decide
theorem test_fpa_repetition_period : after (exec .fpaRepetitionPeriod (decoding payloadP 46))
    (fun s => (s.dec.fpa.repetitionPeriod, s.dec.cur.pos)) = some (some 0, 47) := by decide
theorem test_fpa_extension_flag : after (exec .fpaExtensionFlag (decoding payloadP 47))
    (fun s => (s.dec.fpa.extensionFlag, s.dec.cur.pos)) = some (some 0, 48) := by decide
/-- The one-byte payload `E0`: after three bits the trailer is `00000` (R89). -/
theorem test_fpa_trailer : after (exec .fpaTrailer (decoding [0xE0] 3))
    (fun s => (s.dec.trailer, s.dec.cur.pos)) =
      some ([false, false, false, false, false], 8) := by decide
/-- Vector P3: a type-5 arrangement has no grid. -/
theorem test_decode_record_no_grid :
    decodeRecord Params.default (bufFrom 0 [0x10, 0x0A, 0x04, 0x70, 0x04]) 5 =
      okRecord 5 { FieldFile.empty with
        id := some 7, cancelFlag := some 0, arrangementType := some 5
        quincunxSamplingFlag := some 0, contentInterpretationType := some 1
        spatialFlipping := some 0, frame0Flipped := some 0, fieldViews := some 0
        currentFrameIsFrame0 := some 1, frame0SelfContained := some 1
        frame1SelfContained := some 1, reservedByte := some 0, repetitionPeriod := some 1
        extensionFlag := some 0 } [] := by decide +kernel
/-- R109's example: the payload `80` fails inside `type`, with two fields present. -/
theorem test_decode_record_malformed :
    after (exec .decodeFpa (decoding [0x80] 0)) (·.out) =
      some [malformedRecord .outOfRange 1
        { FieldFile.empty with id := some 0, cancelFlag := some 0 }] := by decide

/-! ### Witnesses: values that meet the hypotheses of each statement, clause by clause -/

/-- One byte in SCAN mode, and the state after it. -/
def scanState : State := { at' .scan [.byte 0x00] with sc := 2 }

/-- A payload of six bytes of type 45 with one byte to go. -/
def lastByte : State :=
  { at' .copy [.byte 0xAE, .eos] with
    pt := 45, ps := 6, nOut := 5, buf := bufFrom 0 [0x81, 0x86, 0xA8, 0x48, 0xD2] }

/-- `P_ACC_BITS = 8`, `P_BUF_BYTES = 5`. -/
def tight : Params := { Params.default with accBits := some 8, bufBytes := some 5 }

/-- The state in a mode with tight parameters. -/
def tightAt (m : Mode) (inp : List Symbol) : State := { at' m inp with params := tight }

theorem witness_EveryStepKeepsTheInvariant :
    ∃ s t, Inv s ∧ step s = .next t ∧ s.mode = .copy ∧ t.out ≠ [] := by
  refine ⟨lastByte, _, ?_, rfl, rfl, ?_⟩
  · refine ⟨rfl, fun _ a ha => ?_, fun _ => by decide, fun _ => rfl, by simp [lastByte, at'],
      fun k hk => by simp [lastByte, at', State.reset, State.resetWith, Params.default] at hk,
      fun _ _ n hn => by simp [lastByte, at', State.reset, State.resetWith, Params.default] at hn,
      rfl, by simp [lastByte, at', State.reset, State.resetWith]⟩
    have h5 : (5 : Nat) ≤ a := ha
    have e : lastByte.buf = [(0, 0x81), (1, 0x86), (2, 0xA8), (3, 0x48), (4, 0xD2)] := by decide
    rw [e]
    simp only [Memory.read]
    rw [if_neg (by omega), if_neg (by omega), if_neg (by omega), if_neg (by omega),
      if_neg (by omega)]
  · simp [lastByte, at', finish, storeByte]

theorem witness_StepRunsTheDecodedInstruction :
    (scanState.fault = none ∧ scanState.input = [.byte 0x00]) ∧
    { scanState with fault := some .inputAfterEnd }.fault = some .inputAfterEnd ∧
    (State.reset.fault = none ∧ State.reset.input = []) := ⟨⟨rfl, rfl⟩, rfl, rfl, rfl⟩

theorem witness_OperationMapFollowsTheTable :
    hdrIsSei .literal 0x06 ∧ hdrIsSei .typeMask 0xE6 ∧ ¬ hdrIsSei .literal 0x26 ∧
    (ctx .scan 3 0 .literal).mode = .scan ∧ (ctx .scan 3 0 .literal).sc = 3 ∧
    (ctx .scan 2 0 .typeMask).sc < 3 ∧ (0x02 : Byte) ≠ 0x00 ∧ (0x02 : Byte) ≠ 0x01 ∧
    (ctx .type 0 0 .typeMask).mode = .type ∧ (0xFE : Byte) ≠ 0xFF ∧
    (ctx .size 0 0 .typeMask).mode = .size ∧ (ctx .copy 0 2 .typeMask).zc = 2 ∧
    ¬ ((ctx .copy 0 1 .typeMask).zc = 2 ∧ (0x03 : Byte) = 0x03) ∧
    ¬ ((ctx .copy 0 2 .typeMask).zc = 2 ∧ (0x02 : Byte) = 0x03) ∧
    (ctx .done 0 0 .typeMask).mode = .done := by decide

theorem witness_DecodeOfEncodeGivesTheInstruction :
    (Instr.wellFormed (.scanHdrOther 0x07) ∧ Instr.selectable (ctx .scan 3 0 .literal) (.scanHdrOther 0x07)) ∧
    (Instr.wellFormed (.typeLast 0xFE) ∧ Instr.selectable (ctx .type 0 0 .typeMask) (.typeLast 0xFE)) ∧
    (Instr.wellFormed (.readU 32) ∧ Instr.selectable resetCtx (.readU 32)) ∧
    (Instr.wellFormed .fpaGrid3 ∧ Instr.selectable (itemCtx 14) .fpaGrid3) := by decide

theorem witness_StepConsumesOneSymbolWithoutLookahead :
    ∃ t, step scanState = .next t ∧ t.sc = 2 := ⟨_, rfl, rfl⟩

theorem witness_StepEmitsOneRecordExactlyWhenAUnitEnds :
    (∃ t, step lastByte = .next t ∧ inUnit lastByte.mode ∧ ¬ inUnit t.mode) ∧
    (∃ t, step scanState = .next t ∧ ¬ (inUnit scanState.mode ∧ ¬ inUnit t.mode)) :=
  ⟨⟨_, rfl, .inr (.inr rfl), by simp [inUnit, lastByte, at', storeByte]⟩,
    ⟨_, rfl, by simp [inUnit, scanState, at']⟩⟩

theorem witness_EmittedRecordHasThePresenceOfItsStatus :
    (∃ t r, step lastByte = .next t ∧ t.out = lastByte.out ++ [r]) ∧
    (∃ t r, step (at' .type [.eos]) = .next t ∧ t.out = (at' .type [.eos]).out ++ [r] ∧
      r.status = .truncated) ∧
    (∃ t r, step (at' .size [.byte 0x00]) = .next t ∧ t.out = (at' .size [.byte 0x00]).out ++ [r] ∧
      r.status ≠ .truncated) :=
  ⟨⟨_, _, rfl, rfl⟩, ⟨_, _, rfl, rfl, rfl⟩, ⟨_, _, rfl, rfl, by decide⟩⟩

theorem witness_ParametersAreHeldConstant :
    (∃ t, exec .readUe (decoding payloadP 0) = .next t) ∧ ∃ t, step scanState = .next t :=
  ⟨⟨_, rfl⟩, ⟨_, rfl⟩⟩

/-- Each way a step raises a fault, at the first value that does; and a faulted state. -/
theorem witness_ModelFaultsAreRaisedExactly :
    after (step (at' .done [.eos])) (·.fault) = some (some .inputAfterEnd) ∧
    after (step { tightAt .type [.byte 0x01] with pt := 255 }) (·.fault) =
      some (some .capacityExceeded) ∧
    after (step { tightAt .type [.byte 0x00] with pt := 255 }) (·.fault) = some none ∧
    after (step { tightAt .size [.byte 0xFF] with ps := 1 }) (·.fault) =
      some (some .capacityExceeded) ∧
    after (step { tightAt .size [.byte 0x06] with pt := 45 }) (·.fault) =
      some (some .capacityExceeded) ∧
    after (step { tightAt .size [.byte 0x05] with pt := 45 }) (·.fault) = some none ∧
    { State.reset with fault := some .capacityExceeded }.fault = some .capacityExceeded := by decide

theorem witness_ScanByteAdvancesTheMatchState :
    scanState.sc < 3 ∧ (0x02 : Byte) ≠ 0x00 ∧ (0x02 : Byte) ≠ 0x01 := by decide

theorem witness_SeiHeaderBeginsAUnit :
    let s : State := { at' .scan [.byte 0x26] with sc := 3 }
    s.fault = none ∧ s.mode = .scan ∧ s.sc = 3 ∧ s.input = .byte 0x26 :: [] ∧
      hdrIsSei s.params.hdrMatch 0x26 := by decide

theorem witness_OtherHeaderIsIgnored :
    let s : State := { at' .scan [.byte 0x00] with sc := 3 }
    s.fault = none ∧ s.mode = .scan ∧ s.sc = 3 ∧ s.input = .byte 0x00 :: [] ∧
      ¬ hdrIsSei s.params.hdrMatch 0x00 := by decide

theorem witness_EndInScanModeEndsTheRun :
    let s : State := { at' .scan [.eos] with sc := 3 }
    s.fault = none ∧ s.mode = .scan ∧ s.input = .eos :: [] := by decide

theorem noUnit_start_code : NoUnit .typeMask [0x00, 0x00, 0x01] := by
  intro pre h post e
  have := congrArg List.length e
  simp only [List.length_append, List.length_cons, List.length_nil] at this
  omega

/-- Bytes that are a start code, with an SEI header after them, and with none. -/
theorem witness_ScannerFindsExactlyTheStartCodes :
    NoUnit State.reset.params.hdrMatch [0x00, 0x00, 0x01] ∧
    (let s := at' .scan (byteSymbols [0x00, 0x00, 0x01] ++ [.eos])
     s.fault = none ∧ s.mode = .scan ∧ s.sc = 0) ∧
    (let s := at' .scan (byteSymbols [0x00, 0x00, 0x01] ++ .byte 0x06 :: [])
     s.fault = none ∧ s.mode = .scan ∧ s.sc = 0 ∧
       [0x00, 0x00, 0x01] <:+ [0x00, 0x00, (0x01 : Byte)] ∧ hdrIsSei s.params.hdrMatch 0x06) :=
  ⟨noUnit_start_code, by decide, by decide⟩

/-- Vector S8 without its end state: a start code at the end of the stream. -/
theorem witness_StreamWithoutUnitsEmitsNothing :
    NoUnit State.reset.params.hdrMatch [0x00, 0x00, 0x01] ∧
    (let s := at' .scan (byteSymbols [0x00, 0x00, 0x01] ++ [.eos])
     s.fault = none ∧ s.mode = .scan ∧ s.sc = 0) :=
  ⟨noUnit_start_code, by decide⟩

theorem witness_ScanningResumesWithNothingMatched :
    (∃ t, (inUnit lastByte.mode → lastByte.sc = 0) ∧ step lastByte = .next t ∧
      inUnit lastByte.mode ∧ t.mode = .scan) ∧
    (∃ t, step { at' .scan [.byte 0x06] with sc := 3 } = .next t ∧ inUnit t.mode) :=
  ⟨⟨_, fun _ => rfl, rfl, .inr (.inr rfl), rfl⟩, ⟨_, rfl, .inl rfl⟩⟩

/-- 255 fits 8 bits and 256 does not. -/
theorem witness_TypeBytesAccumulate :
    (∀ k, (tightAt .type []).params.accBits = some k → (tightAt .type []).pt + 255 < 2 ^ k) ∧
    (∃ k, { tightAt .type [] with pt := 1 }.params.accBits = some k ∧
      2 ^ k ≤ { tightAt .type [] with pt := 1 }.pt + 255) ∧
    (∀ k, { tightAt .type [] with pt := 1 }.params.accBits = some k →
      { tightAt .type [] with pt := 1 }.pt + (0xFE : Byte).toNat < 2 ^ k) ∧
    (∃ k, { tightAt .type [] with pt := 2 }.params.accBits = some k ∧
      2 ^ k ≤ { tightAt .type [] with pt := 2 }.pt + (0xFE : Byte).toNat) := by
  refine ⟨?_, ⟨8, rfl, by decide⟩, ?_, ⟨8, rfl, by decide⟩⟩
  all_goals
    intro k hk
    cases hk
    decide

/-- The same for `ps`; a payload of type 45 of 6 bytes does not fit 5, one of 5 does, and an empty
one of either kind. -/
theorem witness_SizeBytesAccumulateAndStartThePayload :
    (∀ k, (tightAt .size []).params.accBits = some k → (tightAt .size []).ps + 255 < 2 ^ k) ∧
    (∃ k, { tightAt .size [] with ps := 1 }.params.accBits = some k ∧
      2 ^ k ≤ { tightAt .size [] with ps := 1 }.ps + 255) ∧
    (∃ k, { tightAt .size [] with ps := 255 }.params.accBits = some k ∧
      2 ^ k ≤ { tightAt .size [] with ps := 255 }.ps + (0x01 : Byte).toNat) ∧
    (∀ k, { tightAt .size [] with pt := 45 }.params.accBits = some k →
      { tightAt .size [] with pt := 45 }.ps + (0x06 : Byte).toNat < 2 ^ k) ∧
    (∃ n, (tightAt .size []).params.bufBytes = some n ∧ n < 0 + (0x06 : Byte).toNat) ∧
    ¬ (∃ n, (tightAt .size []).params.bufBytes = some n ∧ n < 0 + (0x05 : Byte).toNat) ∧
    { tightAt .size [] with pt := 5 }.pt ≠ 45 ∧ (tightAt .size []).ps + (0x00 : Byte).toNat = 0 := by
  refine ⟨?_, ⟨8, rfl, by decide⟩, ⟨8, rfl, by decide⟩, ?_, ⟨5, rfl, by decide⟩, ?_, by decide, by decide⟩
  · intro k hk
    cases hk
    decide
  · intro k hk
    cases hk
    decide
  · rintro ⟨n, hn, hlt⟩
    cases hn
    revert hlt
    decide

theorem witness_CopyDataStoresAndFinishes :
    Memory.wf lastByte.buf = true ∧ lastByte.nOut + 1 = lastByte.ps ∧
    { lastByte with ps := 7 }.nOut + 1 ≠ { lastByte with ps := 7 }.ps := by decide

theorem witness_EmulationPreventionByteIsDiscarded :
    let s : State := { at' .copy [.byte 0x03] with zc := 2, ps := 3, nOut := 2 }
    s.fault = none ∧ s.mode = .copy ∧ s.zc = 2 ∧ s.input = .byte 0x03 :: [] := by decide

theorem witness_EndInsideAUnitIsTruncation :
    (at' .type [.eos]).mode = .type ∧ (at' .size [.eos]).mode = .size ∧
    (at' .copy [.eos]).mode = .copy := by decide

/-- n = 0, n = 254, n = 255 (the first that needs a continuation byte). -/
theorem witness_FfCodingIsSummed :
    (ffBytes 0 = [0x00] ∧ ffBytes 254 = [0xFE] ∧ ffBytes 255 = [0xFF, 0x00]) ∧
    (let s := at' .type (byteSymbols (ffBytes 255) ++ [])
     s.fault = none ∧ s.params.accBits = none ∧ s.mode = .type) ∧
    (let s := at' .size (byteSymbols (ffBytes 0) ++ [])
     s.fault = none ∧ s.params.accBits = none ∧ s.mode = .size ∧ s.params.bufBytes = none) := by
  decide

/-- Vector E6's payload. -/
theorem witness_EmulationPreventionRoundTrip :
    insertEpb 0 [0x00, 0x00, 0x00] = [0x00, 0x00, 0x03, 0x00] ∧
    (let s : State := { at' .copy (byteSymbols (insertEpb 0 [0x00, 0x00, 0x00]) ++ []) with ps := 3 }
     s.fault = none ∧ s.mode = .copy ∧ s.nOut = 0 ∧ s.zc = 0 ∧ s.buf = [] ∧
       s.ps = [0x00, 0x00, (0x00 : Byte)].length ∧ [0x00, 0x00, (0x00 : Byte)] ≠ []) := by decide

/-- Vector E14's payload: a start code is data. -/
theorem witness_CleanPayloadIsCopiedUnchanged :
    ¬ [0x00, 0x00, 0x03] <:+: [0x00, 0x00, 0x01, (0x06 : Byte)] ∧
    (let s : State := { at' .copy (byteSymbols [0x00, 0x00, 0x01, 0x06] ++ []) with ps := 4 }
     s.fault = none ∧ s.mode = .copy ∧ s.nOut = 0 ∧ s.zc = 0 ∧ s.buf = [] ∧ s.ps = 4) := by decide

/-- L1-6: 6 of 10 bytes; and the boundary, 9 of 10. -/
theorem witness_ShortPayloadIsTruncated :
    (let s : State := { at' .copy (byteSymbols [1, 2, 3, 4, 5, 6] ++ [.eos]) with ps := 10 }
     s.fault = none ∧ s.mode = .copy ∧ s.nOut + [1, 2, 3, 4, 5, (6 : Byte)].length < s.ps) ∧
    (let s : State := { at' .copy (byteSymbols [] ++ [.eos]) with ps := 10, nOut := 9 }
     s.nOut + ([] : List Byte).length < s.ps) := by decide

theorem witness_AWholeUnitYieldsItsRecord :
    let s := at' .scan (byteSymbols ([0x00, 0x00, 0x01, 0x06] ++ ffBytes 45 ++ ffBytes 6 ++
      insertEpb 0 payloadP) ++ [.eos])
    s.fault = none ∧ s.mode = .scan ∧ s.sc = 0 ∧ hdrIsSei s.params.hdrMatch 0x06 ∧
      s.params.accBits = none ∧ s.params.bufBytes = none := by decide

theorem witness_ReadBitReturnsTheNextBit :
    (⟨7, 8⟩ : Cursor).pos < (⟨7, 8⟩ : Cursor).len ∧ (⟨8, 8⟩ : Cursor).len ≤ (⟨8, 8⟩ : Cursor).pos := by
  decide

theorem witness_ReadUComposesMostSignificantFirst :
    (⟨8, 40⟩ : Cursor).pos + 32 ≤ (⟨8, 40⟩ : Cursor).len ∧
    (⟨8, 40⟩ : Cursor).len < (⟨9, 40⟩ : Cursor).pos + 32 ∧
    (⟨40, 40⟩ : Cursor).pos ≤ (⟨40, 40⟩ : Cursor).len := by decide

/-- Section 2.1 with cap 7 (and cap 8): `01 80`, `01`, `00` cut at 7 bits, `00 80`. -/
theorem witness_ReadUeFollowsTheZeroRun :
    ((∀ k, k < 7 → bitAt (bufFrom 0 [0x01, 0x80]) (0 + k) = false) ∧
      bitAt (bufFrom 0 [0x01, 0x80]) (0 + 7) = true ∧ 0 + (2 * 7 + 1) ≤ 16) ∧
    (bitAt (bufFrom 0 [0x01]) (0 + 7) = true ∧ 0 + 7 < 8 ∧ 8 < 0 + (2 * 7 + 1)) ∧
    ((∀ k, k < 7 → bitAt (bufFrom 0 [0x00]) (0 + k) = false) ∧ 0 + 7 = 7) ∧
    ((∀ k, k < 8 → bitAt (bufFrom 0 [0x00, 0x80]) (0 + k) = false) ∧ 8 = 7 + 1 ∧ 0 + 8 ≤ 16) := by
  decide

theorem witness_ReadUThenReencodeGivesTheBits :
    readU (bufFrom 0 [0xA5]) 5 { pos := 3, len := 8 } = .ok 5 { pos := 8, len := 8 } := by decide

/-- The largest value under cap 1 is 2 (codeword `011`), and it ends a 3-bit buffer. -/
theorem witness_ReadUeReadsExactlyTheCodewords :
    (⟨0, 3⟩ : Cursor).pos ≤ (⟨0, 3⟩ : Cursor).len ∧ ueBits 2 = [false, true, true] ∧
    2 + 2 ≤ 2 ^ (1 + 1) ∧ bitsFrom (bufFrom 0 [0x60]) 0 3 = [false, true, true] ∧
    readUe 1 (bufFrom 0 [0x60]) { pos := 0, len := 3 } = .ok 2 { pos := 3, len := 3 } := by decide

theorem witness_CursorStaysInBounds :
    (∃ t, exec .fpaTrailer (decoding [0xE0] 8) = .next t ∧
      (decoding [0xE0] 8).dec.cur.pos ≤ (decoding [0xE0] 8).dec.cur.len) ∧
    readBit (bufFrom 0 [0xA5]) ⟨7, 8⟩ = .ok 1 ⟨8, 8⟩ ∧
    readU (bufFrom 0 [0xA5]) 5 ⟨3, 8⟩ = .ok 5 ⟨8, 8⟩ ∧
    readUe 1 (bufFrom 0 [0x60]) ⟨0, 3⟩ = .ok 2 ⟨3, 3⟩ :=
  ⟨⟨_, rfl, by decide⟩, by decide, by decide, by decide⟩

/-- The last bit; the last 5 bits; the last codeword; one bit short of each; and the cap. -/
theorem witness_CursorOperationsComplete :
    (decoding [0xA5] 7).dec.cur.pos < (decoding [0xA5] 7).dec.cur.len ∧
    (decoding [0xA5] 3).dec.cur.pos + 5 ≤ (decoding [0xA5] 3).dec.cur.len ∧
    ((decoding [0x03] 5).dec.cur.pos + (ueBits 2).length ≤ (decoding [0x03] 5).dec.cur.len ∧
      2 + 2 ≤ 2 ^ ((decoding [0x03] 5).params.egMaxZeros.val + 1) ∧
      bitsFrom (decoding [0x03] 5).buf (decoding [0x03] 5).dec.cur.pos (ueBits 2).length = ueBits 2) ∧
    (decoding [0xA5] 8).dec.cur.len ≤ (decoding [0xA5] 8).dec.cur.pos ∧
    (decoding [0xA5] 4).dec.cur.len < (decoding [0xA5] 4).dec.cur.pos + 5 ∧
    (∃ c, readUe 32 (decoding [0x00] 0).buf (decoding [0x00] 0).dec.cur = .raised .outOfRange c) ∧
    (∃ c, readUe 7 (decoding [0x00] 0).buf (decoding [0x00] 0).dec.cur =
      .raised .malformedGolombCode c) :=
  ⟨by decide, by decide, by decide, by decide, by decide, ⟨⟨8, 8⟩, by decide⟩, ⟨⟨8, 8⟩, by decide⟩⟩

theorem witness_ReadWidthOver32IsRefused : 32 < 33 := by decide

/-- Every field of P has its bits, and the last ends at the end of the payload. -/
theorem witness_FixedWidthFieldsReadTheirSlots :
    (decoding payloadP 2).dec.cur.pos + 7 ≤ (decoding payloadP 2).dec.cur.len ∧
    (decoding payloadP 47).dec.cur.pos + 1 ≤ (decoding payloadP 47).dec.cur.len ∧
    (decoding payloadP 44).dec.cur.pos + 4 ≤ (decoding payloadP 44).dec.cur.len ∧
    (decoding payloadP 42).dec.cur.pos + 6 ≤ (decoding payloadP 42).dec.cur.len ∧
    (decoding payloadP 40).dec.cur.pos + 8 ≤ (decoding payloadP 40).dec.cur.len := by decide

theorem witness_ExpGolombFieldsReadTheirSlots :
    (decoding [0x03] 5).dec.cur.pos + (ueBits 2).length ≤ (decoding [0x03] 5).dec.cur.len ∧
    2 + 2 ≤ 2 ^ ((decoding [0x03] 5).params.egMaxZeros.val + 1) ∧
    bitsFrom (decoding [0x03] 5).buf (decoding [0x03] 5).dec.cur.pos (ueBits 2).length = ueBits 2 := by
  decide

theorem witness_FailingFieldReadAbortsTheUnit :
    (itemFormat .fpaType = some (.u 7) ∧
      (decoding [0x80] 2).dec.cur.len < (decoding [0x80] 2).dec.cur.pos + 7) ∧
    (itemFormat .fpaId = some .ue ∧
      readUe (decoding [0x00] 0).params.egMaxZeros (decoding [0x00] 0).buf
        (decoding [0x00] 0).dec.cur = .raised .outOfRange ⟨8, 8⟩) ∧
    (let s : State := { decoding [0x00] 0 with params := { Params.default with egMaxZeros := 7 } }
     itemFormat .fpaRepetitionPeriod = some .ue ∧
      readUe s.params.egMaxZeros s.buf s.dec.cur = .raised .malformedGolombCode ⟨8, 8⟩) := by decide

theorem witness_TrailerTakesTheRemainingBits :
    (decoding [0xE0] 8).dec.cur.pos ≤ (decoding [0xE0] 8).dec.cur.len ∧
    (decoding [0xE0] 3).dec.cur.pos ≤ (decoding [0xE0] 3).dec.cur.len := by decide

/-- L1-5: the bits of P are the bits of its fields, with no trailer. -/
theorem witness_FpaDecodeIsTheInverseOfItsEncoding :
    bitsFrom (bufFrom 0 payloadP) 0 48 = fpaBits (fieldsTo 18) ++ [] ∧
    decodeRecord Params.default (bufFrom 0 payloadP) 6 = okRecord 6 (fieldsTo 18) [] := by
  decide +kernel

theorem witness_GridIsReadExactlyWhenPresent :
    (decodeRecord Params.default (bufFrom 0 payloadP) 6).status = .fpaOk ∧
    (decodeRecord Params.default (bufFrom 0 payloadP) 6).fpa.cancelFlag = some 0 := by decide +kernel

theorem witness_DecodeIsTheRunOfItsItems :
    (decoding payloadP 0).dec = .start (decoding payloadP 0).ps ∧
    (decoding [0x80] 0).dec = .start (decoding [0x80] 0).ps := by decide

/-- The two examples of R109: payload 80 lacks the bits of `type`, and five bytes 00 exceed the
default cap in `id`. -/
theorem witness_FailedDecodeIsMalformed :
    (let s := decoding [0x80] 0
     s.dec = .start s.ps ∧ (decodeRecord s.params s.buf s.ps).status ≠ .fpaOk ∧
      decodeFields s.params s.buf s.dec = .raised .outOfRange
        { s.dec with cur := ⟨2, 8⟩, fpa := { FieldFile.empty with id := some 0, cancelFlag := some 0 } }) ∧
    (let s := decoding [0, 0, 0, 0, 0] 0
     s.dec = .start s.ps ∧ (decodeRecord s.params s.buf s.ps).status ≠ .fpaOk ∧
      decodeFields s.params s.buf s.dec = .raised .malformedGolombCode
        { s.dec with cur := ⟨33, 40⟩ }) := by decide +kernel

/-- Two states that differ in the dead registers of SCAN mode. -/
theorem witness_DeadRegistersAreNeverObserved :
    ∃ s t, SameLive s t ∧ s ≠ t ∧ ∃ u, step s = .next u := by
  refine ⟨scanState, { scanState with pt := 45, ps := 6, zc := 2, nOut := 6, buf := bufFrom 0 payloadP },
    ⟨rfl, rfl, rfl, rfl, rfl, rfl, fun _ => rfl, ?_, ?_, ?_, ?_, ?_, ?_⟩, ?_, _, rfl⟩
  all_goals simp [scanState, at', inUnit, State.reset, State.resetWith]

/-- Two states whose payload bytes and records differ. -/
theorem witness_ErrorsNeverChangeTheScan :
    ∃ s t, SameScan s t ∧ s ≠ t ∧ ∃ u, step s = .next u := by
  refine ⟨lastByte, { lastByte with buf := [] }, ⟨rfl, rfl, rfl, rfl, rfl, rfl, rfl, rfl, rfl, rfl, rfl,
    rfl, rfl⟩, ?_, _, rfl⟩
  simp [lastByte, bufFrom, Memory.cons, Memory.unwritten]

theorem witness_FiniteStreamEndsTheRun :
    let s := at' .scan (byteSymbols [0x12, 0x34, 0x56] ++ [.eos])
    s.fault = none ∧ s.mode ≠ .done ∧ s.params.accBits = none ∧ s.params.bufBytes = none := by decide

end Sys2Proof.Tests
end

section
/-! PROOFS. The tier 1 statements on codes, dispatch and the fault after the end. -/

namespace Sys2Proof.Machine

/-- Settles O4, constructor by constructor. -/
theorem numericCodesAreTheSpecs : Obligations.NumericCodesAreTheSpecs :=
  ⟨rfl, rfl, rfl, rfl, fun c => by cases c <;> decide⟩

/-- Settles O5: the decoder answers the selected operation on every symbol word, and the three laws
of `step` say the rest. -/
theorem stepRunsTheDecodedInstruction : Obligations.StepRunsTheDecodedInstruction :=
  ⟨fun s sym _ hf hi => ⟨selectSymbol s.ctx sym.word, rfl, step_symbol hf hi⟩,
    fun _ _ => step_faulted, fun _ => step_waiting⟩

/-- Settles O28: the fault register is the whole effect of DONE_ANY. -/
theorem symbolAfterEndIsAFault : Obligations.SymbolAfterEndIsAFault :=
  fun _ _ => rfl

end Sys2Proof.Machine
end

section
/-! PROOFS. The scanner's match state (spec/10_state.md R17, spec/41_nal_scanner.md R70 to R73):
`sc` follows `matchLen` byte by byte, and a byte in SCAN mode that begins no unit only moves `sc`. -/

namespace Sys2Proof.Machine

/-! ### The match length, byte by byte -/

theorem append_singleton_suffix (l bs : List Byte) (a b : Byte) :
    l ++ [a] <:+ bs ++ [b] ↔ b = a ∧ l <:+ bs := by
  rw [← List.reverse_prefix, List.reverse_append, List.reverse_append, List.reverse_singleton,
    List.reverse_singleton, List.singleton_append, List.singleton_append, List.cons_prefix_cons,
    List.reverse_prefix, eq_comm]

theorem startCode_suffix_append (bs : List Byte) (b : Byte) :
    [0x00, 0x00, 0x01] <:+ bs ++ [b] ↔ b = 0x01 ∧ [0x00, 0x00] <:+ bs :=
  append_singleton_suffix [0x00, 0x00] bs 0x01 b

theorem zeroZero_suffix_append (bs : List Byte) (b : Byte) :
    [0x00, 0x00] <:+ bs ++ [b] ↔ b = 0x00 ∧ [0x00] <:+ bs :=
  append_singleton_suffix [0x00] bs 0x00 b

theorem zero_suffix_append (bs : List Byte) (b : Byte) : [0x00] <:+ bs ++ [b] ↔ b = 0x00 := by
  simpa using append_singleton_suffix [] bs 0x00 b

theorem zero_suffix_of_zeroZero {bs : List Byte} (h : [0x00, 0x00] <:+ bs) : [0x00] <:+ bs :=
  List.IsSuffix.trans ⟨[0x00], rfl⟩ h

/-- A list ends in one byte only, so bytes that end in a start code do not end in a zero. -/
theorem not_zero_suffix_of_startCode {bs : List Byte} (h : [0x00, 0x00, 0x01] <:+ bs) :
    ¬ [0x00] <:+ bs := by
  obtain ⟨pre, rfl⟩ := h
  rw [show pre ++ [0x00, 0x00, 0x01] = (pre ++ [0x00, 0x00]) ++ [(0x01 : Byte)] by simp,
    zero_suffix_append]
  decide

@[simp] theorem matchLen_nil : matchLen [] = 0 := by decide

theorem startCode_suffix_iff (bs : List Byte) :
    [0x00, 0x00, 0x01] <:+ bs ↔ matchLen bs = 3 := by
  unfold matchLen
  split_ifs with h3
  · exact iff_of_true h3 rfl
  all_goals exact iff_of_false h3 (by decide)

theorem zeroZero_suffix_iff (bs : List Byte) : [0x00, 0x00] <:+ bs ↔ matchLen bs = 2 := by
  unfold matchLen
  split_ifs with h3 h2
  · exact iff_of_false (mt zero_suffix_of_zeroZero (not_zero_suffix_of_startCode h3)) (by decide)
  · exact iff_of_true h2 rfl
  all_goals exact iff_of_false h2 (by decide)

theorem zero_suffix_iff (bs : List Byte) :
    [0x00] <:+ bs ↔ matchLen bs = 1 ∨ matchLen bs = 2 := by
  unfold matchLen
  split_ifs with h3 h2 h1
  · exact iff_of_false (not_zero_suffix_of_startCode h3) (by decide)
  · exact iff_of_true (zero_suffix_of_zeroZero h2) (by decide)
  · exact iff_of_true h1 (by decide)
  · exact iff_of_false h1 (by decide)

/-- Appending a byte moves the match length as `ScNext` says, at 3 too. -/
theorem matchLen_append (bs : List Byte) (b : Byte) :
    matchLen (bs ++ [b]) = scNext (matchLen bs) b := by
  rw [matchLen]
  simp only [startCode_suffix_append, zeroZero_suffix_append, zero_suffix_append]
  simp only [zeroZero_suffix_iff, zero_suffix_iff]
  generalize matchLen bs = m
  by_cases h0 : b = 0x00
  · subst h0; revert m; decide
  by_cases h1 : b = 0x01
  · subst h1; revert m; decide
  · simp only [h0, h1, scNext, false_and, if_false, ite_self]

/-! ### A byte in SCAN mode -/

/-- A byte in SCAN mode that begins no unit only moves the match state, the header byte of R72 too:
R72 moves it as `ScNext` does at 3 (log 12). -/
theorem step_scanByte {s : State} {b : Byte} {rest : List Symbol} (hf : s.fault = none)
    (hm : s.mode = .scan) (hi : s.input = .byte b :: rest)
    (hb : ¬ (s.sc = 3 ∧ hdrIsSei s.params.hdrMatch b = true)) :
    step s = .next (scanByte b (s.consume rest)) := by
  by_cases hsc : s.sc = 3
  · have hh : hdrIsSei s.params.hdrMatch b = false := by simpa [hsc] using hb
    rw [step_of_end hf hi (.hdrOther b hm hsc hh), scanByte, State.consume_sc, hsc]
    rfl
  · exact step_of_end hf hi (.scan b hm hsc)

/-- An SEI header byte after a start code begins a unit (41_nal_scanner.md R71). -/
theorem step_beginUnit {s : State} {b : Byte} {rest : List Symbol} (hf : s.fault = none)
    (hm : s.mode = .scan) (hi : s.input = .byte b :: rest) (hsc : s.sc = 3)
    (hh : hdrIsSei s.params.hdrMatch b = true) : step s = .next (beginUnit (s.consume rest)) :=
  step_of_end hf hi (.hdrSei b hm hsc hh)

/-! ### Bytes without a unit -/

theorem NoUnit.of_append {m : HdrMatch} {bs : List Byte} {b : Byte} (h : NoUnit m (bs ++ [b])) :
    NoUnit m bs := by
  rintro pre x post rfl
  exact h pre x (post ++ [b]) (by simp)

/-- In bytes without a unit, a byte that follows a start code is no SEI header. -/
theorem NoUnit.hdr_false {m : HdrMatch} {bs : List Byte} {b : Byte} (h : NoUnit m (bs ++ [b]))
    (hsc : matchLen bs = 3) : hdrIsSei m b = false := by
  obtain ⟨pre, rfl⟩ := (startCode_suffix_iff bs).mpr hsc
  exact h pre b [] (by simp)

theorem byteSymbols_append_byte (bs : List Byte) (b : Byte) (rest : List Symbol) :
    byteSymbols (bs ++ [b]) ++ rest = byteSymbols bs ++ .byte b :: rest := by
  simp [byteSymbols]

/-- The state after the bytes of a stream that holds no unit: only `sc` and the port moved. -/
def State.scanned (s : State) (bs : List Byte) (rest : List Symbol) : State :=
  { s with sc := matchLen bs, inPos := s.inPos + bs.length, input := rest }

/-- Over bytes without a unit the scanner only moves `sc`, to the match length of the bytes. -/
theorem runSteps_noUnit {s : State} {bs : List Byte} {rest : List Symbol} (hf : s.fault = none)
    (hm : s.mode = .scan) (hsc : s.sc = 0) (hn : NoUnit s.params.hdrMatch bs)
    (hi : s.input = byteSymbols bs ++ rest) :
    runSteps bs.length s = .next (s.scanned bs rest) := by
  induction bs using List.reverseRecOn generalizing rest with
  | nil =>
    obtain rfl : s.input = rest := hi
    simp [State.scanned, ← hsc]
  | append_singleton bs b ih =>
    have hrun := ih hn.of_append (hi.trans (byteSymbols_append_byte bs b rest))
    have hb : ¬ (matchLen bs = 3 ∧ hdrIsSei s.params.hdrMatch b = true) := fun ⟨h3, hh⟩ => by
      simp [hn.hdr_false h3] at hh
    have hstep : step (s.scanned bs (.byte b :: rest)) = .next (s.scanned (bs ++ [b]) rest) := by
      rw [step_scanByte (s := s.scanned bs _) hf hm rfl hb]
      simp [State.scanned, scanByte, State.consume, matchLen_append, Nat.add_assoc]
    rw [List.length_append, List.length_singleton, runSteps_add hrun, runSteps_succ hstep,
      runSteps_zero]

/-- The byte after bytes without a unit begins one exactly when it is an SEI header after a start
code (41_nal_scanner.md R73). -/
theorem step_scanned {s : State} {bs : List Byte} {h : Byte} {rest : List Symbol}
    (hf : s.fault = none) (hm : s.mode = .scan) :
    ∃ t, step (s.scanned bs (.byte h :: rest)) = .next t ∧ t.input = rest ∧ t.out = s.out ∧
      t.mode = if [0x00, 0x00, 0x01] <:+ bs ∧ hdrIsSei s.params.hdrMatch h then .type else .scan := by
  simp only [startCode_suffix_iff]
  by_cases hu : matchLen bs = 3 ∧ hdrIsSei s.params.hdrMatch h = true
  · exact ⟨_, step_beginUnit hf hm rfl hu.1 hu.2, rfl, rfl, (if_pos hu).symm⟩
  · exact ⟨_, step_scanByte hf hm rfl hu, rfl, rfl, hm.trans (if_neg hu).symm⟩

/-- Settles O20, by induction on the bytes from the right: `sc` is the match length of the bytes
read so far. -/
theorem scannerFindsExactlyTheStartCodes : Obligations.ScannerFindsExactlyTheStartCodes := by
  intro s bs rest hf hm hsc hn
  refine ⟨runSteps_noUnit hf hm hsc hn, fun h hi => ?_⟩
  obtain ⟨t, ht, hin, hout, hmode⟩ := step_scanned (bs := bs) (h := h) (rest := rest) hf hm
  refine ⟨t, ?_, hin, hout, ?_⟩
  · rw [runSteps_add (runSteps_noUnit hf hm hsc hn hi), runSteps_succ ht, runSteps_zero]
  · rw [hmode]
    split_ifs with hu
    · exact ⟨iff_of_true rfl hu, iff_of_false nofun (not_not_intro hu)⟩
    · exact ⟨iff_of_false nofun hu, iff_of_true rfl hu⟩

end Sys2Proof.Machine
end

section
/-! PROOFS. The form of every record a step emits (spec/20_memory.md R41): the decode's record by a
postcondition carried through the fields in order, the other two from their definitions. -/

namespace Sys2Proof.Machine

/-! ### The values a field read can write -/

theorem readField_readU_ok {buf : Memory} {w : Nat} {set : Nat → FieldFile → FieldFile}
    {d d' : DecodeRegs} (h : readField (readU buf w d.cur) set d = .ok d') :
    ∃ v, v < 2 ^ w ∧ d'.fpa = set v d.fpa := by
  rcases readField_readU_cases buf w set d with ⟨_, e⟩ | ⟨_, e⟩ <;> rw [e] at h <;> cases h
  exact ⟨_, bitsValue_lt buf _ w, rfl⟩

/-- The value of `ue(v)` under a cap (40_bitcursor.md R67). -/
theorem readUe_ok_le {cap : Nat} {buf : Memory} {c c' : Cursor} {v : Nat}
    (h : readUe cap buf c = .ok v c') : v + 2 ≤ 2 ^ (cap + 1) := by
  have hend := readUe_cases cap buf c
  rw [h] at hend
  cases hend with
  | ok z hz hin hb =>
    have hlt := bitsValue_lt buf (c.pos + z + 1) z
    have hpow : 2 ^ z ≤ 2 ^ cap := Nat.pow_le_pow_right (by omega) hz
    rw [Nat.pow_succ]
    omega

theorem readField_readUe_ok {cap : Nat} {buf : Memory} {set : Nat → FieldFile → FieldFile}
    {d d' : DecodeRegs} (h : readField (readUe cap buf d.cur) set d = .ok d') :
    ∃ v, v + 2 ≤ 2 ^ (cap + 1) ∧ d'.fpa = set v d.fpa := by
  cases hr : readUe cap buf d.cur <;> rw [hr] at h <;> cases h
  exact ⟨_, readUe_ok_le hr, rfl⟩

/-! ### Postconditions of a decode -/

/-- A completed read leaves a field file with `Q`; a raised one has not written the extension flag,
the last field of the order (43_frame_packing.md R109). -/
def FieldRead.Ends (Q : FieldFile → Prop) : FieldRead → Prop
  | .ok d => Q d.fpa
  | .raised _ d => d.fpa.extensionFlag = none

theorem FieldRead.Ends.andThen {Q Q' : FieldFile → Prop} {r : FieldRead}
    {k : DecodeRegs → FieldRead} (h : r.Ends Q') (hk : ∀ d, Q' d.fpa → (k d).Ends Q) :
    (r.andThen k).Ends Q := by
  cases r with
  | ok d => exact hk d h
  | raised e d => exact h

theorem FieldRead.Ends.mono {Q Q' : FieldFile → Prop} {r : FieldRead} (h : r.Ends Q')
    (hQ : ∀ f, Q' f → Q f) : r.Ends Q := by
  cases r with
  | ok d => exact hQ _ h
  | raised e d => exact h

/-- A read that completes writes its slot with a value in a range, and nothing else. -/
theorem readField_ends {P : Nat → Prop} {r : Read} {set : Nat → FieldFile → FieldFile}
    {d : DecodeRegs} (hx : d.fpa.extensionFlag = none)
    (hok : ∀ d', readField r set d = .ok d' → ∃ v, P v ∧ d'.fpa = set v d.fpa) :
    (readField r set d).Ends fun f => ∃ v, P v ∧ f = set v d.fpa := by
  cases h : readField r set d with
  | ok d' => exact hok d' h
  | raised e d' => exact (congrArg _ (readField_raised_fpa h).1).trans hx

theorem readField_readU_ends {buf : Memory} {w : Nat} {set : Nat → FieldFile → FieldFile}
    {d : DecodeRegs} (hx : d.fpa.extensionFlag = none) :
    (readField (readU buf w d.cur) set d).Ends fun f => ∃ v, v < 2 ^ w ∧ f = set v d.fpa :=
  readField_ends hx fun _ => readField_readU_ok

theorem readField_readUe_ends {cap : Nat} {buf : Memory} {set : Nat → FieldFile → FieldFile}
    {d : DecodeRegs} (hx : d.fpa.extensionFlag = none) :
    (readField (readUe cap buf d.cur) set d).Ends fun f =>
      ∃ v, v + 2 ≤ 2 ^ (cap + 1) ∧ f = set v d.fpa :=
  readField_ends hx fun _ => readField_readUe_ok

/-- A decode goes on after a fixed-width field that is not the extension flag. -/
theorem readU_andThen_ends {buf : Memory} {w : Nat} {set : Nat → FieldFile → FieldFile}
    {d : DecodeRegs} {k : DecodeRegs → FieldRead} {Q : FieldFile → Prop}
    (hx : d.fpa.extensionFlag = none) (hset : ∀ v f, (set v f).extensionFlag = f.extensionFlag)
    (hk : ∀ v d', v < 2 ^ w → d'.fpa = set v d.fpa → d'.fpa.extensionFlag = none → (k d').Ends Q) :
    ((readField (readU buf w d.cur) set d).andThen k).Ends Q :=
  .andThen (readField_readU_ends hx) fun d' ⟨v, hv, h⟩ =>
    hk v d' hv h (by rw [h, hset, hx])

/-! ### The decode's parts -/

theorem gridPresent_iff (f : FieldFile) :
    gridPresent f = true ↔ f.quincunxSamplingFlag = some 0 ∧ f.arrangementType ≠ some 5 := by
  simp [gridPresent]

theorem gridPresent_eq_false_iff (f : FieldFile) :
    gridPresent f = false ↔ f.quincunxSamplingFlag ≠ some 0 ∨ f.arrangementType = some 5 := by
  rw [← Bool.not_eq_true, gridPresent_iff, not_and_or, not_not]

/-- The quartet is present exactly as R99 says of the slots beside it. -/
structure GridAsRead (f : FieldFile) : Prop where
  present : gridPresent f = true → GridSlotsPresent f
  absent : gridPresent f = false → GridSlotsAbsent f

/-- The slots read after the quartet do not matter to it. -/
theorem GridAsRead.extend {f : FieldFile} (h : GridAsRead f) (r p x : Option Nat) :
    GridAsRead { f with reservedByte := r, repetitionPeriod := p, extensionFlag := x } where
  present hg := { h.present hg with }
  absent hg := { h.absent hg with }

theorem decodeGrid_ends {buf : Memory} {d : DecodeRegs} (hx : d.fpa.extensionFlag = none)
    (ha : GridSlotsAbsent d.fpa) :
    (decodeGrid buf d).Ends fun f => GridAsRead f ∧
      ∃ g0 g1 g2 g3, f = { d.fpa with grid0 := g0, grid1 := g1, grid2 := g2, grid3 := g3 } := by
  unfold decodeGrid
  split_ifs with hg
  · refine readU_andThen_ends hx (fun _ _ => rfl) fun v0 d0 hv0 h0 hx => ?_
    refine readU_andThen_ends hx (fun _ _ => rfl) fun v1 d1 hv1 h1 hx => ?_
    refine readU_andThen_ends hx (fun _ _ => rfl) fun v2 d2 hv2 h2 hx => ?_
    refine .mono (readField_readU_ends hx) fun f ⟨v3, hv3, h3⟩ => ?_
    obtain rfl : f = { d.fpa with grid0 := some v0, grid1 := some v1, grid2 := some v2,
                                  grid3 := some v3 } := by simp only [h3, h2, h1, h0]
    exact ⟨⟨fun _ => ⟨⟨v0, rfl, hv0⟩, ⟨v1, rfl, hv1⟩, ⟨v2, rfl, hv2⟩, ⟨v3, rfl, hv3⟩⟩,
      fun h => absurd (hg.symm.trans h) (by decide)⟩, _, _, _, _, rfl⟩
  · exact ⟨⟨fun h => absurd h hg, fun _ => ha⟩, _, _, _, _, rfl⟩

/-- What the fields read when `cancel_flag == 0` leave of a field file f. -/
structure ArrangementRead (cap : Nat) (f f' : FieldFile) : Prop where
  id : f'.id = f.id
  cancelFlag : f'.cancelFlag = f.cancelFlag
  extensionFlag : f'.extensionFlag = none
  slots : ArrangementPresent cap f'
  grid : GridAsRead f'

theorem decodeArrangement_ends {p : Params} {buf : Memory} {d : DecodeRegs}
    (hx : d.fpa.extensionFlag = none) (ha : GridSlotsAbsent d.fpa) :
    (decodeArrangement p buf d).Ends (ArrangementRead p.egMaxZeros d.fpa) := by
  refine readU_andThen_ends hx (fun _ _ => rfl) fun v1 d1 hv1 h1 hx => ?_
  refine readU_andThen_ends hx (fun _ _ => rfl) fun v2 d2 hv2 h2 hx => ?_
  refine readU_andThen_ends hx (fun _ _ => rfl) fun v3 d3 hv3 h3 hx => ?_
  refine readU_andThen_ends hx (fun _ _ => rfl) fun v4 d4 hv4 h4 hx => ?_
  refine readU_andThen_ends hx (fun _ _ => rfl) fun v5 d5 hv5 h5 hx => ?_
  refine readU_andThen_ends hx (fun _ _ => rfl) fun v6 d6 hv6 h6 hx => ?_
  refine readU_andThen_ends hx (fun _ _ => rfl) fun v7 d7 hv7 h7 hx => ?_
  refine readU_andThen_ends hx (fun _ _ => rfl) fun v8 d8 hv8 h8 hx => ?_
  refine readU_andThen_ends hx (fun _ _ => rfl) fun v9 d9 hv9 h9 hx => ?_
  have h : d9.fpa = { d.fpa with
      arrangementType := some v1, quincunxSamplingFlag := some v2,
      contentInterpretationType := some v3, spatialFlipping := some v4, frame0Flipped := some v5,
      fieldViews := some v6, currentFrameIsFrame0 := some v7, frame0SelfContained := some v8,
      frame1SelfContained := some v9 } := by simp only [h9, h8, h7, h6, h5, h4, h3, h2, h1]
  have ha : GridSlotsAbsent d9.fpa := by rw [h]; exact ⟨ha.grid0, ha.grid1, ha.grid2, ha.grid3⟩
  refine .andThen (decodeGrid_ends hx ha) fun d10 ⟨hgrid, g0, g1, g2, g3, h10⟩ => ?_
  have hx : d10.fpa.extensionFlag = none := by rw [h10, hx]
  refine readU_andThen_ends hx (fun _ _ => rfl) fun v11 d11 hv11 h11 hx' => ?_
  refine .mono (readField_readUe_ends hx') fun f ⟨v12, hv12, h12⟩ => ?_
  obtain rfl : f = { d10.fpa with reservedByte := some v11, repetitionPeriod := some v12 } := by
    simp only [h12, h11]
  refine ⟨by simp only [h10, h], by simp only [h10, h], hx, ?_, hgrid.extend _ _ _⟩
  rw [h10, h]
  exact ⟨⟨v1, rfl, hv1⟩, ⟨v2, rfl, hv2⟩, ⟨v3, rfl, hv3⟩, ⟨v4, rfl, hv4⟩, ⟨v5, rfl, hv5⟩,
    ⟨v6, rfl, hv6⟩, ⟨v7, rfl, hv7⟩, ⟨v8, rfl, hv8⟩, ⟨v9, rfl, hv9⟩, ⟨v11, rfl, hv11⟩,
    ⟨v12, rfl, hv12⟩⟩

theorem ArrangementPresent.extend {cap : Nat} {f : FieldFile} (h : ArrangementPresent cap f)
    (x : Option Nat) : ArrangementPresent cap { f with extensionFlag := x } :=
  { h with }

/-- A message that is not cancelled: the extension flag is read after the arrangement. -/
theorem ArrangementRead.okShape {cap v : Nat} {f f' : FieldFile} (h : ArrangementRead cap f f')
    (hid : slotFitsUe cap f.id) (hc : f.cancelFlag = some 0) (hv : v < 2 ^ 1) :
    OkShape cap { f' with extensionFlag := some v } where
  id := by simpa only [h.id] using hid
  cancelFlag := .inl (h.cancelFlag.trans hc)
  arrangement _ := h.slots.extend _
  gridRead _ hq ht := (h.grid.extend _ _ _).present ((gridPresent_iff _).mpr ⟨hq, ht⟩)
  gridNotRead _ hn := (h.grid.extend _ _ _).absent ((gridPresent_eq_false_iff _).mpr hn)
  cancelled h1 := absurd ((h.cancelFlag.trans hc).symm.trans h1) (by decide)
  extensionFlag := ⟨v, rfl, hv⟩

/-- A cancelled message: the extension flag is read right after `cancel_flag`. -/
theorem okShape_cancelled {cap u v : Nat} (hu : u + 2 ≤ 2 ^ (cap + 1)) (hv : v < 2 ^ 1) :
    OkShape cap { FieldFile.empty with
      id := some u, cancelFlag := some 1, extensionFlag := some v } where
  id := ⟨u, rfl, hu⟩
  cancelFlag := .inr rfl
  arrangement h := by simp at h
  gridRead h := by simp at h
  gridNotRead h := by simp at h
  cancelled _ := ⟨rfl, rfl, rfl, rfl, rfl, rfl, rfl, rfl, rfl, ⟨rfl, rfl, rfl, rfl⟩, rfl, rfl⟩
  extensionFlag := ⟨v, rfl, hv⟩

/-- Everything the decode of a payload can leave (43_frame_packing.md R87, R108, R109). -/
theorem decodeFields_ends (p : Params) (buf : Memory) (ps : Nat) :
    (decodeFields p buf (.start ps)).Ends (OkShape p.egMaxZeros) := by
  refine .andThen (readField_readUe_ends rfl) fun d1 ⟨u, hu, h1⟩ => ?_
  refine .andThen (readField_readU_ends (by rw [h1]; rfl)) fun d2 ⟨c, hc, h2⟩ => ?_
  have h : d2.fpa = { FieldFile.empty with id := some u, cancelFlag := some c } := by
    rw [h2, h1]; rfl
  have hx : d2.fpa.extensionFlag = none := by rw [h]; rfl
  split_ifs with h0
  · have ha : GridSlotsAbsent d2.fpa := by rw [h]; exact ⟨rfl, rfl, rfl, rfl⟩
    refine .andThen (decodeArrangement_ends hx ha) fun d3 hd3 => ?_
    refine .mono (readField_readU_ends hd3.extensionFlag) ?_
    rintro f ⟨v, hv, rfl⟩
    exact hd3.okShape (by rw [h]; exact ⟨u, rfl, hu⟩) h0 hv
  · rw [andThen_ok]
    refine .mono (readField_readU_ends hx) ?_
    rintro f ⟨v, hv, rfl⟩
    have hc1 : c = 1 := by
      have : c ≠ 0 := by simpa [h] using h0
      omega
    rw [h, hc1]
    exact okShape_cancelled hu hv

/-! ### The records -/

theorem okRecord_form {cap : Nat} {f : FieldFile} (h : OkShape cap f) (ps : Nat) (t : List Bool) :
    RecordForm cap (okRecord ps f t) :=
  ⟨rfl, rfl, rfl, h⟩

theorem causeOf_ne_none (e : ErrKind) : causeOf e ≠ .none := by
  cases e <;> decide

theorem malformedRecord_form {cap : Nat} {f : FieldFile} (h : f.extensionFlag = none)
    (e : ErrKind) (ps : Nat) : RecordForm cap (malformedRecord e ps f) :=
  ⟨causeOf_ne_none e, rfl, rfl, h, rfl⟩

theorem skippedRecord_form {cap pt : Nat} (h : pt ≠ 45) (ps : Nat) :
    RecordForm cap (skippedRecord pt ps) :=
  ⟨rfl, ⟨pt, rfl, h⟩, rfl, rfl, rfl⟩

theorem truncatedRecord_form (cap : Nat) (m : Mode) (pt ps : Nat) :
    RecordForm cap (truncatedRecord m pt ps) := by
  refine ⟨rfl, fun h => ?_, rfl, rfl⟩
  cases m <;> simp_all [truncatedRecord]

theorem decodeRecord_form (p : Params) (buf : Memory) (ps : Nat) :
    RecordForm p.egMaxZeros (decodeRecord p buf ps) := by
  have hends := decodeFields_ends p buf ps
  rcases decodeRecord_cases p buf ps with ⟨d, hd, hr⟩ | ⟨e, d, hd, hr⟩
  · rw [hd] at hends
    exact hr ▸ okRecord_form hends ps _
  · rw [hd] at hends
    exact hr ▸ malformedRecord_form hends e ps

theorem payloadRecord_form (s : State) : RecordForm s.params.egMaxZeros (payloadRecord s) := by
  unfold payloadRecord
  split_ifs with h
  · exact decodeRecord_form s.params s.buf s.ps
  · exact skippedRecord_form h s.ps

end Sys2Proof.Machine
end

section
/-! PROOFS. The invariant (spec/10_state.md R20, R24; spec/42_payload_extractor.md R84, R86), one
lemma per shared operation, and then one per way a step ends. -/

namespace Sys2Proof.Machine

/-- The accumulators fit `P_ACC_BITS` (42_payload_extractor.md R84). -/
def AccFits (s : State) : Prop :=
  ∀ k, s.params.accBits = some k → s.pt < 2 ^ k ∧ s.ps < 2 ^ k

/-- Outside a unit the invariant says nothing of the open payload. -/
theorem Inv.of_not_inUnit {s : State} (hm : ¬ inUnit s.mode) (hbuf : Memory.wf s.buf = true)
    (hacc : AccFits s) (hdec : s.dec = .idle)
    (hrec : ∀ r ∈ s.out, RecordForm s.params.egMaxZeros r) : Inv s where
  bufWf := hbuf
  bufBelow h := absurd (.inr (.inr h)) hm
  copyOpen h := absurd (.inr (.inr h)) hm
  unitSc h := absurd h hm
  typePs h := absurd (.inl h) hm
  accFits := hacc
  bufFits h := absurd (.inr (.inr h)) hm
  noDecode := hdec
  records := hrec

theorem Inv.consume {s : State} (h : Inv s) (rest : List Symbol) : Inv (s.consume rest) :=
  { h with }

theorem Inv.raiseFault {s : State} (h : Inv s) (f : ModelFault) : Inv (s.raiseFault f) :=
  { h with }

theorem not_inUnit_scan : ¬ inUnit .scan := by simp [inUnit]

theorem not_inUnit_done : ¬ inUnit .done := by simp [inUnit]

/-- Outside a unit the match state is free. -/
theorem Inv.setSc {s : State} (h : Inv s) (hm : ¬ inUnit s.mode) (c : Fin 4) :
    Inv { s with sc := c } :=
  .of_not_inUnit hm h.bufWf h.accFits h.noDecode h.records

theorem Inv.setDone {s : State} (h : Inv s) : Inv { s with mode := .done } :=
  .of_not_inUnit not_inUnit_done h.bufWf h.accFits h.noDecode h.records

theorem records_emit {cap : Nat} {s : State} {r : Record}
    (h : ∀ x ∈ s.out, RecordForm cap x) (hr : RecordForm cap r) :
    ∀ x ∈ (s.emit r).out, RecordForm cap x := by
  rw [State.emit_out, List.forall_mem_append, List.forall_mem_singleton]
  exact ⟨h, hr⟩

/-- Finishing a payload asks nothing of the open payload (42_payload_extractor.md R82, R86). -/
theorem inv_finish {s : State} (hbuf : Memory.wf s.buf = true) (hacc : AccFits s)
    (hdec : s.dec = .idle) (hrec : ∀ r ∈ s.out, RecordForm s.params.egMaxZeros r) :
    Inv (finish s) :=
  .of_not_inUnit not_inUnit_scan hbuf hacc hdec (records_emit hrec (payloadRecord_form s))

theorem Inv.truncate {s : State} (h : Inv s) :
    Inv { s.emit (truncatedRecord s.mode s.pt s.ps) with mode := .done } :=
  .of_not_inUnit not_inUnit_done h.bufWf h.accFits h.noDecode
    (records_emit h.records (truncatedRecord_form _ s.mode s.pt s.ps))

theorem Inv.beginUnit {s : State} (h : Inv s) : Inv (beginUnit s) where
  bufWf := h.bufWf
  bufBelow hm := nomatch hm
  copyOpen hm := nomatch hm
  unitSc _ := rfl
  typePs _ := rfl
  accFits k _ := ⟨Nat.two_pow_pos k, Nat.two_pow_pos k⟩
  bufFits hm := nomatch hm
  noDecode := h.noDecode
  records := h.records

theorem Inv.typeByte {s : State} (h : Inv s) (hm : s.mode = .type) (b : Byte) :
    Inv (typeByte b s) := by
  have hacc (hfit : fitsAcc s.params (s.pt + b.toNat) = true) (k : Nat)
      (hk : s.params.accBits = some k) : s.pt + b.toNat < 2 ^ k ∧ s.ps < 2 ^ k :=
    ⟨(fitsAcc_iff _ _).mp hfit k hk, (h.accFits k hk).2⟩
  have hsc : s.sc = 0 := h.unitSc (.inl hm)
  rcases typeByte_cases b s with ⟨_, e⟩ | ⟨hfit, _, e⟩ | ⟨hfit, _, e⟩ <;> rw [e]
  · exact h.raiseFault _
  · exact { h with
      accFits := hacc hfit
      bufFits := fun hc => absurd (hm.symm.trans hc) (by decide) }
  · exact { h with
      bufBelow := nofun
      copyOpen := nofun
      unitSc := fun _ => hsc
      typePs := nofun
      accFits := hacc hfit
      bufFits := nofun }

theorem Inv.startPayload {s : State} (h : Inv s) (hm : s.mode = .size) : Inv (startPayload s) := by
  have hsc : s.sc = 0 := h.unitSc (.inr (.inl hm))
  rcases startPayload_cases s with ⟨_, e⟩ | ⟨_, _, e⟩ | ⟨hfit, hps, e⟩ <;> rw [e]
  · exact h.raiseFault _
  · exact inv_finish Memory.wf_nil h.accFits h.noDecode h.records
  · exact { h with
      bufWf := Memory.wf_nil
      bufBelow := fun _ a _ => Memory.read_nil a
      copyOpen := fun _ => Nat.pos_of_ne_zero hps
      unitSc := fun _ => hsc
      typePs := nofun
      bufFits := fun _ hpt n hn =>
        Nat.le_of_not_lt fun hlt => (fitsBuf_iff _ _ _).mp hfit ⟨hpt, n, hn, hlt⟩ }

/-- Adding to `payload_size` in SIZE mode, where it fits. -/
theorem Inv.setPs {s : State} (h : Inv s) (hm : s.mode = .size) {n : Nat}
    (hfit : fitsAcc s.params n = true) : Inv { s with ps := n } :=
  { h with
    copyOpen := fun hc => absurd (hm.symm.trans hc) (by decide)
    typePs := fun ht => absurd (hm.symm.trans ht) (by decide)
    accFits := fun k hk => ⟨(h.accFits k hk).1, (fitsAcc_iff _ _).mp hfit k hk⟩
    bufFits := fun hc => absurd (hm.symm.trans hc) (by decide) }

theorem Inv.sizeByte {s : State} (h : Inv s) (hm : s.mode = .size) (b : Byte) :
    Inv (sizeByte b s) := by
  rcases sizeByte_cases b s with ⟨_, e⟩ | ⟨hfit, _, e⟩ | ⟨hfit, _, e⟩ <;> rw [e]
  · exact h.raiseFault _
  · exact h.setPs hm hfit
  · exact (h.setPs hm hfit).startPayload hm

theorem Inv.copyByte {s : State} (h : Inv s) (hm : s.mode = .copy) (b : Byte) :
    Inv (copyByte b s) := by
  have hbuf : Memory.wf (storeByte b s).buf = true := Memory.wf_write h.bufWf s.nOut b
  rcases copyByte_cases b s with ⟨_, e⟩ | ⟨hmore, e⟩ <;> rw [e]
  · exact inv_finish hbuf h.accFits h.noDecode h.records
  · have hopen := h.copyOpen hm
    refine { h with
      bufWf := hbuf
      bufBelow := fun _ a (ha : s.nOut + 1 ≤ a) => ?_
      copyOpen := fun _ => show s.nOut + 1 < s.ps by omega }
    rw [storeByte_buf, Memory.read_write_other s.buf h.bufWf (by omega)]
    exact h.bufBelow hm a (by omega)

/-- Whatever way a step ends, it keeps the invariant. -/
theorem Inv.stepEnd {s t : State} {sym : Symbol} {rest : List Symbol} (h : Inv s)
    (he : StepEnd s (s.consume rest) sym t) : Inv t := by
  have hu : Inv (s.consume rest) := h.consume rest
  cases he with
  | scan b hm => exact hu.setSc (hm ▸ not_inUnit_scan) _
  | hdrSei b => exact hu.beginUnit
  | hdrOther b hm => exact hu.setSc (hm ▸ not_inUnit_scan) _
  | endScan => exact hu.setDone
  | type b hm => exact hu.typeByte hm b
  | size b hm => exact hu.sizeByte hm b
  | epb => exact { hu with }
  | copy b hm => exact hu.copyByte hm b
  | trunc => exact hu.truncate
  | done => exact hu.raiseFault _

/-- Settles O3: by the ways a step ends, each of which keeps the invariant. -/
theorem everyStepKeepsTheInvariant : Obligations.EveryStepKeepsTheInvariant := by
  intro s t h hstep
  obtain ⟨_, _, _, _, hend⟩ := step_next hstep
  exact h.stepEnd hend

end Sys2Proof.Machine
end

section
/-! PROOFS. The bit reads (spec/20_memory.md R34, R35; spec/40_bitcursor.md R64, R65). -/

namespace Sys2Proof.Machine

/-- Settles O34, by the two ways `read_bit` ends. -/
theorem readBitReturnsTheNextBit : Obligations.ReadBitReturnsTheNextBit :=
  fun buf c => ⟨fun h => by rw [readBit_of_lt h, bitAt_toNat], readBit_of_le⟩

/-- The value of w bits as the sum of R35, by induction from the front: the first bit is the most
significant. -/
theorem bitsValue_eq_sum (buf : Memory) (p w : Nat) :
    bitsValue buf p w =
      ((List.range w).map fun k => (bitAt buf (p + k)).toNat * 2 ^ (w - 1 - k)).sum := by
  induction w generalizing p with
  | zero => rfl
  | succ w ih =>
    have hk (k : Nat) : (bitAt buf (p + 1 + k)).toNat * 2 ^ (w - 1 - k) =
        (bitAt buf (p + (k + 1))).toNat * 2 ^ (w + 1 - 1 - (k + 1)) := by
      rw [show p + 1 + k = p + (k + 1) by omega, show w + 1 - 1 - (k + 1) = w - 1 - k by omega]
    rw [bitsValue_succ_front, ih, List.range_succ_eq_map, List.map_cons, List.sum_cons,
      List.map_map]
    simp only [hk]
    rfl

/-- Settles O35, by the two ways `read_u` ends. -/
theorem readUComposesMostSignificantFirst : Obligations.ReadUComposesMostSignificantFirst :=
  fun buf w c => ⟨fun h => by rw [readU_of_le h, bitsValue_eq_sum], readU_of_lt,
    readU_of_le (w := 0)⟩

end Sys2Proof.Machine
end

section
/-! PROOFS. The input port of a step (spec/20_memory.md R32): the step consumes one symbol, and the
operation it runs does not see the symbols that remain. -/

namespace Sys2Proof.Machine

/-- An operation leaves the input port, because it follows whatever port it is given. -/
theorem exec_port {i : Instr} {s t : State} (h : exec i s = .next t) :
    t.inPos = s.inPos ∧ t.input = s.input := by
  have hport : exec i s = .next (t.atPort s.inPos s.input) := exec_atPort h s.inPos s.input
  have ht : t = t.atPort s.inPos s.input := Host.Outcome.next.inj (h.symm.trans hport)
  exact ⟨(congrArg State.inPos ht :), (congrArg State.input ht :)⟩

/-- Settles O10: the operation runs behind the consumed symbol and leaves the port, and at another
port it does the same. -/
theorem stepConsumesOneSymbolWithoutLookahead :
    Obligations.StepConsumesOneSymbolWithoutLookahead := by
  intro s t h
  obtain ⟨sym, rest, hf, hi, -⟩ := step_next h
  have hexec : exec (selectSymbol s.ctx sym.word) (s.consume rest) = .next t :=
    (step_symbol hf hi).symm.trans h
  obtain ⟨hpos, hinput⟩ := exec_port hexec
  refine ⟨sym, by rw [hi, hinput, State.consume_input], hpos, hf, fun rest' => ?_⟩
  calc step { s with input := sym :: rest' }
      = exec (selectSymbol s.ctx sym.word) (s.consume rest') := step_symbol hf rfl
    _ = .next (t.atPort t.inPos rest') := hpos ▸ exec_atPort hexec (s.inPos + 1) rest'

end Sys2Proof.Machine
end

section
/-! PROOFS. The output log of a step (spec/20_memory.md R41, R42). -/

namespace Sys2Proof.Machine

/-- What a step from s to t does to the log. -/
inductive StepLog (s t : State) : Prop where
  /-- No unit ends, and nothing is emitted. -/
  | keep (hunit : inUnit s.mode → inUnit t.mode) (hout : t.out = s.out)
  /-- A payload is complete in v (42_payload_extractor.md R82). -/
  | finish (v : State) (hunit : inUnit s.mode) (ht : t = finish v)
      (hparams : v.params = s.params) (hout : v.out = s.out)
  /-- The stream ended inside the unit (42_payload_extractor.md R83). -/
  | truncate (hunit : inUnit s.mode) (hmode : t.mode = .done)
      (hout : t.out = s.out ++ [truncatedRecord s.mode s.pt s.ps])

/-- A step that leaves the mode and the log emits nothing. -/
theorem StepLog.of_same {s t : State} (hm : t.mode = s.mode) (ho : t.out = s.out) : StepLog s t :=
  .keep (fun h => hm ▸ h) ho

theorem stepLog_typeByte (b : Byte) (u : State) : StepLog u (typeByte b u) := by
  rcases typeByte_cases b u with ⟨_, e⟩ | ⟨_, _, e⟩ | ⟨_, _, e⟩ <;> rw [e]
  · exact .of_same rfl rfl
  · exact .of_same rfl rfl
  · exact .keep (fun _ => .inr (.inl rfl)) rfl

theorem stepLog_sizeByte (b : Byte) {u : State} (hm : u.mode = .size) :
    StepLog u (sizeByte b u) := by
  rcases sizeByte_cases b u with ⟨_, e⟩ | ⟨_, _, e⟩ | ⟨_, _, e⟩ <;> rw [e]
  · exact .of_same rfl rfl
  · exact .of_same rfl rfl
  · rcases startPayload_cases { u with ps := u.ps + b.toNat } with
      ⟨_, e⟩ | ⟨_, _, e⟩ | ⟨_, _, e⟩ <;> rw [e]
    · exact .of_same rfl rfl
    · exact .finish _ (.inr (.inl hm)) rfl rfl rfl
    · exact .keep (fun _ => .inr (.inr rfl)) rfl

theorem stepLog_copyByte (b : Byte) {u : State} (hm : u.mode = .copy) :
    StepLog u (copyByte b u) := by
  rcases copyByte_cases b u with ⟨_, e⟩ | ⟨_, e⟩ <;> rw [e]
  · exact .finish (storeByte b u) (.inr (.inr hm)) rfl rfl rfl
  · exact .of_same rfl rfl

/-- Consuming the symbol emits nothing and leaves the mode. -/
theorem StepLog.of_consume {s t : State} {rest : List Symbol}
    (h : StepLog (s.consume rest) t) : StepLog s t := by
  cases h with
  | keep hunit hout => exact .keep hunit hout
  | finish v hunit ht hparams hout => exact .finish v hunit ht hparams hout
  | truncate hunit hmode hout => exact .truncate hunit hmode hout

/-- Everything a step can do to the log. -/
theorem step_log {s t : State} (h : step s = .next t) : StepLog s t := by
  obtain ⟨_, rest, _, _, hend⟩ := step_next h
  refine .of_consume (rest := rest) ?_
  cases hend with
  | scan b => exact .of_same rfl rfl
  | hdrSei b => exact .keep (fun _ => .inl rfl) rfl
  | hdrOther b => exact .of_same rfl rfl
  | endScan hm => exact .keep (fun hu => absurd hu (hm ▸ not_inUnit_scan)) rfl
  | type b => exact stepLog_typeByte b _
  | size b hm => exact stepLog_sizeByte b hm
  | epb => exact .of_same rfl rfl
  | copy b hm => exact stepLog_copyByte b hm
  | trunc hm => exact .truncate hm rfl rfl
  | done => exact .of_same rfl rfl

/-- Settles O11, by what a step can do to the log: the two ways that emit a record leave the unit,
to SCAN or to DONE. -/
theorem stepEmitsOneRecordExactlyWhenAUnitEnds :
    Obligations.StepEmitsOneRecordExactlyWhenAUnitEnds := by
  intro s t h
  cases step_log h with
  | keep hunit hout => exact ⟨fun ⟨hs, ht⟩ => absurd (hunit hs) ht, fun _ => hout⟩
  | finish v hunit ht _ hout =>
    subst ht
    exact ⟨fun _ => ⟨payloadRecord v, by rw [finish_out, hout]⟩,
      fun hn => absurd ⟨hunit, not_inUnit_scan⟩ hn⟩
  | truncate hunit hmode hout =>
    exact ⟨fun _ => ⟨_, hout⟩, fun hn => absurd ⟨hunit, hmode ▸ not_inUnit_done⟩ hn⟩

/-! ### The presence of the fields in a record -/

/-- The record of a completed payload carries its type and size, whether it is decoded or skipped
(42_payload_extractor.md R82, 43_frame_packing.md R108, R109). -/
theorem payloadRecord_presence (v : State) :
    (payloadRecord v).status ≠ .truncated ∧ (payloadRecord v).payloadType = some v.pt ∧
      (payloadRecord v).payloadSize = some v.ps := by
  unfold payloadRecord
  split_ifs with h
  · rcases decodeRecord_cases v.params v.buf v.ps with ⟨d, _, e⟩ | ⟨k, d, _, e⟩ <;> rw [e, h]
    · exact ⟨nofun, rfl, rfl⟩
    · exact ⟨nofun, rfl, rfl⟩
  · exact ⟨nofun, rfl, rfl⟩

/-- A TRUNCATED record has its fields by the mode the stream ended in
(42_payload_extractor.md R83). -/
theorem truncatedRecord_presence (m : Mode) (pt ps : Nat) :
    ((truncatedRecord m pt ps).payloadType.isSome ↔ m = .size ∨ m = .copy) ∧
      ((truncatedRecord m pt ps).payloadSize.isSome ↔ m = .copy) := by
  cases m <;> simp [truncatedRecord]

/-- Settles O12, by what a step can do to the log: the record appended is that of a completed
payload or that of a truncated one. -/
theorem emittedRecordHasThePresenceOfItsStatus :
    Obligations.EmittedRecordHasThePresenceOfItsStatus := by
  intro s t r h hr
  cases step_log h with
  | keep _ hout => simp [hout] at hr
  | finish v _ ht hparams hout =>
    obtain rfl : payloadRecord v = r := by simpa [ht, hout] using hr
    obtain ⟨hstatus, hpt, hps⟩ := payloadRecord_presence v
    subst ht
    exact ⟨hparams ▸ payloadRecord_form v, fun hc => absurd hc hstatus,
      fun _ => ⟨hpt, hps, rfl⟩⟩
  | truncate _ hmode hout =>
    obtain rfl : truncatedRecord s.mode s.pt s.ps = r := by simpa [hout] using hr
    obtain ⟨hpt, hps⟩ := truncatedRecord_presence s.mode s.pt s.ps
    exact ⟨truncatedRecord_form _ _ _ _, fun _ => ⟨hpt, hps, hmode⟩, fun hn => absurd rfl hn⟩

end Sys2Proof.Machine
end

section
/-! PROOFS. The decoder and the encoder (spec/30_encoding.md R48, R51, R54 to R58). -/

namespace Sys2Proof.Machine

open Sys2Proof.Laws

/-- Settles O8, by the round trip of each instruction. -/
theorem decodeOfEncodeGivesTheInstruction : Obligations.DecodeOfEncodeGivesTheInstruction := by
  intro c i
  cases i with
  | scanHdrSeiLiteral => exact RoundTrip.scanHdrSeiLiteral c
  | scanHdrSeiTypemask b => exact RoundTrip.scanHdrSeiTypemask b c
  | scanHdrOther b => exact RoundTrip.scanHdrOther b c
  | scanZero => exact RoundTrip.scanZero c
  | scanOne => exact RoundTrip.scanOne c
  | scanOther b => exact RoundTrip.scanOther b c
  | endScan => exact RoundTrip.endScan c
  | typeCont => exact RoundTrip.typeCont c
  | typeLast b => exact RoundTrip.typeLast b c
  | sizeCont => exact RoundTrip.sizeCont c
  | sizeLast b => exact RoundTrip.sizeLast b c
  | copyEpb => exact RoundTrip.copyEpb c
  | copyData b => exact RoundTrip.copyData b c
  | endTrunc => exact RoundTrip.endTrunc c
  | doneAny sym => exact RoundTrip.doneAny sym c
  | readBit => exact RoundTrip.readBit c
  | readU w => exact RoundTrip.readU w c
  | readUe => exact RoundTrip.readUe c
  | decodeFpa => exact RoundTrip.decodeFpa c
  | fpaId => exact RoundTrip.fpaId c
  | fpaCancel => exact RoundTrip.fpaCancel c
  | fpaType => exact RoundTrip.fpaType c
  | fpaQuincunx => exact RoundTrip.fpaQuincunx c
  | fpaCit => exact RoundTrip.fpaCit c
  | fpaSpatialFlipping => exact RoundTrip.fpaSpatialFlipping c
  | fpaFrame0Flipped => exact RoundTrip.fpaFrame0Flipped c
  | fpaFieldViews => exact RoundTrip.fpaFieldViews c
  | fpaCurrentFrameIsFrame0 => exact RoundTrip.fpaCurrentFrameIsFrame0 c
  | fpaFrame0SelfContained => exact RoundTrip.fpaFrame0SelfContained c
  | fpaFrame1SelfContained => exact RoundTrip.fpaFrame1SelfContained c
  | fpaGrid0 => exact RoundTrip.fpaGrid0 c
  | fpaGrid1 => exact RoundTrip.fpaGrid1 c
  | fpaGrid2 => exact RoundTrip.fpaGrid2 c
  | fpaGrid3 => exact RoundTrip.fpaGrid3 c
  | fpaReservedByte => exact RoundTrip.fpaReservedByte c
  | fpaRepetitionPeriod => exact RoundTrip.fpaRepetitionPeriod c
  | fpaExtensionFlag => exact RoundTrip.fpaExtensionFlag c
  | fpaTrailer => exact RoundTrip.fpaTrailer c

/-- The conditions of a symbol row imply the operand checks that name no state. -/
theorem wellFormed_of_selectable {c : Ctx} {i : Instr} {w : SymWord} (hs : i.selectable c = true)
    (hw : encode i = .word w) : i.wellFormed = true := by
  cases i with
  | scanHdrSeiTypemask b =>
    simp only [Instr.selectable, Bool.and_eq_true] at hs
    exact hs.2
  | scanHdrOther b =>
    simp only [Instr.selectable, Bool.and_eq_true, Bool.not_eq_true'] at hs
    refine bne_iff_ne.mpr fun hb => ?_
    cases hm : c.hdrMatch <;> simp [hm, hb, hdrIsSei] at hs
  | scanOther b =>
    simp only [Instr.selectable, Bool.and_eq_true] at hs
    simp only [Instr.wellFormed, hs, Bool.and_self]
  | typeLast b =>
    simp only [Instr.selectable, Bool.and_eq_true] at hs
    exact hs.2
  | sizeLast b =>
    simp only [Instr.selectable, Bool.and_eq_true] at hs
    exact hs.2
  | readU n => cases hw
  | _ => rfl

/-- Settles O7: the selected row meets its word and condition, and a row that meets them is what its
word decodes to. -/
theorem everySymbolSelectsExactlyOneRow : Obligations.EverySymbolSelectsExactlyOneRow := by
  refine fun c sym i => ⟨fun ⟨hw, hs⟩ => ?_, ?_⟩
  · have h := decodeOfEncodeGivesTheInstruction c i (wellFormed_of_selectable hs hw) hs
    rw [hw] at h
    exact (Decoded.instr.inj h).symm
  · rintro rfl
    obtain ⟨hs, -, hw⟩ := selectSymbol_spec c sym
    exact ⟨hw, hs⟩

/-- Settles O6, by the selected operation of each mode. -/
theorem operationMapFollowsTheTable : Obligations.OperationMapFollowsTheTable := by
  intro c b
  have hscan (hm : c.mode = .scan) := select_scan_byte hm b
  refine ⟨fun hm hsc hh hl => ?_, fun hm hsc hh hl => ?_, fun hm hsc hh => ?_, fun hm hsc hb => ?_,
    fun hm hsc hb => ?_, fun hm hsc h0 h1 => ?_, select_scan_eos, fun hm hb => ?_, fun hm hb => ?_,
    fun hm hb => ?_, fun hm hb => ?_, fun hm hz hb => ?_, fun hm hn => ?_, select_unit_eos,
    fun hm sym => select_done hm sym⟩
  · rw [hscan hm, selectScan, if_pos hsc, if_pos hh, hl]
  · rw [hscan hm, selectScan, if_pos hsc, if_pos hh, hl]
  · rw [hscan hm, selectScan, if_pos hsc, if_neg hh]
  · rw [hscan hm, selectScan, if_neg (ne_of_lt hsc), if_pos hb]
  · rw [hscan hm, selectScan, if_neg (ne_of_lt hsc), if_neg (by rw [hb]; decide), if_pos hb]
  · rw [hscan hm, selectScan, if_neg (ne_of_lt hsc), if_neg h0, if_neg h1]
  · rw [select_type_byte hm, if_pos hb]
  · rw [select_type_byte hm, if_neg hb]
  · rw [select_size_byte hm, if_pos hb]
  · rw [select_size_byte hm, if_neg hb]
  · rw [select_copy_byte hm, if_pos ⟨hz, hb⟩]
  · rw [select_copy_byte hm, if_neg hn]

/-- Settles O9, by evaluating the decoder on the nine codes. -/
theorem writtenWordsDecodeToTheirRows : Obligations.WrittenWordsDecodeToTheirRows := by
  refine ⟨?_, ?_, ?_, ?_, ?_, ?_, ?_, ?_, ?_⟩ <;> decide

/-- Settles O15: the mask keeps the low 5 bits, which are the value modulo 32. -/
theorem headerTestIsLiteralOrMasked : Obligations.HeaderTestIsLiteralOrMasked := by
  intro h
  have hmask : (h &&& nalTypeMask).toNat = h.toNat % 32 := Nat.and_two_pow_sub_one_eq_mod h.toNat 5
  constructor
  · rw [hdrIsSei, beq_iff_eq, ← BitVec.toNat_inj]
    rfl
  · rw [hdrIsSei, beq_iff_eq, ← BitVec.toNat_inj, hmask]
    rfl

end Sys2Proof.Machine
end

section
/-! PROOFS. The codes of the bit reads (spec/30_encoding.md R54, R55; spec/40_bitcursor.md R65,
R66): `read_u` and `read_ue` return a value exactly where its code stands. -/

namespace Sys2Proof.Machine

/-- Settles O37: a read that returns has its bits, and re-encoding their value gives them. -/
theorem readUThenReencodeGivesTheBits : Obligations.ReadUThenReencodeGivesTheBits := by
  intro buf w c c' v h
  rcases readU_cases buf w c with ⟨_, e⟩ | ⟨_, e⟩ <;> rw [e] at h <;> cases h
  exact ⟨uBits_bitsValue buf c.pos w, bitsValue_lt buf c.pos w⟩

/-! ### The codeword of `ue(v)` -/

theorem ueBits_length (v : Nat) : (ueBits v).length = 2 * Nat.log2 (v + 1) + 1 := by
  rw [ueBits, List.length_append, List.length_replicate, List.length_cons, uBits_length]
  omega

/-- The codeword of the value that z zeros and a z-bit suffix stand for. -/
theorem ueBits_of_suffix {z x : Nat} (hx : x < 2 ^ z) :
    ueBits (2 ^ z - 1 + x) = List.replicate z false ++ true :: uBits z x := by
  have hpos : 0 < 2 ^ z := Nat.two_pow_pos z
  have hv : 2 ^ z - 1 + x + 1 = 2 ^ z + x := by omega
  have hlog : Nat.log2 (2 ^ z + x) = z :=
    (Nat.log2_eq_iff (by omega)).mpr ⟨by omega, by rw [Nat.pow_succ]; omega⟩
  rw [ueBits, hv, hlog, Nat.add_sub_cancel_left]

theorem length_ueBits_of_suffix {z x : Nat} (hx : x < 2 ^ z) :
    (ueBits (2 ^ z - 1 + x)).length = z + 1 + z := by
  rw [ueBits_of_suffix hx, List.length_append, List.length_replicate, List.length_cons,
    uBits_length]
  omega

/-- Every value is that of a zero run and a suffix. -/
theorem exists_zeros_suffix (v : Nat) : ∃ z x, x < 2 ^ z ∧ v = 2 ^ z - 1 + x := by
  have hle : 2 ^ Nat.log2 (v + 1) ≤ v + 1 := Nat.log2_self_le (by omega)
  have hlt : v + 1 < 2 ^ (Nat.log2 (v + 1) + 1) := Nat.lt_log2_self
  rw [Nat.pow_succ] at hlt
  have hpos : 0 < 2 ^ Nat.log2 (v + 1) := Nat.two_pow_pos _
  exact ⟨Nat.log2 (v + 1), v + 1 - 2 ^ Nat.log2 (v + 1), by omega, by omega⟩

/-- Bits that begin with z zeros and a one, and with n zeros, have at most z zeros there. -/
theorem zeros_le_of_one {buf : Memory} {p z n : Nat}
    (hone : bitsFrom buf p (z + 1) = List.replicate z false ++ [true])
    (hz : bitsFrom buf p n = List.replicate n false) : n ≤ z := by
  by_contra hlt
  have h1 : some (bitAt buf (p + z)) = some true := by
    rw [← bitsFrom_getElem? buf p (z + 1) z (by omega), hone, List.getElem?_append_right (by simp)]
    simp
  have h0 : some (bitAt buf (p + z)) = some false := by
    rw [← bitsFrom_getElem? buf p n z (by omega), hz, List.getElem?_replicate_of_lt (by omega)]
  exact absurd (h1.symm.trans h0) (by decide)

theorem zeros_of_one {buf : Memory} {p z : Nat}
    (h : bitsFrom buf p (z + 1) = List.replicate z false ++ [true]) :
    bitsFrom buf p z = List.replicate z false :=
  (List.append_inj ((bitsFrom_add buf p z 1).symm.trans h) (by simp)).1

/-! ### `read_ue` -/

/-- A value that `read_ue` returns has its codeword at the cursor, which moves past it. -/
theorem readUe_ok_codeword {cap : Nat} {buf : Memory} {c c' : Cursor} {v : Nat}
    (h : readUe cap buf c = .ok v c') :
    c' = { c with pos := c.pos + (ueBits v).length } ∧ c.pos + (ueBits v).length ≤ c.len ∧
      bitsFrom buf c.pos (ueBits v).length = ueBits v := by
  have hend := readUe_cases cap buf c
  rw [h] at hend
  cases hend with
  | ok z hz hin hb =>
    have hx := bitsValue_lt buf (c.pos + z + 1) z
    rw [show 2 * z + 1 = z + 1 + z by omega] at hin ⊢
    rw [length_ueBits_of_suffix hx]
    refine ⟨rfl, hin, ?_⟩
    rw [ueBits_of_suffix hx, uBits_bitsValue, bitsFrom_add, hb, List.append_assoc]
    rfl

/-- `read_ue` returns a value within the cap whose codeword stands at the cursor. -/
theorem readUe_of_codeword {cap : Nat} {buf : Memory} {c : Cursor} {v : Nat}
    (hin : c.pos + (ueBits v).length ≤ c.len) (hcap : v + 2 ≤ 2 ^ (cap + 1))
    (hbits : bitsFrom buf c.pos (ueBits v).length = ueBits v) :
    readUe cap buf c = .ok v { c with pos := c.pos + (ueBits v).length } := by
  obtain ⟨z, x, hx, rfl⟩ := exists_zeros_suffix v
  have hword : ueBits (2 ^ z - 1 + x) = (List.replicate z false ++ [true]) ++ uBits z x := by
    rw [ueBits_of_suffix hx, List.append_assoc]
    rfl
  rw [length_ueBits_of_suffix hx] at hin hbits ⊢
  rw [hword, bitsFrom_add] at hbits
  obtain ⟨hone, hsuffix⟩ := List.append_inj hbits (by simp)
  have hzcap : z ≤ cap := by
    by_contra hlt
    have hpow : 2 ^ (cap + 1) ≤ 2 ^ z := Nat.pow_le_pow_right (by omega) (by omega)
    omega
  have hend := readUe_cases cap buf c
  generalize readUe cap buf c = r at hend
  cases hend with
  | ok z' _ _ hb =>
    obtain rfl : z' = z := le_antisymm (zeros_le_of_one hone (zeros_of_one hb))
      (zeros_le_of_one hb (zeros_of_one hone))
    rw [show c.pos + z' + 1 = c.pos + (z' + 1) by omega, bitsValue_of_uBits hx hsuffix,
      show 2 * z' + 1 = z' + 1 + z' by omega]
  | run z' _ hstop hb =>
    have := zeros_le_of_one hone hb
    omega
  | suffix z' _ _ hstop hb =>
    have := zeros_le_of_one hone (zeros_of_one hb)
    omega
  | cap _ hb =>
    have := zeros_le_of_one hone hb
    omega

/-- Settles O38, by the two directions above. -/
theorem readUeReadsExactlyTheCodewords : Obligations.ReadUeReadsExactlyTheCodewords := by
  refine fun cap buf c v _ => ⟨⟨fun h => ?_, fun ⟨hin, hcap, hbits⟩ => ?_⟩, fun c' h => ?_,
    ueBits_length v⟩
  · obtain ⟨-, hin, hbits⟩ := readUe_ok_codeword h
    exact ⟨hin, readUe_ok_le h, hbits⟩
  · exact readUe_of_codeword hin hcap hbits
  · exact (readUe_ok_codeword h).1

end Sys2Proof.Machine
end

section
/-! PROOFS. The grammar's table (spec/30_encoding.md R56) as data, and what ties it to the model:
the decode, the encoding and the choice of the next item each follow the table. -/

namespace Sys2Proof.Machine

/-! ### The table -/

/-- One row of R56: the item, the width of its `u(w)` (or none for `ue(v)`), its condition on the
fields read before it, and its slot in the field file. -/
structure Item where
  instr : Instr
  width : Option Nat
  needed : FieldFile → Bool
  slot : FieldFile → Option Nat
  put : Option Nat → FieldFile → FieldFile

/-- Present in every frame packing arrangement. -/
def always (_ : FieldFile) : Bool := true

/-- Present where `cancel_flag == 0`. -/
def notCancelled (f : FieldFile) : Bool := f.cancelFlag == some 0

/-- Present where `cancel_flag == 0` and `GridPresent` (43_frame_packing.md R99). -/
def hasGrid (f : FieldFile) : Bool := notCancelled f && gridPresent f

/-- R88, R89. -/
def headerItems : List Item :=
  [⟨.fpaId, none, always, (·.id), fun o f => { f with id := o }⟩,
   ⟨.fpaCancel, some 1, always, (·.cancelFlag), fun o f => { f with cancelFlag := o }⟩]

/-- R90 to R98. -/
def layoutItems : List Item :=
  [⟨.fpaType, some 7, notCancelled, (·.arrangementType),
      fun o f => { f with arrangementType := o }⟩,
   ⟨.fpaQuincunx, some 1, notCancelled, (·.quincunxSamplingFlag),
      fun o f => { f with quincunxSamplingFlag := o }⟩,
   ⟨.fpaCit, some 6, notCancelled, (·.contentInterpretationType),
      fun o f => { f with contentInterpretationType := o }⟩,
   ⟨.fpaSpatialFlipping, some 1, notCancelled, (·.spatialFlipping),
      fun o f => { f with spatialFlipping := o }⟩,
   ⟨.fpaFrame0Flipped, some 1, notCancelled, (·.frame0Flipped),
      fun o f => { f with frame0Flipped := o }⟩,
   ⟨.fpaFieldViews, some 1, notCancelled, (·.fieldViews),
      fun o f => { f with fieldViews := o }⟩,
   ⟨.fpaCurrentFrameIsFrame0, some 1, notCancelled, (·.currentFrameIsFrame0),
      fun o f => { f with currentFrameIsFrame0 := o }⟩,
   ⟨.fpaFrame0SelfContained, some 1, notCancelled, (·.frame0SelfContained),
      fun o f => { f with frame0SelfContained := o }⟩,
   ⟨.fpaFrame1SelfContained, some 1, notCancelled, (·.frame1SelfContained),
      fun o f => { f with frame1SelfContained := o }⟩]

/-- The grid quartet, R100 to R103. -/
def gridItems : List Item :=
  [⟨.fpaGrid0, some 4, hasGrid, (·.grid0), fun o f => { f with grid0 := o }⟩,
   ⟨.fpaGrid1, some 4, hasGrid, (·.grid1), fun o f => { f with grid1 := o }⟩,
   ⟨.fpaGrid2, some 4, hasGrid, (·.grid2), fun o f => { f with grid2 := o }⟩,
   ⟨.fpaGrid3, some 4, hasGrid, (·.grid3), fun o f => { f with grid3 := o }⟩]

/-- R104, R105. -/
def periodItems : List Item :=
  [⟨.fpaReservedByte, some 8, notCancelled, (·.reservedByte),
      fun o f => { f with reservedByte := o }⟩,
   ⟨.fpaRepetitionPeriod, none, notCancelled, (·.repetitionPeriod),
      fun o f => { f with repetitionPeriod := o }⟩]

/-- R106. -/
def flagItems : List Item :=
  [⟨.fpaExtensionFlag, some 1, always, (·.extensionFlag),
      fun o f => { f with extensionFlag := o }⟩]

/-- The rows between `cancel_flag` and the extension flag. -/
def arrangementItems : List Item := layoutItems ++ (gridItems ++ periodItems)

/-- The table of R56, in its order. -/
def fpaItems : List Item := headerItems ++ (arrangementItems ++ flagItems)

/-! ### The laws of the table -/

/-- A row's slot is one field of the field file, on which its own condition does not depend. -/
structure Item.Lawful (it : Item) : Prop where
  slot_put : ∀ o f, it.slot (it.put o f) = o
  put_slot : ∀ f, it.put (it.slot f) f = f
  needed_put : ∀ o f, it.needed (it.put o f) = it.needed f

theorem fpaItems_lawful : ∀ it ∈ fpaItems, it.Lawful := by
  intro it h
  fin_cases h <;> exact ⟨fun _ _ => rfl, fun _ => rfl, fun _ _ => rfl⟩

/-- Two rows in the table's order have different slots, and the earlier row's condition does not
depend on the later row's slot. -/
structure Item.Before (a b : Item) : Prop where
  slot_put_later : ∀ o f, a.slot (b.put o f) = a.slot f
  slot_put_earlier : ∀ o f, b.slot (a.put o f) = b.slot f
  needed_put_later : ∀ o f, a.needed (b.put o f) = a.needed f

theorem fpaItems_ordered : fpaItems.Pairwise Item.Before := by
  simp only [fpaItems, headerItems, arrangementItems, layoutItems, gridItems, periodItems,
    flagItems, List.cons_append, List.nil_append, List.pairwise_cons, List.forall_mem_cons,
    List.not_mem_nil, IsEmpty.forall_iff, implies_true, List.Pairwise.nil, and_true]
  repeat' apply And.intro
  all_goals exact ⟨fun _ _ => rfl, fun _ _ => rfl, fun _ _ => rfl⟩

/-- The laws of a row and its neighbours, wherever the table is cut. -/
theorem fpaItems_split {done l : List Item} {it : Item} (h : done ++ it :: l = fpaItems) :
    it.Lawful ∧ (∀ a ∈ done, a.Before it) ∧ ∀ b ∈ l, it.Before b := by
  have hord := fpaItems_ordered
  rw [← h, List.pairwise_append] at hord
  obtain ⟨-, htail, hcross⟩ := hord
  exact ⟨fpaItems_lawful it (h ▸ List.mem_append_right done List.mem_cons_self),
    fun a ha => hcross a ha it List.mem_cons_self, (List.pairwise_cons.mp htail).1⟩

/-! ### Reading the rows in order -/

/-- The bits of a row's value. -/
def Item.enc (it : Item) : Nat → List Bool :=
  match it.width with
  | some w => uBits w
  | none => ueBits

/-- The values a row can hold, under a cap. -/
def Item.Fits (cap : Nat) (it : Item) (v : Nat) : Prop :=
  match it.width with
  | some w => v < 2 ^ w
  | none => v + 2 ≤ 2 ^ (cap + 1)

/-- The read a row issues. -/
def Item.read (p : Params) (buf : Memory) (it : Item) (d : DecodeRegs) : FieldRead :=
  readField
    (match it.width with
      | some w => readU buf w d.cur
      | none => readUe p.egMaxZeros buf d.cur)
    (fun v => it.put (some v)) d

/-- Every row read, whatever its condition. -/
def readAll (p : Params) (buf : Memory) : List Item → DecodeRegs → FieldRead
  | [] => .ok
  | it :: l => fun d => (it.read p buf d).andThen (readAll p buf l)

/-- The rows read in order, each where its condition holds of the fields before it. -/
def readItems (p : Params) (buf : Memory) : List Item → DecodeRegs → FieldRead
  | [], d => .ok d
  | it :: l, d =>
    if it.needed d.fpa then (it.read p buf d).andThen (readItems p buf l) else readItems p buf l d

/-- The bits of the rows' present fields, in order. -/
def itemsBits (l : List Item) (f : FieldFile) : List Bool :=
  l.flatMap fun it => fieldBits it.enc (it.slot f)

variable {p : Params} {buf : Memory}

theorem andThen_assoc (r : FieldRead) (k k' : DecodeRegs → FieldRead) :
    (r.andThen k).andThen k' = r.andThen fun d => (k d).andThen k' := by
  cases r <;> rfl

theorem andThen_ok_right (r : FieldRead) : r.andThen .ok = r := by
  cases r <;> rfl

/-- What follows a read is only asked at the registers it can leave. -/
theorem andThen_congr {r : FieldRead} {k k' : DecodeRegs → FieldRead}
    (h : ∀ d, r = .ok d → k d = k' d) : r.andThen k = r.andThen k' := by
  cases r with
  | ok d => exact h d rfl
  | raised e d => rfl

theorem readItems_append (l l' : List Item) (d : DecodeRegs) :
    readItems p buf (l ++ l') d = (readItems p buf l d).andThen (readItems p buf l') := by
  induction l generalizing d with
  | nil => rfl
  | cons it l ih =>
    rw [List.cons_append, readItems, readItems]
    split_ifs
    · rw [andThen_assoc, andThen_congr fun d' _ => ih d']
    · exact ih d

theorem Item.read_ok {it : Item} {d d' : DecodeRegs} (h : it.read p buf d = .ok d') :
    ∃ v, d'.fpa = it.put (some v) d.fpa :=
  readField_ok_fpa h rfl

/-- Reading rows keeps whatever their slots do not matter to. -/
theorem readItems_keeps {α : Type} {g : FieldFile → α} {l : List Item} {d d' : DecodeRegs}
    (hg : ∀ it ∈ l, ∀ o f, g (it.put o f) = g f) (h : readItems p buf l d = .ok d') :
    g d'.fpa = g d.fpa := by
  induction l generalizing d with
  | nil => cases h; rfl
  | cons it l ih =>
    rw [List.forall_mem_cons] at hg
    rw [readItems] at h
    split_ifs at h
    · obtain ⟨d1, h1, h⟩ := andThen_eq_ok.mp h
      obtain ⟨v, hv⟩ := Item.read_ok h1
      rw [ih hg.2 h, hv, hg.1]
    · exact ih hg.2 h

/-- The rows of one condition that their slots do not matter to are all read, or none is. -/
theorem readItems_group {g : FieldFile → Bool} {l : List Item}
    (hl : ∀ it ∈ l, it.needed = g ∧ ∀ o f, g (it.put o f) = g f) (d : DecodeRegs) :
    readItems p buf l d = if g d.fpa then readAll p buf l d else .ok d := by
  induction l generalizing d with
  | nil => simp [readItems, readAll]
  | cons it l ih =>
    obtain ⟨⟨hn, hput⟩, hl⟩ := List.forall_mem_cons.mp hl
    rw [readItems, hn, readAll, ih hl]
    split_ifs with hd
    · refine andThen_congr fun d1 h1 => ?_
      obtain ⟨v, hv⟩ := Item.read_ok h1
      rw [ih hl, hv, hput, if_pos hd]
    · rfl

/-! ### The model follows the table -/

theorem headerItems_always (d : DecodeRegs) :
    readItems p buf headerItems d = readAll p buf headerItems d :=
  readItems_group (g := always) (by simp [headerItems, always]) d

theorem layoutItems_notCancelled (d : DecodeRegs) :
    readItems p buf layoutItems d =
      if notCancelled d.fpa then readAll p buf layoutItems d else .ok d :=
  readItems_group (by simp [layoutItems, notCancelled]) d

theorem gridItems_hasGrid (d : DecodeRegs) :
    readItems p buf gridItems d = if hasGrid d.fpa then readAll p buf gridItems d else .ok d :=
  readItems_group (by simp [gridItems, hasGrid, notCancelled, gridPresent]) d

theorem periodItems_notCancelled (d : DecodeRegs) :
    readItems p buf periodItems d =
      if notCancelled d.fpa then readAll p buf periodItems d else .ok d :=
  readItems_group (by simp [periodItems, notCancelled]) d

theorem flagItems_always (d : DecodeRegs) :
    readItems p buf flagItems d = readAll p buf flagItems d :=
  readItems_group (g := always) (by simp [flagItems, always]) d

theorem decodeGrid_eq (d : DecodeRegs) :
    decodeGrid buf d = if gridPresent d.fpa then readAll p buf gridItems d else .ok d := by
  simp only [gridItems, readAll, andThen_ok_right]
  rfl

theorem decodeArrangement_eq (d : DecodeRegs) :
    decodeArrangement p buf d = (readAll p buf layoutItems d).andThen fun d =>
      (decodeGrid buf d).andThen (readAll p buf periodItems) := by
  simp only [layoutItems, periodItems, readAll, andThen_assoc, andThen_ok_right]
  rfl

theorem decodeFields_eq (d : DecodeRegs) :
    decodeFields p buf d = (readAll p buf headerItems d).andThen fun d =>
      (if notCancelled d.fpa then decodeArrangement p buf d else .ok d).andThen
        (readAll p buf flagItems) := by
  simp only [headerItems, flagItems, readAll, andThen_assoc, andThen_ok_right, notCancelled,
    beq_iff_eq]
  rfl

theorem decodeGrid_eq_readItems {d : DecodeRegs} (hc : notCancelled d.fpa = true) :
    decodeGrid buf d = readItems p buf gridItems d := by
  rw [gridItems_hasGrid, decodeGrid_eq, hasGrid, hc, Bool.true_and]

theorem decodeArrangement_eq_readItems {d : DecodeRegs} (hc : notCancelled d.fpa = true) :
    decodeArrangement p buf d = readItems p buf arrangementItems d := by
  have hlayout : readItems p buf layoutItems d = readAll p buf layoutItems d := by
    rw [layoutItems_notCancelled, if_pos hc]
  rw [decodeArrangement_eq, arrangementItems, readItems_append, hlayout]
  refine andThen_congr fun d1 h1 => ?_
  have hc1 : notCancelled d1.fpa = true :=
    (readItems_keeps (by simp [layoutItems, notCancelled]) (hlayout.trans h1)).trans hc
  rw [readItems_append, decodeGrid_eq_readItems hc1]
  refine andThen_congr fun d2 h2 => ?_
  have hc2 : notCancelled d2.fpa = true :=
    (readItems_keeps (by simp [gridItems, notCancelled]) h2).trans hc1
  rw [periodItems_notCancelled, if_pos hc2]

/-- Of a cancelled message no row of the arrangement is read. -/
theorem readItems_arrangement_cancelled {d : DecodeRegs} (hc : notCancelled d.fpa = false) :
    readItems p buf arrangementItems d = .ok d := by
  simp [arrangementItems, readItems_append, layoutItems_notCancelled, gridItems_hasGrid,
    periodItems_notCancelled, hasGrid, hc]

/-- The decode reads the table (43_frame_packing.md R87). -/
theorem decodeFields_eq_readItems (d : DecodeRegs) :
    decodeFields p buf d = readItems p buf fpaItems d := by
  rw [decodeFields_eq, fpaItems, readItems_append, headerItems_always]
  refine andThen_congr fun d1 _ => ?_
  rw [readItems_append, andThen_congr fun d2 _ => flagItems_always d2]
  congr 1
  cases hc : notCancelled d1.fpa
  · exact (readItems_arrangement_cancelled hc).symm
  · exact decodeArrangement_eq_readItems hc

/-- The encoding is the bits of the table's rows. -/
theorem fpaBits_eq (f : FieldFile) : fpaBits f = itemsBits fpaItems f := by
  simp only [fpaBits, itemsBits, fpaItems, arrangementItems, headerItems, layoutItems, gridItems,
    periodItems, flagItems, List.cons_append, List.nil_append, List.flatMap_cons, List.flatMap_nil,
    List.append_nil, List.append_assoc]
  rfl

/-- A row that the grammar has still to read. -/
abbrev Item.Missing (f : FieldFile) (it : Item) : Prop := it.needed f = true ∧ it.slot f = none

/-- The first row still to read, or the trailer. -/
def firstItem (f : FieldFile) : List Item → Instr
  | [] => .fpaTrailer
  | it :: l => if it.Missing f then it.instr else firstItem f l

/-- The item the grammar reads next is the first row still to read. -/
theorem grammarNext_eq (f : FieldFile) : grammarNext f = firstItem f fpaItems := by
  simp only [fpaItems, arrangementItems, headerItems, layoutItems, gridItems, periodItems,
    flagItems, List.cons_append, List.nil_append, firstItem, Item.Missing, always, notCancelled,
    hasGrid, true_and, beq_iff_eq, Bool.and_eq_true, and_assoc, grammarNext]

theorem firstItem_append {f : FieldFile} {done : List Item} (l : List Item)
    (h : ∀ a ∈ done, ¬ a.Missing f) :
    firstItem f (done ++ l) = firstItem f l := by
  induction done with
  | nil => rfl
  | cons a done ih =>
    obtain ⟨ha, hdone⟩ := List.forall_mem_cons.mp h
    rw [List.cons_append, firstItem, if_neg ha, ih hdone]

/-- The operation of a row is its read (43_frame_packing.md R88 to R106). -/
theorem exec_item (s : State) :
    ∀ it ∈ fpaItems, exec it.instr s = runField (it.read s.params s.buf s.dec) s := by
  intro it h
  fin_cases h <;> rfl

end Sys2Proof.Machine
end

section
/-! PROOFS. The decode and the encoding of a frame packing arrangement are inverse
(spec/30_encoding.md R56, spec/43_frame_packing.md R87, R108), row by row of the table. -/

namespace Sys2Proof.Machine

/-! ### One row -/

/-- An Exp-Golomb field that completes took the codeword of its value off the bits that remain. -/
theorem BitsAt.of_readUe {buf : Memory} {d d' : DecodeRegs} {len cap : Nat} {pre rest : List Bool}
    {set : Nat → FieldFile → FieldFile} (h : BitsAt buf d len pre rest)
    (hr : readField (readUe cap buf d.cur) set d = .ok d') :
    ∃ v rest', v + 2 ≤ 2 ^ (cap + 1) ∧ rest = ueBits v ++ rest' ∧ d'.fpa = set v d.fpa ∧
      BitsAt buf d' len (pre ++ ueBits v) rest' := by
  cases hread : readUe cap buf d.cur with
  | raised e c => rw [hread] at hr; cases hr
  | ok v c =>
    rw [hread] at hr
    cases hr
    obtain ⟨rfl, hin, hbits⟩ := readUe_ok_codeword hread
    have htotal := h.total
    have hpos := h.pos
    rw [h.len_eq] at hin
    have hsplit := h.split (a := (ueBits v).length) (b := rest.length - (ueBits v).length)
      (by omega)
    rw [hbits] at hsplit
    refine ⟨v, _, readUe_ok_le hread, hsplit, rfl, ⟨h.len_eq, ?_, ?_⟩⟩
    · rw [h.bits, List.append_assoc, ← hsplit]
    · simp [hpos]

theorem readField_readUe_of_codeword {buf : Memory} {cap v : Nat}
    (set : Nat → FieldFile → FieldFile) {d : DecodeRegs}
    (hin : d.cur.pos + (ueBits v).length ≤ d.cur.len) (hv : v + 2 ≤ 2 ^ (cap + 1))
    (hbits : bitsFrom buf d.cur.pos (ueBits v).length = ueBits v) :
    readField (readUe cap buf d.cur) set d =
      .ok { d with cur := { d.cur with pos := d.cur.pos + (ueBits v).length },
                   fpa := set v d.fpa } := by
  rw [readUe_of_codeword hin hv hbits, readField_ok]

/-- Where the bits that remain begin with a codeword, an Exp-Golomb field reads its value. -/
theorem BitsAt.readUe {buf : Memory} {d : DecodeRegs} {len cap v : Nat} {pre rest : List Bool}
    (set : Nat → FieldFile → FieldFile) (h : BitsAt buf d len pre (ueBits v ++ rest))
    (hv : v + 2 ≤ 2 ^ (cap + 1)) :
    ∃ d', readField (Machine.readUe cap buf d.cur) set d = .ok d' ∧ d'.fpa = set v d.fpa ∧
      BitsAt buf d' len (pre ++ ueBits v) rest := by
  have htotal := h.total
  rw [List.length_append] at htotal
  have hsplit := h.split (a := (ueBits v).length) (b := rest.length) (by simp)
  have hbits := (List.append_inj hsplit (by simp)).1.symm
  have hin : d.cur.pos + (ueBits v).length ≤ d.cur.len := by rw [h.len_eq, h.pos]; omega
  refine ⟨_, readField_readUe_of_codeword set hin hv hbits, rfl, ⟨h.len_eq, ?_, ?_⟩⟩
  · rw [h.bits, List.append_assoc]
  · simp [h.pos]

section

variable {p : Params} {buf : Memory} {len : Nat}

/-- A row that is read takes the encoding of its value off the bits that remain. -/
theorem BitsAt.of_item {it : Item} {d d' : DecodeRegs} {pre rest : List Bool}
    (h : BitsAt buf d len pre rest) (hr : it.read p buf d = .ok d') :
    ∃ v rest', rest = it.enc v ++ rest' ∧ d'.fpa = it.put (some v) d.fpa ∧
      BitsAt buf d' len (pre ++ it.enc v) rest' := by
  obtain ⟨instr, width, needed, slot, put⟩ := it
  cases width with
  | none => obtain ⟨v, rest', -, hv⟩ := h.of_readUe hr; exact ⟨v, rest', hv⟩
  | some w => obtain ⟨v, rest', -, hv⟩ := h.of_readU hr; exact ⟨v, rest', hv⟩

/-- Where the bits that remain begin with the encoding of a value that fits, a row reads it. -/
theorem BitsAt.item {it : Item} {d : DecodeRegs} {v : Nat} {pre rest : List Bool}
    (h : BitsAt buf d len pre (it.enc v ++ rest)) (hv : it.Fits p.egMaxZeros v) :
    ∃ d', it.read p buf d = .ok d' ∧ d'.fpa = it.put (some v) d.fpa ∧
      BitsAt buf d' len (pre ++ it.enc v) rest := by
  obtain ⟨instr, width, needed, slot, put⟩ := it
  cases width with
  | none => exact h.readUe _ hv
  | some w => exact h.readU _ hv

/-! ### The rows in order -/

theorem itemsBits_cons (it : Item) (l : List Item) (f : FieldFile) :
    itemsBits (it :: l) f = fieldBits it.enc (it.slot f) ++ itemsBits l f := rfl

/-- Rows that are read take the bits of their fields off the bits that remain. -/
theorem BitsAt.of_readItems {l : List Item} {d d' : DecodeRegs} {pre rest : List Bool}
    (hlaw : ∀ it ∈ l, it.Lawful) (hord : l.Pairwise Item.Before)
    (hempty : ∀ it ∈ l, it.slot d.fpa = none) (h : BitsAt buf d len pre rest)
    (hr : readItems p buf l d = .ok d') :
    ∃ rest', rest = itemsBits l d'.fpa ++ rest' ∧
      BitsAt buf d' len (pre ++ itemsBits l d'.fpa) rest' := by
  induction l generalizing d pre rest with
  | nil => cases hr; exact ⟨rest, rfl, by rwa [itemsBits, List.flatMap_nil, List.append_nil]⟩
  | cons it l ih =>
    obtain ⟨hit, hlaw⟩ := List.forall_mem_cons.mp hlaw
    obtain ⟨hbefore, hord⟩ := List.pairwise_cons.mp hord
    obtain ⟨hnone, hempty⟩ := List.forall_mem_cons.mp hempty
    have hkeep {d d' : DecodeRegs} (hr : readItems p buf l d = .ok d') :
        it.slot d'.fpa = it.slot d.fpa :=
      readItems_keeps (fun b hb o f => (hbefore b hb).slot_put_later o f) hr
    rw [readItems] at hr
    split_ifs at hr
    · obtain ⟨d1, h1, hr⟩ := andThen_eq_ok.mp hr
      obtain ⟨v, rest1, rfl, hv, hbits⟩ := h.of_item h1
      have hslot : it.slot d'.fpa = some v := by rw [hkeep hr, hv, hit.slot_put]
      obtain ⟨rest', hrest, hend⟩ := ih hlaw hord
        (fun b hb => by rw [hv, (hbefore b hb).slot_put_earlier, hempty b hb]) hbits hr
      refine ⟨rest', ?_, ?_⟩ <;> rw [itemsBits_cons, hslot]
      · rw [hrest, List.append_assoc]; rfl
      · rw [← List.append_assoc]; exact hend
    · obtain ⟨rest', hrest, hend⟩ := ih hlaw hord hempty h hr
      refine ⟨rest', ?_, ?_⟩ <;> rw [itemsBits_cons, hkeep hr, hnone]
      · exact hrest
      · exact hend

/-- A row of a field file is as its condition says: present with a value that fits, or absent. -/
def Item.Holds (cap : Nat) (f : FieldFile) (it : Item) : Prop :=
  if it.needed f then ∃ v, it.slot f = some v ∧ it.Fits cap v else it.slot f = none

/-- The field file `f` with the slots of the rows of a list taken from F. -/
def fillFrom (F : FieldFile) (l : List Item) (f : FieldFile) : FieldFile :=
  l.foldl (fun g it => it.put (it.slot F) g) f

theorem fillFrom_keeps {α : Type} {g : FieldFile → α} {F : FieldFile} {l : List Item}
    (hg : ∀ it ∈ l, ∀ o f, g (it.put o f) = g f) (f : FieldFile) : g (fillFrom F l f) = g f := by
  induction l generalizing f with
  | nil => rfl
  | cons it l ih =>
    obtain ⟨hit, hl⟩ := List.forall_mem_cons.mp hg
    exact (ih hl _).trans (hit _ _)

/-- The table has every slot of the field file. -/
theorem fillFrom_fpaItems (F f : FieldFile) : fillFrom F fpaItems f = F := rfl

/-- Where the bits that remain begin with those of a field file's rows, each as its condition says,
the rows are read as far as that field file. -/
theorem BitsAt.readItems {F : FieldFile} {l : List Item} {d : DecodeRegs} {pre rest : List Bool}
    (hlaw : ∀ it ∈ l, it.Lawful) (hord : l.Pairwise Item.Before)
    (hempty : ∀ it ∈ l, it.slot d.fpa = none) (hF : ∀ it ∈ l, it.Holds p.egMaxZeros F)
    (hfill : fillFrom F l d.fpa = F) (h : BitsAt buf d len pre (itemsBits l F ++ rest)) :
    ∃ d', Machine.readItems p buf l d = .ok d' ∧ d'.fpa = F ∧
      BitsAt buf d' len (pre ++ itemsBits l F) rest := by
  induction l generalizing d pre with
  | nil => exact ⟨d, rfl, hfill, by rwa [itemsBits, List.flatMap_nil, List.append_nil]⟩
  | cons it l ih =>
    obtain ⟨hit, hlaw⟩ := List.forall_mem_cons.mp hlaw
    obtain ⟨hbefore, hord⟩ := List.pairwise_cons.mp hord
    obtain ⟨hnone, hempty⟩ := List.forall_mem_cons.mp hempty
    obtain ⟨hitF, hF⟩ := List.forall_mem_cons.mp hF
    have hneeded : it.needed d.fpa = it.needed F := by
      conv => rhs; rw [← hfill]
      refine (fillFrom_keeps (List.forall_mem_cons.mpr ⟨hit.needed_put, fun b hb => ?_⟩) _).symm
      exact (hbefore b hb).needed_put_later
    have hput : fillFrom F l (it.put (it.slot F) d.fpa) = F := hfill
    rw [Machine.readItems, hneeded]
    rw [itemsBits_cons] at h ⊢
    rw [Item.Holds] at hitF
    split_ifs at hitF ⊢
    · obtain ⟨v, hv, hfits⟩ := hitF
      rw [hv] at h hput ⊢
      obtain ⟨d1, h1, hd1, hbits⟩ := (List.append_assoc _ _ _ ▸ h).item hfits
      rw [← hd1] at hput
      obtain ⟨d', hd', hfpa, hbits⟩ := ih hlaw hord
        (fun b hb => by rw [hd1, (hbefore b hb).slot_put_earlier, hempty b hb]) hF hput hbits
      exact ⟨d', by rw [h1, andThen_ok, hd'], hfpa, List.append_assoc _ _ _ ▸ hbits⟩
    · rw [hitF] at h hput ⊢
      have hsame : it.put none d.fpa = d.fpa := hnone ▸ hit.put_slot d.fpa
      rw [hsame] at hput
      exact ih hlaw hord hempty hF hput h

end

/-! ### The whole table -/

theorem fpaItems_empty_at_start (ps : Nat) :
    ∀ it ∈ fpaItems, it.slot (DecodeRegs.start ps).fpa = none := by
  intro it h
  fin_cases h <;> rfl

theorem decodeFields_bits {p : Params} {buf : Memory} {ps : Nat} {d : DecodeRegs}
    (h : decodeFields p buf (.start ps) = .ok d) :
    ∃ rest, BitsAt buf d (8 * ps) (fpaBits d.fpa) rest := by
  rw [decodeFields_eq_readItems] at h
  obtain ⟨rest, -, hbits⟩ := (BitsAt.start buf ps).of_readItems fpaItems_lawful fpaItems_ordered
    (fpaItems_empty_at_start ps) h
  exact ⟨rest, fpaBits_eq d.fpa ▸ hbits⟩

/-- The trailer is the bits that remain. -/
theorem BitsAt.trailer_eq {buf : Memory} {d : DecodeRegs} {len : Nat} {pre rest : List Bool}
    (h : BitsAt buf d len pre rest) : bitsFrom buf d.cur.pos (d.cur.len - d.cur.pos) = rest := by
  have hlen : d.cur.len - d.cur.pos = rest.length := by rw [h.len_eq, h.pos, h.total]; omega
  rw [hlen, h.rest_eq]

theorem Item.Holds.present {cap : Nat} {F : FieldFile} {it : Item} (hn : it.needed F = true)
    (h : ∃ v, it.slot F = some v ∧ it.Fits cap v) : it.Holds cap F := by
  rwa [Item.Holds, if_pos hn]

theorem Item.Holds.absent {cap : Nat} {F : FieldFile} {it : Item} (hn : it.needed F = false)
    (h : it.slot F = none) : it.Holds cap F := by
  rwa [Item.Holds, if_neg (by rw [hn]; decide)]

theorem ArrangementAbsent.items {F : FieldFile} (h : ArrangementAbsent F) (cap : Nat)
    (hc : notCancelled F = false) : ∀ it ∈ arrangementItems, it.Holds cap F := by
  have hg : hasGrid F = false := by rw [hasGrid, hc, Bool.false_and]
  intro it hit
  fin_cases hit
  exacts [.absent hc h.arrangementType, .absent hc h.quincunx, .absent hc h.cit,
    .absent hc h.spatialFlipping, .absent hc h.frame0Flipped, .absent hc h.fieldViews,
    .absent hc h.currentFrameIsFrame0, .absent hc h.frame0SelfContained,
    .absent hc h.frame1SelfContained, .absent hg h.grid.grid0, .absent hg h.grid.grid1,
    .absent hg h.grid.grid2, .absent hg h.grid.grid3, .absent hc h.reservedByte,
    .absent hc h.repetitionPeriod]

theorem ArrangementPresent.items {cap : Nat} {F : FieldFile} (h : ArrangementPresent cap F)
    (hc : notCancelled F = true) (hgrid : ∀ it ∈ gridItems, it.Holds cap F) :
    ∀ it ∈ arrangementItems, it.Holds cap F := by
  refine List.forall_mem_append.mpr ⟨fun it hit => ?_,
    List.forall_mem_append.mpr ⟨hgrid, fun it hit => ?_⟩⟩ <;> fin_cases hit
  exacts [.present hc h.arrangementType, .present hc h.quincunx, .present hc h.cit,
    .present hc h.spatialFlipping, .present hc h.frame0Flipped, .present hc h.fieldViews,
    .present hc h.currentFrameIsFrame0, .present hc h.frame0SelfContained,
    .present hc h.frame1SelfContained, .present hc h.reservedByte,
    .present hc h.repetitionPeriod]

theorem OkShape.gridItems {cap : Nat} {F : FieldFile} (h : OkShape cap F)
    (h0 : F.cancelFlag = some 0) : ∀ it ∈ Machine.gridItems, it.Holds cap F := by
  have hgrid : hasGrid F = gridPresent F := by simp [hasGrid, notCancelled, h0]
  intro it hit
  cases hg : gridPresent F <;> rw [hg] at hgrid
  · have ha := h.gridNotRead h0 ((gridPresent_eq_false_iff F).mp hg)
    fin_cases hit
    exacts [.absent hgrid ha.grid0, .absent hgrid ha.grid1, .absent hgrid ha.grid2,
      .absent hgrid ha.grid3]
  · obtain ⟨hq, ht⟩ := (gridPresent_iff F).mp hg
    have hp := h.gridRead h0 hq ht
    fin_cases hit
    exacts [.present hgrid hp.grid0, .present hgrid hp.grid1, .present hgrid hp.grid2,
      .present hgrid hp.grid3]

/-- The presence and widths of R108 are those of the table's rows. -/
theorem OkShape.items {cap : Nat} {F : FieldFile} (h : OkShape cap F) :
    ∀ it ∈ fpaItems, it.Holds cap F := by
  have hcancel : slotFits 1 F.cancelFlag := by
    rcases h.cancelFlag with h0 | h1
    · exact ⟨0, h0, by decide⟩
    · exact ⟨1, h1, by decide⟩
  refine List.forall_mem_append.mpr ⟨fun it hit => ?_,
    List.forall_mem_append.mpr ⟨?_, List.forall_mem_singleton.mpr (.present rfl h.extensionFlag)⟩⟩
  · fin_cases hit
    exacts [.present rfl h.id, .present rfl hcancel]
  · rcases h.cancelFlag with h0 | h1
    · exact (h.arrangement h0).items (by simp [notCancelled, h0]) (h.gridItems h0)
    · exact (h.cancelled h1).items cap (by simp [notCancelled, h1])

/-- Settles O47: a decode that completes took the bits of its fields in the table's order, and where
the bits of a field file of the right shape stand, the decode reads that field file. -/
theorem fpaDecodeIsTheInverseOfItsEncoding : Obligations.FpaDecodeIsTheInverseOfItsEncoding := by
  intro p buf ps F T
  constructor
  · intro h
    rcases decodeRecord_cases p buf ps with ⟨d, hd, hrec⟩ | ⟨e, d, hd, hrec⟩ <;> rw [hrec] at h
    · obtain ⟨rest, hbits⟩ := decodeFields_bits hd
      have hshape := decodeFields_ends p buf ps
      rw [hd] at hshape
      rw [hbits.trailer_eq] at h
      cases h
      exact ⟨hshape, hbits.bits⟩
    · cases h
  · rintro ⟨hshape, hbits⟩
    have hstart := BitsAt.start buf ps
    rw [hbits, fpaBits_eq] at hstart
    obtain ⟨d, hd, rfl, hend⟩ := hstart.readItems fpaItems_lawful fpaItems_ordered
      (fpaItems_empty_at_start ps) hshape.items (fillFrom_fpaItems F _)
    rw [decodeRecord_of_ok ((decodeFields_eq_readItems _).trans hd), hend.trailer_eq]
    rfl

end Sys2Proof.Machine
end

section
/-! PROOFS. The atomic decode is the run of the grammar's items (spec/43_frame_packing.md R87, R107,
R109; spec/60_exceptions.md R117). -/

namespace Sys2Proof.Machine

theorem execItems_succ {s t : State} (h : exec (grammarNext s.dec.fpa) s = .next t) (k : Nat) :
    execItems (k + 1) s = execItems k t := by
  simp only [execItems, h]

/-- Where rows were read as far as `d`, the rest of the table is read by `exec`, item by item: it
completes with no row missing, in at most n items, or its first failing item takes the error. -/
def RunsAs (s : State) (d : DecodeRegs) (n : Nat) : FieldRead → Prop
  | .ok d' =>
    (∃ k ≤ n, execItems k (s.setDec d) = .next (s.setDec d')) ∧
      ∀ it ∈ fpaItems, ¬ it.Missing d'.fpa
  | .raised e d' =>
    ∃ k < n, ∃ d0, execItems k (s.setDec d) = .next (s.setDec d0) ∧ d'.fpa = d0.fpa ∧
      exec (grammarNext d0.fpa) (s.setDec d0) = .next ((s.setDec d').takeError e)

theorem RunsAs.skip {s : State} {d : DecodeRegs} {n : Nat} {r : FieldRead} (h : RunsAs s d n r) :
    RunsAs s d (n + 1) r := by
  cases r with
  | ok d' =>
    obtain ⟨⟨k, hk, hrun⟩, hfull⟩ := h
    exact ⟨⟨k, by omega, hrun⟩, hfull⟩
  | raised e d' =>
    obtain ⟨k, hk, hfail⟩ := h
    exact ⟨k, by omega, hfail⟩

theorem RunsAs.step {s : State} {d d1 : DecodeRegs} {n : Nat} {r : FieldRead}
    (hstep : exec (grammarNext d.fpa) (s.setDec d) = .next (s.setDec d1)) (h : RunsAs s d1 n r) :
    RunsAs s d (n + 1) r := by
  cases r with
  | ok d' =>
    obtain ⟨⟨k, hk, hrun⟩, hfull⟩ := h
    exact ⟨⟨k + 1, by omega, (execItems_succ hstep k).trans hrun⟩, hfull⟩
  | raised e d' =>
    obtain ⟨k, hk, d0, hrun, hfail⟩ := h
    exact ⟨k + 1, by omega, d0, (execItems_succ hstep k).trans hrun, hfail⟩

/-- By induction on the rows that remain: the head row is the grammar's next item, or its condition
fails and the grammar skips it too. -/
theorem readItems_runsAs (s : State) {done l : List Item} (hsplit : done ++ l = fpaItems)
    {d : DecodeRegs} (hdone : ∀ a ∈ done, ¬ a.Missing d.fpa)
    (hempty : ∀ b ∈ l, b.slot d.fpa = none) :
    RunsAs s d l.length (readItems s.params s.buf l d) := by
  induction l generalizing done d with
  | nil =>
    rw [List.append_nil] at hsplit
    exact ⟨⟨0, Nat.le_refl 0, rfl⟩, hsplit ▸ hdone⟩
  | cons it l ih =>
    have hsplit' : (done ++ [it]) ++ l = fpaItems := by rw [← hsplit, List.append_assoc]; rfl
    obtain ⟨hit, hl⟩ := List.forall_mem_cons.mp hempty
    have hmem : it ∈ fpaItems := hsplit ▸ List.mem_append_right done List.mem_cons_self
    obtain ⟨hlaw, hbefore, hafter⟩ := fpaItems_split hsplit
    rw [readItems]
    split_ifs with hn
    · have hnext : grammarNext d.fpa = it.instr := by
        rw [grammarNext_eq, ← hsplit, firstItem_append _ hdone, firstItem, if_pos ⟨hn, hit⟩]
      have hexec : exec (grammarNext d.fpa) (s.setDec d) =
          runField (it.read s.params s.buf d) (s.setDec d) := by
        rw [hnext]
        exact exec_item (s.setDec d) it hmem
      cases hr : it.read s.params s.buf d with
      | raised e d1 =>
        rw [hr] at hexec
        exact ⟨0, Nat.succ_pos _, d, rfl, (readField_raised_fpa hr).1, hexec⟩
      | ok d1 =>
        rw [hr] at hexec
        obtain ⟨v, hv⟩ := Item.read_ok hr
        refine .step hexec (ih hsplit' ?_ ?_) <;> rw [hv]
        · refine List.forall_mem_append.mpr ⟨fun a ha => ?_, ?_⟩
          · rw [Item.Missing, (hbefore a ha).needed_put_later, (hbefore a ha).slot_put_later]
            exact hdone a ha
          · rw [List.forall_mem_singleton, Item.Missing, hlaw.slot_put]
            exact fun h => nomatch h.2
        · intro b hb
          rw [(hafter b hb).slot_put_earlier]
          exact hl b hb
    · refine .skip (ih hsplit' ?_ hl)
      exact List.forall_mem_append.mpr ⟨hdone, List.forall_mem_singleton.mpr fun h => hn h.1⟩

/-- The fields of a payload are the run of the table's items. -/
theorem decodeFields_runsAs (s : State) :
    RunsAs s (.start s.ps) 18 (decodeFields s.params s.buf (.start s.ps)) := by
  rw [decodeFields_eq_readItems]
  exact readItems_runsAs s (done := []) rfl nofun (fpaItems_empty_at_start s.ps)

/-- After the fields the trailer takes the cursor to the end of the payload. -/
theorem readTrailer_pos {p : Params} {buf : Memory} {ps : Nat} {d : DecodeRegs}
    (h : decodeFields p buf (.start ps) = .ok d) : (readTrailer buf d).cur.pos = 8 * ps := by
  obtain ⟨rest, hbits⟩ := decodeFields_bits h
  have hlen := hbits.len_eq
  have hpos := hbits.pos
  have htotal := hbits.total
  show d.cur.pos + (d.cur.len - d.cur.pos) = 8 * ps
  omega

/-- Settles O49, by the run of the items: after the last field the trailer is the next item. -/
theorem decodeIsTheRunOfItsItems : Obligations.DecodeIsTheRunOfItsItems := by
  intro s r hs hr
  have hs' : s.setDec (.start s.ps) = s := by rw [← hs]; rfl
  have hruns := decodeFields_runsAs s
  subst hr
  rcases decodeRecord_cases s.params s.buf s.ps with ⟨d, hd, hrec⟩ | ⟨e, d, hd, hrec⟩ <;>
    rw [hd] at hruns <;> rw [hrec]
  · obtain ⟨⟨k, hk, hrun⟩, hfull⟩ := hruns
    rw [hs'] at hrun
    have hnext : grammarNext d.fpa = .fpaTrailer := by
      rw [grammarNext_eq, ← List.append_nil fpaItems, firstItem_append _ hfull]
      rfl
    have htrailer : execItems 1 (s.setDec d) = .next (s.setDec (readTrailer s.buf d)) := by
      refine execItems_succ ?_ 0
      rw [State.setDec_dec, hnext]
      rfl
    exact .inl ⟨rfl, k + 1, _, by omega, (execItems_add hrun 1).trans htrailer, rfl, rfl,
      readTrailer_pos hd, hnext⟩
  · obtain ⟨k, hk, d0, hrun, hfpa, hfail⟩ := hruns
    rw [hs'] at hrun
    exact .inr ⟨rfl, k, _, _, hk, hrun, rfl, hfpa, hfail, rfl, rfl⟩

end Sys2Proof.Machine
end

section
/-! PROOFS. The bytes of a unit (spec/30_encoding.md R52, R53; spec/42_payload_extractor.md R77 to
R82): the ff-coded type and size are summed, and a payload sent with or without
emulation-prevention bytes is stored byte for byte. -/

namespace Sys2Proof.Machine

/-! ### The ff-coding -/

theorem ffBytes_length (n : Nat) : (ffBytes n).length = n / 255 + 1 := by
  rw [ffBytes, List.length_append, List.length_replicate, List.length_singleton]

theorem byteSymbols_append (bs bs' : List Byte) :
    byteSymbols (bs ++ bs') = byteSymbols bs ++ byteSymbols bs' :=
  List.map_append

theorem byteSymbols_ffBytes (n : Nat) (rest : List Symbol) :
    byteSymbols (ffBytes n) ++ rest =
      byteSymbols (List.replicate (n / 255) ffCont) ++
        .byte (BitVec.ofNat 8 (n % 255)) :: rest := by
  rw [ffBytes, byteSymbols_append_byte]

/-- The last byte of an ff-coding is the remainder, and never `FF`. -/
theorem ffLast_toNat (n : Nat) : (BitVec.ofNat 8 (n % 255) : Byte).toNat = n % 255 := by
  rw [BitVec.toNat_ofNat]
  omega

theorem ffLast_ne_ffCont (n : Nat) : (BitVec.ofNat 8 (n % 255) : Byte) ≠ ffCont := by
  intro h
  have := congrArg BitVec.toNat h
  rw [ffLast_toNat, show (ffCont : Byte).toNat = 255 from rfl] at this
  omega

/-- A run of one byte, where f gives the state after i of them with the symbols that remain. -/
theorem runSteps_replicate {b : Byte} {f : Nat → List Symbol → State}
    (hf : ∀ i rest, step (f i (.byte b :: rest)) = .next (f (i + 1) rest)) (k : Nat)
    (rest : List Symbol) :
    runSteps k (f 0 (byteSymbols (List.replicate k b) ++ rest)) = .next (f k rest) := by
  induction k generalizing rest with
  | zero => rfl
  | succ k ih =>
    rw [List.replicate_succ', byteSymbols_append_byte, runSteps_add (ih _),
      runSteps_succ (hf k rest), runSteps_zero]

theorem fitsAcc_of_unbounded {p : Params} (h : p.accBits = none) (v : Nat) :
    fitsAcc p v = true := by
  rw [fitsAcc, h]

theorem typeByte_cont {s : State} (h : s.params.accBits = none) :
    typeByte ffCont s = { s with pt := s.pt + 255 } := by
  rw [typeByte, if_pos rfl, addType, if_pos (fitsAcc_of_unbounded h _)]
  rfl

theorem typeByte_last {s : State} {b : Byte} (h : s.params.accBits = none) (hb : b ≠ ffCont) :
    typeByte b s = { s with pt := s.pt + b.toNat, mode := .size } := by
  rw [typeByte, if_neg hb, addType, if_pos (fitsAcc_of_unbounded h _)]

theorem sizeByte_cont {s : State} (h : s.params.accBits = none) :
    sizeByte ffCont s = { s with ps := s.ps + 255 } := by
  rw [sizeByte, if_pos rfl, addSize, if_pos (fitsAcc_of_unbounded h _)]
  rfl

theorem sizeByte_last {s : State} {b : Byte} (h : s.params.accBits = none) (hb : b ≠ ffCont) :
    sizeByte b s = startPayload { s with ps := s.ps + b.toNat } := by
  rw [sizeByte, if_neg hb, addSize, if_pos (fitsAcc_of_unbounded h _)]

/-- The state after i bytes of `payload_type` that add up to m. -/
def State.typeRead (s : State) (m i : Nat) (rest : List Symbol) : State :=
  { s with pt := s.pt + m, inPos := s.inPos + i, input := rest }

/-- The state after i bytes of `payload_size` that add up to m. -/
def State.sizeRead (s : State) (m i : Nat) (rest : List Symbol) : State :=
  { s with ps := s.ps + m, inPos := s.inPos + i, input := rest }

section

variable {s : State} (hf : s.fault = none) (hacc : s.params.accBits = none)

include hf hacc

theorem step_typeRead_cont (hm : s.mode = .type) (i : Nat) (rest : List Symbol) :
    step (s.typeRead (255 * i) i (.byte ffCont :: rest)) =
      .next (s.typeRead (255 * (i + 1)) (i + 1) rest) := by
  rw [step_of_end (s := s.typeRead _ _ _) hf rfl (.type ffCont hm),
    typeByte_cont (s := (s.typeRead _ _ _).consume _) hacc]
  simp only [State.typeRead, State.consume, Nat.mul_succ, Nat.add_assoc]

theorem step_typeRead_last (hm : s.mode = .type) {b : Byte} (hb : b ≠ ffCont) (m i : Nat)
    (rest : List Symbol) :
    step (s.typeRead m i (.byte b :: rest)) =
      .next { s.typeRead (m + b.toNat) (i + 1) rest with mode := .size } := by
  rw [step_of_end (s := s.typeRead _ _ _) hf rfl (.type b hm),
    typeByte_last (s := (s.typeRead _ _ _).consume _) hacc hb]
  simp only [State.typeRead, State.consume, Nat.add_assoc]

theorem step_sizeRead_cont (hm : s.mode = .size) (i : Nat) (rest : List Symbol) :
    step (s.sizeRead (255 * i) i (.byte ffCont :: rest)) =
      .next (s.sizeRead (255 * (i + 1)) (i + 1) rest) := by
  rw [step_of_end (s := s.sizeRead _ _ _) hf rfl (.size ffCont hm),
    sizeByte_cont (s := (s.sizeRead _ _ _).consume _) hacc]
  simp only [State.sizeRead, State.consume, Nat.mul_succ, Nat.add_assoc]

theorem step_sizeRead_last (hm : s.mode = .size) {b : Byte} (hb : b ≠ ffCont) (m i : Nat)
    (rest : List Symbol) :
    step (s.sizeRead m i (.byte b :: rest)) =
      .next (startPayload (s.sizeRead (m + b.toNat) (i + 1) rest)) := by
  rw [step_of_end (s := s.sizeRead _ _ _) hf rfl (.size b hm),
    sizeByte_last (s := (s.sizeRead _ _ _).consume _) hacc hb]
  simp only [State.sizeRead, State.consume, Nat.add_assoc]

variable {n : Nat} {rest : List Symbol} (hi : s.input = byteSymbols (ffBytes n) ++ rest)

include hi

/-- The ff-coding of n in TYPE mode adds n to `payload_type` (42_payload_extractor.md R77). -/
theorem runSteps_typeBytes (hm : s.mode = .type) :
    runSteps (n / 255 + 1) s =
      .next { s.typeRead n (n / 255 + 1) rest with mode := .size } := by
  rw [byteSymbols_ffBytes] at hi
  have hs : s.typeRead (255 * 0) 0 s.input = s := rfl
  have hrun := runSteps_replicate (step_typeRead_cont hf hacc hm) (n / 255)
    (.byte (BitVec.ofNat 8 (n % 255)) :: rest)
  rw [← hi, hs] at hrun
  rw [runSteps_add hrun, runSteps_succ (step_typeRead_last hf hacc hm (ffLast_ne_ffCont n) _ _ _),
    ffLast_toNat, Nat.div_add_mod, runSteps_zero]

/-- The ff-coding of n in SIZE mode adds n to `payload_size` and starts the payload
(42_payload_extractor.md R78, R79). -/
theorem runSteps_sizeBytes (hm : s.mode = .size) :
    runSteps (n / 255 + 1) s = .next (startPayload (s.sizeRead n (n / 255 + 1) rest)) := by
  rw [byteSymbols_ffBytes] at hi
  have hs : s.sizeRead (255 * 0) 0 s.input = s := rfl
  have hrun := runSteps_replicate (step_sizeRead_cont hf hacc hm) (n / 255)
    (.byte (BitVec.ofNat 8 (n % 255)) :: rest)
  rw [← hi, hs] at hrun
  rw [runSteps_add hrun, runSteps_succ (step_sizeRead_last hf hacc hm (ffLast_ne_ffCont n) _ _ _),
    ffLast_toNat, Nat.div_add_mod, runSteps_zero]

end

/-! ### The start of a payload -/

theorem fitsBuf_of_unbounded {p : Params} (h : p.bufBytes = none) (pt ps : Nat) :
    fitsBuf p pt ps = true := by
  rw [fitsBuf, h]

theorem startPayload_empty {s : State} (h : s.params.bufBytes = none) (hps : s.ps = 0) :
    startPayload s = finish { s with nOut := 0, zc := 0, buf := [] } := by
  rw [startPayload, if_pos (fitsBuf_of_unbounded h _ _)]
  exact if_pos hps

theorem startPayload_copy {s : State} (h : s.params.bufBytes = none) (hps : s.ps ≠ 0) :
    startPayload s = { s with nOut := 0, zc := 0, buf := [], mode := .copy } := by
  rw [startPayload, if_pos (fitsBuf_of_unbounded h _ _)]
  exact if_neg hps

/-- Settles O29, by the run of `FF` bytes and then the last byte. -/
theorem ffCodingIsSummed : Obligations.FfCodingIsSummed := by
  refine fun s n rest hf hacc hi => ⟨runSteps_typeBytes hf hacc hi, fun hm hbuf => ?_⟩
  refine ⟨_, runSteps_sizeBytes hf hacc hi hm, ?_⟩
  by_cases hps : s.ps + n = 0
  · rw [startPayload_empty (s := s.sizeRead n _ rest) hbuf hps, if_pos hps]
    exact ⟨rfl, rfl, rfl, rfl⟩
  · rw [startPayload_copy (s := s.sizeRead n _ rest) hbuf hps, if_neg hps]
    exact ⟨rfl, rfl, rfl, rfl⟩

end Sys2Proof.Machine
end

section
/-! PROOFS. The bytes of a payload in COPY mode (spec/30_encoding.md R53;
spec/42_payload_extractor.md R80, R81, R82): what a run of bytes is stored as, for a payload sent
with its emulation-prevention bytes and for one that needs none. -/

namespace Sys2Proof.Machine

/-! ### One byte -/

/-- A write behind the last byte of a buffer appends it. -/
theorem write_bufFrom (a : Nat) (q : List Byte) (b : Byte) :
    Memory.write (bufFrom a q) (a + q.length) b = bufFrom a (q ++ [b]) := by
  induction q generalizing a with
  | nil => rfl
  | cons x q ih =>
    have hrest := ih (a + 1)
    rw [Nat.add_right_comm, Nat.add_assoc] at hrest
    rw [List.length_cons, List.cons_append, bufFrom, bufFrom, Memory.cons, Memory.cons]
    split_ifs
    · exact hrest
    · rw [Memory.write, if_neg (by omega), if_neg (by omega), hrest]

/-- How a stream of payload bytes is stored, from a value of `zc` on: each byte is data, but a `03`
that follows two zeros while data is still to come is discarded. -/
inductive StoredAs : Fin 3 → List Byte → List Byte → Prop where
  | nil (z : Fin 3) : StoredAs z [] []
  | data {z : Fin 3} {b : Byte} {w q : List Byte} (hz : ¬ (z = 2 ∧ b = 0x03))
      (h : StoredAs (zcNext z b) w q) : StoredAs z (b :: w) (b :: q)
  | epb {w q : List Byte} (hq : q ≠ []) (h : StoredAs 0 w q) : StoredAs 2 (0x03 :: w) q

theorem StoredAs.eq_nil {z : Fin 3} {w : List Byte} (h : StoredAs z w []) : w = [] := by
  cases h with
  | nil => rfl
  | epb hq => exact absurd rfl hq

/-- The bytes `pre` of a payload are stored and the bytes q are still to come. -/
structure Copying (s : State) (pre q : List Byte) : Prop where
  fault : s.fault = none
  mode : s.mode = .copy
  nOut : s.nOut = pre.length
  buf : s.buf = bufFrom 0 pre
  ps : s.ps = (pre ++ q).length

/-- The state after n payload symbols, of which the bytes `pre` are stored. -/
def State.copied (s : State) (pre : List Byte) (n : Nat) (z : Fin 3) (rest : List Symbol) : State :=
  { s with nOut := pre.length, buf := bufFrom 0 pre, zc := z, inPos := s.inPos + n, input := rest }

theorem State.copied_copied (s : State) (pre pre' : List Byte) (n n' : Nat) (z z' : Fin 3)
    (rest rest' : List Symbol) :
    (s.copied pre n z rest).copied pre' n' z' rest' = s.copied pre' (n' + n) z' rest' := by
  simp only [State.copied, Nat.add_assoc, Nat.add_comm n]

section

variable {s : State} {pre q : List Byte} {b : Byte} {rest : List Symbol}

theorem Copying.copied (h : Copying s pre q) {pre' q' : List Byte} (e : pre' ++ q' = pre ++ q)
    (n : Nat) (z : Fin 3) (rest : List Symbol) : Copying (s.copied pre' n z rest) pre' q' :=
  ⟨h.fault, h.mode, rfl, rfl, h.ps.trans (congrArg _ e.symm)⟩

theorem Copying.storeByte_consume (h : Copying s pre q) :
    storeByte b (s.consume rest) = s.copied (pre ++ [b]) 1 (zcNext s.zc b) rest := by
  rw [State.copied, ← write_bufFrom, ← h.buf, List.length_append, Nat.zero_add, ← h.nOut]
  rfl

/-- The last data byte completes the payload (42_payload_extractor.md R82). -/
theorem Copying.step_last (h : Copying s pre [b]) (hz : ¬ (s.zc = 2 ∧ b = 0x03))
    (hi : s.input = .byte b :: rest) :
    step s = .next (finish (s.copied (pre ++ [b]) 1 (zcNext s.zc b) rest)) := by
  have hps := h.ps
  rw [List.length_append, List.length_singleton] at hps
  rw [step_of_end h.fault hi (.copy b h.mode hz), copyByte_last, h.storeByte_consume]
  rw [State.consume_nOut, State.consume_ps, h.nOut, hps]

/-- Any other data byte is stored and leaves the payload open (42_payload_extractor.md R80). -/
theorem Copying.step_more (h : Copying s pre (b :: q)) (hq : q ≠ [])
    (hz : ¬ (s.zc = 2 ∧ b = 0x03)) (hi : s.input = .byte b :: rest) :
    step s = .next (s.copied (pre ++ [b]) 1 (zcNext s.zc b) rest) := by
  have hps := h.ps
  have hpos := List.length_pos_iff.mpr hq
  rw [List.length_append, List.length_cons] at hps
  rw [step_of_end h.fault hi (.copy b h.mode hz), copyByte_more, h.storeByte_consume]
  rw [State.consume_nOut, State.consume_ps, h.nOut]
  omega

theorem Copying.step_epb (h : Copying s pre q) (hz : s.zc = 2)
    (hi : s.input = .byte 0x03 :: rest) : step s = .next (s.copied pre 1 0 rest) := by
  rw [step_of_end h.fault hi (.epb h.mode hz), State.copied, ← h.nOut, ← h.buf]
  rfl

/-! ### The whole payload -/

/-- What is still to come of a payload, as it is stored, completes it: by induction on how it is
stored. -/
theorem Copying.runSteps {w : List Byte} (h : Copying s pre q) (hw : StoredAs s.zc w q)
    (hq : q ≠ []) (hi : s.input = byteSymbols w ++ rest) :
    ∃ z, Machine.runSteps w.length s = .next (finish (s.copied (pre ++ q) w.length z rest)) := by
  generalize hzc : s.zc = zc at hw
  induction hw generalizing s pre with
  | nil => exact absurd rfl hq
  | @data z b w q hz hstored ih =>
    subst hzc
    by_cases hlast : q = []
    · subst hlast
      obtain rfl := hstored.eq_nil
      exact ⟨_, runSteps_succ (h.step_last hz hi) 0⟩
    · obtain ⟨z', hrun⟩ := ih (h.copied (List.append_assoc pre [b] q) 1 _ _) hlast rfl rfl
      refine ⟨z', (runSteps_succ (h.step_more hlast hz hi) _).trans (hrun.trans ?_)⟩
      rw [State.copied_copied, List.append_assoc]
      rfl
  | @epb w q hq hstored ih =>
    obtain ⟨z', hrun⟩ := ih (h.copied rfl 1 0 _) hq rfl rfl
    refine ⟨z', (runSteps_succ (h.step_epb hzc hi) _).trans (hrun.trans ?_)⟩
    rw [State.copied_copied]
    rfl

end

/-- A whole payload, from the state at its start. -/
theorem runSteps_payload {s : State} {w q : List Byte} {rest : List Symbol} (hf : s.fault = none)
    (hm : s.mode = .copy) (hn : s.nOut = 0) (hb : s.buf = []) (hps : s.ps = q.length) (hq : q ≠ [])
    (hw : StoredAs s.zc w q) (hi : s.input = byteSymbols w ++ rest) :
    ∃ z, runSteps w.length s =
      .next { s with mode := .scan, nOut := q.length, zc := z, buf := bufFrom 0 q,
                     out := s.out ++ [recordOf s.params s.pt q],
                     inPos := s.inPos + w.length, input := rest } := by
  obtain ⟨z, hrun⟩ := Copying.runSteps (pre := []) ⟨hf, hm, hn, hb, hps⟩ hw hq hi
  have hrec : recordOf s.params s.pt q = payloadRecord (s.copied q w.length z rest) := by
    rw [recordOf, ← hps]
    rfl
  rw [hrec]
  exact ⟨z, hrun⟩

/-! ### With and without emulation prevention -/

/-- `zc` is a count of zeros, cut at 2 (42_payload_extractor.md R80). -/
theorem zcNext_val {z : Nat} {zc : Fin 3} (hz : zc.val = min z 2) (b : Byte) :
    (zcNext zc b).val = min (if b = 0x00 then z + 1 else 0) 2 := by
  rw [zcNext]
  split_ifs with hb h0
  · subst h0
    change 0 = min z 2 at hz
    show 1 = min (z + 1) 2
    omega
  · have : zc.val ≠ 0 := fun h => h0 (Fin.ext h)
    show 2 = min (z + 1) 2
    omega
  · rfl

/-- What the encoder of spec G10 sends is stored as the payload. -/
theorem storedAs_insertEpb {z : Nat} {zc : Fin 3} (hz : zc.val = min z 2) (q : List Byte) :
    StoredAs zc (insertEpb z q) q := by
  induction q generalizing z zc with
  | nil => exact .nil zc
  | cons b q ih =>
    rw [insertEpb]
    by_cases hesc : 2 ≤ z ∧ b.toNat ≤ 3
    · rw [if_pos hesc]
      obtain rfl : zc = 2 := Fin.ext (hz.trans (min_eq_right hesc.1))
      exact .epb nofun (.data (by simp) (ih (zcNext_val (z := 0) rfl b)))
    · rw [if_neg hesc]
      refine .data ?_ (ih (zcNext_val hz b))
      rintro ⟨rfl, rfl⟩
      exact hesc ⟨min_eq_right_iff.mp hz.symm, by decide⟩

/-- The zeros that `zc` counts after a byte stand before it or are that byte. -/
theorem zcNext_zeros (z : Fin 3) (b : Byte) (q : List Byte) :
    List.replicate (zcNext z b).val 0x00 ++ q <:+ List.replicate z.val 0x00 ++ b :: q := by
  by_cases hb : b = 0x00
  · subst hb
    match z with
    | 0 => exact List.suffix_rfl
    | 1 => exact List.suffix_rfl
    | 2 => exact List.suffix_cons 0x00 _
  · rw [zcNext, if_neg hb]
    exact (List.suffix_cons b q).trans (List.suffix_append _ _)

/-- A payload without `00 00 03` is stored as it is sent: behind the zeros that `zc` counts, no `03`
follows two of them. -/
theorem storedAs_self {z : Fin 3} {q : List Byte}
    (h : ¬ [0x00, 0x00, 0x03] <:+: List.replicate z.val 0x00 ++ q) : StoredAs z q q := by
  induction q generalizing z with
  | nil => exact .nil z
  | cons b q ih =>
    refine .data ?_ (ih fun hin => h (hin.trans (zcNext_zeros z b q).isInfix))
    rintro ⟨rfl, rfl⟩
    exact h (List.prefix_append [0x00, 0x00, 0x03] q).isInfix

/-- Settles O30: what the encoder sends is stored as the payload. -/
theorem emulationPreventionRoundTrip : Obligations.EmulationPreventionRoundTrip := by
  intro s q rest hf hm hn hz hb hps hq hi
  exact runSteps_payload hf hm hn hb hps hq (storedAs_insertEpb (by rw [hz]; rfl) q) hi

/-- Settles O31: a payload without `00 00 03` is stored as it is sent. -/
theorem cleanPayloadIsCopiedUnchanged : Obligations.CleanPayloadIsCopiedUnchanged := by
  intro s q rest hf hm hn hz hb hps hq hclean hi
  exact runSteps_payload hf hm hn hb hps hq (storedAs_self (by rw [hz]; exact hclean)) hi

end Sys2Proof.Machine
end

section
/-! PROOFS. A whole unit (spec/30_encoding.md R49): its start code, header, type, size and payload,
one after the other. -/

namespace Sys2Proof.Machine

/-- A run of n steps ends the unit: scanning resumes at `rest` with nothing matched, and the log is
`out`. -/
def EndsUnit (s : State) (n : Nat) (rest : List Symbol) (out : List Record) : Prop :=
  ∃ t, runSteps n s = .next t ∧ t.mode = .scan ∧ t.sc = 0 ∧ t.fault = none ∧ t.input = rest ∧
    t.out = out

theorem EndsUnit.of_runSteps {s u : State} {j n : Nat} {rest : List Symbol} {out : List Record}
    (h : runSteps j s = .next u) (hu : EndsUnit u n rest out) : EndsUnit s (j + n) rest out := by
  obtain ⟨t, ht, hend⟩ := hu
  exact ⟨t, (runSteps_add h n).trans ht, hend⟩

/-- Bytes too few for a start code and a header hold no unit. -/
theorem noUnit_of_length_le {m : HdrMatch} {bs : List Byte} (h : bs.length ≤ 3) : NoUnit m bs := by
  rintro pre x post rfl
  simp only [List.length_append, List.length_cons] at h
  omega

section

variable {s : State} {h : Byte} {type : Nat} {q : List Byte} {rest : List Symbol}
  (hf : s.fault = none) (hsc : s.sc = 0)

include hf hsc

/-- A start code and an SEI header begin a unit (41_nal_scanner.md R70, R71). -/
theorem runSteps_unitHeader (hm : s.mode = .scan) (hh : hdrIsSei s.params.hdrMatch h = true)
    (hi : s.input = byteSymbols [0x00, 0x00, 0x01, h] ++ rest) :
    runSteps 4 s = .next (beginUnit { s with inPos := s.inPos + 4, input := rest }) := by
  have hscan := runSteps_noUnit (bs := [0x00, 0x00, 0x01]) (rest := .byte h :: rest) hf hm hsc
    (noUnit_of_length_le (Nat.le_refl 3)) hi
  have hmatch : matchLen [0x00, 0x00, 0x01] = 3 := by decide
  have hstep := step_beginUnit (s := s.scanned [0x00, 0x00, 0x01] (.byte h :: rest)) hf hm rfl
    hmatch hh
  exact (runSteps_add hscan 1).trans (runSteps_succ hstep 0)

/-- A payload, empty or not, from its start (42_payload_extractor.md R79 to R82). -/
theorem endsUnit_startPayload (hbuf : s.params.bufBytes = none) (hps : s.ps = q.length)
    (hi : s.input = byteSymbols (insertEpb 0 q) ++ rest) :
    EndsUnit (startPayload s) (insertEpb 0 q).length rest
      (s.out ++ [recordOf s.params s.pt q]) := by
  by_cases hq : q = []
  · subst hq
    have hrec : recordOf s.params s.pt [] =
        payloadRecord { s with nOut := 0, zc := 0, buf := [] } := by
      rw [payloadRecord, hps]
      rfl
    rw [startPayload_empty hbuf hps, hrec]
    exact ⟨_, rfl, rfl, hsc, hf, hi, rfl⟩
  · have hne : s.ps ≠ 0 := by rw [hps]; exact mt List.length_eq_zero_iff.mp hq
    rw [startPayload_copy hbuf hne]
    obtain ⟨z, hrun⟩ := runSteps_payload
      (s := { s with nOut := 0, zc := 0, buf := [], mode := .copy })
      hf rfl rfl rfl hps hq (storedAs_insertEpb (z := 0) rfl q) hi
    exact ⟨_, hrun, rfl, hsc, hf, rfl, rfl⟩

variable (hacc : s.params.accBits = none) (hbuf : s.params.bufBytes = none)

include hacc hbuf

/-- A unit from its size on. -/
theorem endsUnit_size (hm : s.mode = .size) (hpt : s.pt = type) (hps : s.ps = 0)
    (hi : s.input = byteSymbols (ffBytes q.length) ++ (byteSymbols (insertEpb 0 q) ++ rest)) :
    EndsUnit s ((ffBytes q.length).length + (insertEpb 0 q).length) rest
      (s.out ++ [recordOf s.params type q]) := by
  subst hpt
  have hps' : s.ps + q.length = q.length := by rw [hps, Nat.zero_add]
  rw [ffBytes_length]
  exact .of_runSteps (runSteps_sizeBytes hf hacc hi hm)
    (endsUnit_startPayload (s := s.sizeRead _ _ _) hf hsc hbuf hps' rfl)

/-- A unit from its type on. -/
theorem endsUnit_type (hm : s.mode = .type) (hpt : s.pt = 0) (hps : s.ps = 0)
    (hi : s.input = byteSymbols (ffBytes type) ++
      (byteSymbols (ffBytes q.length) ++ (byteSymbols (insertEpb 0 q) ++ rest))) :
    EndsUnit s ((ffBytes type).length + ((ffBytes q.length).length + (insertEpb 0 q).length)) rest
      (s.out ++ [recordOf s.params type q]) := by
  have hpt' : s.pt + type = type := by rw [hpt, Nat.zero_add]
  have hsize := endsUnit_size (s := { s.typeRead type (type / 255 + 1) _ with mode := .size })
    (q := q) (rest := rest) hf hsc hacc hbuf rfl hpt' hps rfl
  rw [ffBytes_length type]
  exact .of_runSteps (runSteps_typeBytes hf hacc hi hm) hsize

end

/-- Settles O33, part by part: each part's run ends where the next part's begins. -/
theorem aWholeUnitYieldsItsRecord : Obligations.AWholeUnitYieldsItsRecord := by
  intro s h type q rest hf hm hsc hh hacc hbuf hi
  simp only [byteSymbols_append, List.append_assoc] at hi
  have hbody := endsUnit_type (s := beginUnit { s with inPos := s.inPos + 4, input := _ })
    (type := type) (q := q) (rest := rest) hf rfl hacc hbuf rfl rfl rfl rfl
  simp only [List.append_assoc, List.length_append]
  exact EndsUnit.of_runSteps (runSteps_unitHeader hf hsc hm hh hi) hbody

end Sys2Proof.Machine
end

section
/-! PROOFS. How `read_ue` follows the zero run it meets (spec/40_bitcursor.md R66): it skips the
zeros, and then the bit after them, the end of the buffer or the cap decides. -/

namespace Sys2Proof.Machine

/-! ### The zero run -/

theorem zeroRun_of_zero {buf : Memory} {left zeros : Nat} {c : Cursor} (hin : c.pos < c.len)
    (hb : bitAt buf c.pos = false) :
    zeroRun buf (left + 1) zeros c = zeroRun buf left (zeros + 1) { c with pos := c.pos + 1 } := by
  rw [zeroRun, readBit_of_lt hin, hb]
  rfl

theorem zeroRun_of_one {buf : Memory} {left zeros : Nat} {c : Cursor} (hin : c.pos < c.len)
    (hb : bitAt buf c.pos = true) :
    zeroRun buf left zeros c = .ok zeros { c with pos := c.pos + 1 } := by
  rw [zeroRun.eq_def, readBit_of_lt hin, hb]
  rfl

theorem zeroRun_of_end {buf : Memory} {left zeros : Nat} {c : Cursor} (hend : c.len ≤ c.pos) :
    zeroRun buf left zeros c = .raised .outOfRange c := by
  rw [zeroRun.eq_def, readBit_of_le hend]

theorem zeroRun_past_cap {buf : Memory} {zeros : Nat} {c : Cursor} (hin : c.pos < c.len)
    (hb : bitAt buf c.pos = false) :
    zeroRun buf 0 zeros c = .raised .malformedGolombCode { c with pos := c.pos + 1 } := by
  rw [zeroRun, readBit_of_lt hin, hb]
  rfl

/-- The loop skips z zeros, as many as the cap accepts and the buffer holds. -/
theorem zeroRun_skip {buf : Memory} {z : Nat} (left zeros : Nat) {c : Cursor}
    (hin : c.pos + z ≤ c.len) (hz : ∀ k, k < z → bitAt buf (c.pos + k) = false) :
    zeroRun buf (left + z) zeros c =
      zeroRun buf left (zeros + z) { c with pos := c.pos + z } := by
  induction z generalizing left with
  | zero => rfl
  | succ z ih =>
    rw [show left + (z + 1) = left + 1 + z by omega,
      ih (left + 1) (by omega) fun k hk => hz k (by omega)]
    exact zeroRun_of_zero (by simp only; omega) (hz z (Nat.lt_succ_self z))

/-- `read_ue` within the cap goes on after the zeros. -/
theorem zeroRun_skip_of_le_cap {cap z : Nat} {buf : Memory} {c : Cursor} (hcap : z ≤ cap)
    (hin : c.pos + z ≤ c.len) (hz : ∀ k, k < z → bitAt buf (c.pos + k) = false) :
    zeroRun buf cap 0 c = zeroRun buf (cap - z) z { c with pos := c.pos + z } := by
  have h := zeroRun_skip (cap - z) 0 hin hz
  rwa [Nat.sub_add_cancel hcap, Nat.zero_add] at h

/-! ### From the zero run to the value -/

theorem readUe_of_zeroRun_ok {cap z : Nat} {buf : Memory} {c c' : Cursor}
    (h : zeroRun buf cap 0 c = .ok z c') (hin : c'.pos + z ≤ c'.len) :
    readUe cap buf c =
      .ok (2 ^ z - 1 + bitsValue buf c'.pos z) { c' with pos := c'.pos + z } := by
  simp only [readUe, h, readU_of_le hin]

theorem readUe_of_short_suffix {cap z : Nat} {buf : Memory} {c c' : Cursor}
    (h : zeroRun buf cap 0 c = .ok z c') (hout : c'.len < c'.pos + z) :
    readUe cap buf c = .raised .outOfRange c' := by
  simp only [readUe, h, readU_of_lt hout]

theorem readUe_of_zeroRun_raised {cap : Nat} {buf : Memory} {c c' : Cursor} {e : ErrKind}
    (h : zeroRun buf cap 0 c = .raised e c') : readUe cap buf c = .raised e c' := by
  simp only [readUe, h]

/-- Settles O36: the zeros are skipped, and what stands after them ends the read. -/
theorem readUeFollowsTheZeroRun : Obligations.ReadUeFollowsTheZeroRun := by
  intro cap buf c z _ hz
  have hrun (hcap : z ≤ cap) (hone : bitAt buf (c.pos + z) = true) (hin : c.pos + z < c.len) :
      zeroRun buf cap 0 c = .ok z { c with pos := c.pos + z + 1 } :=
    (zeroRun_skip_of_le_cap hcap (by omega) hz).trans (zeroRun_of_one hin hone)
  refine ⟨fun hcap hone hin => ?_, fun hcap hone hin hout => ?_, fun hcap hend => ?_, ?_⟩
  · rw [readUe_of_zeroRun_ok (hrun hcap hone (by omega)) (by simp only; omega),
      show c.pos + (2 * z + 1) = c.pos + z + 1 + z by omega]
  · exact ⟨_, readUe_of_short_suffix (hrun hcap hone hin) (by simp only; omega)⟩
  · exact ⟨_, readUe_of_zeroRun_raised <|
      (zeroRun_skip_of_le_cap hcap (by omega) hz).trans (zeroRun_of_end (by simp only; omega))⟩
  · rintro rfl hin
    refine readUe_of_zeroRun_raised ?_
    rw [zeroRun_skip_of_le_cap (Nat.le_refl cap) (by omega) fun k hk => hz k (by omega),
      Nat.sub_self]
    exact zeroRun_past_cap (by simp only; omega) (hz cap (Nat.lt_succ_self cap))

end Sys2Proof.Machine
end

section
/-! PROOFS. READ_BIT, READ_U and READ_UE as operations of their own (spec/40_bitcursor.md R64 to
R66, R69; spec/60_exceptions.md R118): each runs its read on the machine's cursor. -/

namespace Sys2Proof.Machine

theorem exec_readBit (s : State) : exec .readBit s = runRead (readBit s.buf s.dec.cur) s := rfl

theorem exec_readU {w : Nat} (hw : w ≤ 32) (s : State) :
    exec (.readU w) s = runRead (readU s.buf w s.dec.cur) s :=
  if_pos hw

theorem exec_readUe (s : State) :
    exec .readUe s = runRead (readUe s.params.egMaxZeros s.buf s.dec.cur) s := rfl

/-- Settles O40, by the value each read returns and the error each raises. -/
theorem cursorOperationsComplete : Obligations.CursorOperationsComplete := by
  refine fun s => ⟨fun hin => ?_, fun w hw hin => ?_, fun v hin hcap hbits => ?_, ?_, ?_⟩
  · rw [exec_readBit, readBit_of_lt hin]
    rfl
  · rw [exec_readU hw, readU_of_le hin]
    rfl
  · rw [exec_readUe, readUe_of_codeword hin hcap hbits]
    rfl
  · rintro i (⟨rfl, hout⟩ | ⟨w, hw, rfl, hout⟩ | ⟨rfl, c, hraise⟩)
    · rw [exec_readBit, readBit_of_le hout]
      rfl
    · rw [exec_readU hw, readU_of_lt hout]
      rfl
    · rw [exec_readUe, hraise]
      rfl
  · intro c hraise
    rw [exec_readUe, hraise]
    rfl

/-- Settles O41, by the width test of READ_U. -/
theorem readWidthOver32IsRefused : Obligations.ReadWidthOver32IsRefused :=
  fun _ _ hw => if_neg (Nat.not_le.mpr hw)

end Sys2Proof.Machine
end

section
/-! PROOFS. The cursor stays within its buffer (spec/40_bitcursor.md R63): a read that returns moves
it forward to a position in the buffer, the trailer moves it to the end, an error makes it idle, and
no other operation touches it. -/

namespace Sys2Proof.Machine

/-! ### Reads -/

/-- The cursor moves from c to c' within its buffer, and not back. -/
structure Cursor.Advances (c c' : Cursor) : Prop where
  pos_le : c.pos ≤ c'.pos
  inBounds : c'.pos ≤ c'.len
  len_eq : c'.len = c.len

theorem Cursor.advances_add {c : Cursor} {n : Nat} (h : c.pos + n ≤ c.len) :
    c.Advances { c with pos := c.pos + n } :=
  ⟨Nat.le_add_right c.pos n, h, rfl⟩

/-- A read that returns advances the cursor. -/
def Read.Advances (c : Cursor) (r : Read) : Prop :=
  ∀ v c', r = .ok v c' → c.Advances c'

theorem readBit_advances (buf : Memory) (c : Cursor) : (readBit buf c).Advances c := by
  intro v c' h
  rcases readBit_cases buf c with ⟨hin, e⟩ | ⟨_, e⟩ <;> rw [e] at h <;> cases h
  exact Cursor.advances_add hin

theorem readU_advances (buf : Memory) (w : Nat) (c : Cursor) : (readU buf w c).Advances c := by
  intro v c' h
  rcases readU_cases buf w c with ⟨hin, e⟩ | ⟨_, e⟩ <;> rw [e] at h <;> cases h
  exact Cursor.advances_add hin

theorem readUe_advances (cap : Nat) (buf : Memory) (c : Cursor) :
    (readUe cap buf c).Advances c := by
  intro v c' h
  obtain ⟨rfl, hin, -⟩ := readUe_ok_codeword h
  exact Cursor.advances_add hin

/-! ### Operations -/

/-- The decode-local cursor is within its buffer (10_state.md R24, 40_bitcursor.md R63). -/
def State.CursorInBounds (s : State) : Prop :=
  s.dec.cur.pos ≤ s.dec.cur.len

theorem State.cursorInBounds_takeError (s : State) (e : ErrKind) :
    (s.takeError e).CursorInBounds :=
  Nat.le_refl 0

theorem runRead_cursorInBounds {r : Read} {s t : State} (hr : r.Advances s.dec.cur)
    (h : runRead r s = .next t) : t.CursorInBounds := by
  cases r with
  | ok v c => cases h; exact (hr v c rfl).inBounds
  | raised e c => cases h; exact s.cursorInBounds_takeError e

theorem runField_cursorInBounds {r : Read} {set : Nat → FieldFile → FieldFile} {s t : State}
    (hr : r.Advances s.dec.cur) (h : runField (readField r set s.dec) s = .next t) :
    t.CursorInBounds := by
  cases r with
  | ok v c => cases h; exact (hr v c rfl).inBounds
  | raised e c => cases h; exact State.cursorInBounds_takeError _ e

theorem readTrailer_cursorInBounds {s : State} (hs : s.CursorInBounds) :
    (s.setDec (readTrailer s.buf s.dec)).CursorInBounds :=
  (Nat.add_sub_cancel' hs).le

theorem startPayload_dec (s : State) : (startPayload s).dec = s.dec := by
  rcases startPayload_cases s with ⟨_, e⟩ | ⟨_, _, e⟩ | ⟨_, _, e⟩ <;> rw [e] <;> rfl

theorem addType_dec {b : Byte} {k : State → State} (hk : ∀ s, (k s).dec = s.dec) (s : State) :
    (addType b k s).dec = s.dec := by
  rcases addType_cases b k s with ⟨_, e⟩ | ⟨_, e⟩ <;> rw [e]
  · exact hk _
  · rfl

theorem addSize_dec {b : Byte} {k : State → State} (hk : ∀ s, (k s).dec = s.dec) (s : State) :
    (addSize b k s).dec = s.dec := by
  rcases addSize_cases b k s with ⟨_, e⟩ | ⟨_, e⟩ <;> rw [e]
  · exact hk _
  · rfl

theorem copyByte_dec (b : Byte) (s : State) : (copyByte b s).dec = s.dec := by
  rcases copyByte_cases b s with ⟨_, e⟩ | ⟨_, e⟩ <;> rw [e] <;> rfl

/-- Every operation keeps the cursor within its buffer. -/
theorem exec_cursorInBounds {i : Instr} {s t : State} (h : exec i s = .next t)
    (hs : s.CursorInBounds) : t.CursorInBounds := by
  have kept (hd : t.dec = s.dec) : t.CursorInBounds := by
    rwa [State.CursorInBounds, hd]
  cases i
  case scanHdrSeiLiteral | scanHdrSeiTypemask b | scanHdrOther b | scanZero | scanOne | scanOther b
      | endScan | copyEpb | endTrunc | doneAny sym | decodeFpa =>
    cases h
    exact hs
  case typeCont | typeLast b =>
    cases h
    refine kept (addType_dec (fun _ => ?_) s)
    rfl
  case sizeCont => cases h; exact kept (addSize_dec (fun _ => rfl) s)
  case sizeLast b => cases h; exact kept (addSize_dec startPayload_dec s)
  case copyData b => cases h; exact kept (copyByte_dec b s)
  case readBit => exact runRead_cursorInBounds (readBit_advances _ _) h
  case readU w =>
    rcases Nat.lt_or_ge 32 w with hw | hw
    · rw [readWidthOver32IsRefused s w hw] at h
      cases h
    · rw [exec_readU hw] at h
      exact runRead_cursorInBounds (readU_advances _ _ _) h
  case readUe => exact runRead_cursorInBounds (readUe_advances _ _ _) h
  case fpaId | fpaRepetitionPeriod => exact runField_cursorInBounds (readUe_advances _ _ _) h
  case fpaCancel | fpaType | fpaQuincunx | fpaCit | fpaSpatialFlipping | fpaFrame0Flipped
      | fpaFieldViews | fpaCurrentFrameIsFrame0 | fpaFrame0SelfContained | fpaFrame1SelfContained
      | fpaGrid0 | fpaGrid1 | fpaGrid2 | fpaGrid3 | fpaReservedByte | fpaExtensionFlag =>
    exact runField_cursorInBounds (readU_advances _ _ _) h
  case fpaTrailer => cases h; exact readTrailer_cursorInBounds hs

/-- Settles O39: each operation keeps the cursor in bounds, and each read that returns advances
it. -/
theorem cursorStaysInBounds : Obligations.CursorStaysInBounds := by
  refine ⟨fun _ _ _ h hs => exec_cursorInBounds h hs, fun buf w cap v c c' h => ?_⟩
  have hadv : c.Advances c' := by
    rcases h with h | h | h
    · exact readBit_advances buf c v c' h
    · exact readU_advances buf w c v c' h
    · exact readUe_advances cap buf c v c' h
  exact ⟨hadv.pos_le, hadv.len_eq⟩

end Sys2Proof.Machine
end

section
/-! PROOFS. The scanner's operations (spec/41_nal_scanner.md R70 to R76): what each does to the match
state, how the run ends in SCAN mode, and that no byte is matched inside a unit. -/

namespace Sys2Proof.Machine

/-! ### The match state, by the byte -/

theorem scNext_zero {sc : Fin 4} (h : sc < 3) : scNext sc 0x00 = if sc = 0 then 1 else 2 := by
  revert sc
  decide

theorem scNext_one (sc : Fin 4) : scNext sc 0x01 = if sc = 2 then 3 else 0 := by
  revert sc
  decide

theorem scNext_other (sc : Fin 4) {b : Byte} (h0 : b ≠ 0x00) (h1 : b ≠ 0x01) :
    scNext sc b = 0 := by
  simp only [scNext, h0, h1, if_false, ite_self]

/-- Settles O16: the three rows are `scanByte` of their byte, which moves `sc` by `ScNext`. -/
theorem scanByteAdvancesTheMatchState : Obligations.ScanByteAdvancesTheMatchState := by
  intro s b hsc
  rw [← scNext_zero hsc, ← scNext_one]
  refine ⟨rfl, rfl, fun h0 h1 => ?_⟩
  rw [← scNext_other s.sc h0 h1]
  rfl

/-! ### The byte after a start code -/

/-- Settles O17: both header rows are `beginUnit`, and so is the step. -/
theorem seiHeaderBeginsAUnit : Obligations.SeiHeaderBeginsAUnit :=
  ⟨fun _ _ => ⟨rfl, rfl⟩, fun _ _ _ hf hm hsc hi hh => step_beginUnit hf hm hi hsc hh⟩

/-- Settles O18: a byte that fails the header test ends the step as `StepEnd.hdrOther` says. -/
theorem otherHeaderIsIgnored : Obligations.OtherHeaderIsIgnored :=
  ⟨fun _ _ => rfl, fun _ b _ hf hm hsc hi hh =>
    step_of_end hf hi (.hdrOther b hm hsc (Bool.eq_false_of_not_eq_true hh))⟩

/-! ### The end of the stream in SCAN mode -/

/-- End in SCAN mode ends the run, whatever has been matched (41_nal_scanner.md R74). -/
theorem step_endScan {s : State} {rest : List Symbol} (hf : s.fault = none) (hm : s.mode = .scan)
    (hi : s.input = .eos :: rest) : step s = .next { s.consume rest with mode := .done } :=
  step_of_end hf hi (.endScan hm)

/-- Settles O19: the row and the step set the mode and nothing else. -/
theorem endInScanModeEndsTheRun : Obligations.EndInScanModeEndsTheRun :=
  ⟨fun _ => rfl, fun _ _ => step_endScan⟩

/-- Settles O21: the bytes only move `sc`, so End finds the scanner in SCAN mode with the log it
began with. -/
theorem streamWithoutUnitsEmitsNothing : Obligations.StreamWithoutUnitsEmitsNothing := by
  intro s bs hf hm hsc hn hi
  refine ⟨{ (s.scanned bs [.eos]).consume [] with mode := .done }, ?_, rfl, hf, rfl, rfl⟩
  rw [runSteps_add (runSteps_noUnit hf hm hsc hn hi),
    runSteps_succ (step_endScan (s := s.scanned bs [.eos]) hf hm rfl), runSteps_zero]

/-! ### The match state inside a unit -/

theorem startPayload_sc (s : State) : (startPayload s).sc = s.sc := by
  rcases startPayload_cases s with ⟨_, e⟩ | ⟨_, _, e⟩ | ⟨_, _, e⟩ <;>
    simp only [e, State.raiseFault_sc, finish_sc]

theorem typeByte_sc (b : Byte) (s : State) : (typeByte b s).sc = s.sc := by
  rcases typeByte_cases b s with ⟨_, e⟩ | ⟨_, _, e⟩ | ⟨_, _, e⟩ <;>
    simp only [e, State.raiseFault_sc]

theorem sizeByte_sc (b : Byte) (s : State) : (sizeByte b s).sc = s.sc := by
  rcases sizeByte_cases b s with ⟨_, e⟩ | ⟨_, _, e⟩ | ⟨_, _, e⟩ <;>
    simp only [e, State.raiseFault_sc, startPayload_sc]

theorem copyByte_sc (b : Byte) (s : State) : (copyByte b s).sc = s.sc := by
  rcases copyByte_cases b s with ⟨_, e⟩ | ⟨_, e⟩ <;> simp only [e, finish_sc, storeByte_sc]

/-- A step from inside a unit leaves `sc`; a step from outside that ends inside a unit begins it,
with `sc` 0 (41_nal_scanner.md R71, R75). -/
theorem step_sc {s t : State} (h : step s = .next t) :
    (inUnit s.mode ∧ t.sc = s.sc) ∨ (¬ inUnit s.mode ∧ (inUnit t.mode → t.sc = 0)) := by
  obtain ⟨_, rest, _, _, hend⟩ := step_next h
  have stays (hs : ¬ inUnit s.mode) (hm : t.mode = s.mode) :
      (inUnit s.mode ∧ t.sc = s.sc) ∨ (¬ inUnit s.mode ∧ (inUnit t.mode → t.sc = 0)) :=
    .inr ⟨hs, fun ht => absurd (hm ▸ ht) hs⟩
  cases hend with
  | scan b hm => exact stays (hm ▸ not_inUnit_scan) rfl
  | hdrSei b hm => exact .inr ⟨hm ▸ not_inUnit_scan, fun _ => rfl⟩
  | hdrOther b hm => exact stays (hm ▸ not_inUnit_scan) rfl
  | endScan hm => exact .inr ⟨hm ▸ not_inUnit_scan, fun ht => absurd ht not_inUnit_done⟩
  | type b hm => exact .inl ⟨.inl hm, typeByte_sc b _⟩
  | size b hm => exact .inl ⟨.inr (.inl hm), sizeByte_sc b _⟩
  | epb hm => exact .inl ⟨.inr (.inr hm), rfl⟩
  | copy b hm => exact .inl ⟨.inr (.inr hm), copyByte_sc b _⟩
  | trunc hm => exact .inl ⟨hm, rfl⟩
  | done _ hm => exact stays (hm ▸ not_inUnit_done) rfl

/-- Settles O22: the step leaves the 0 that the unit had, or begins a unit with 0. -/
theorem scanningResumesWithNothingMatched : Obligations.ScanningResumesWithNothingMatched := by
  intro s t hsc h
  rcases step_sc h with ⟨hs, hkeep⟩ | ⟨hs, hbegin⟩
  · have ht : t.sc = 0 := hkeep.trans (hsc hs)
    exact ⟨fun _ _ => ht, fun _ => ht⟩
  · exact ⟨fun hu => absurd hu hs, hbegin⟩

end Sys2Proof.Machine
end

section
/-! PROOFS. The extractor's operations (spec/42_payload_extractor.md R77 to R83, R86): the
accumulated bytes of the type and the size and where they overflow, the start of a payload, a stored
and a discarded byte, and the end of the stream inside a unit. -/

namespace Sys2Proof.Machine

/-! ### The accumulators -/

section

variable {b : Byte} {k : State → State} {s : State}

theorem addType_of_fits (h : ∀ n, s.params.accBits = some n → s.pt + b.toNat < 2 ^ n) :
    addType b k s = k { s with pt := s.pt + b.toNat } :=
  if_pos ((fitsAcc_iff _ _).mpr h)

theorem addType_of_overflow (h : ∃ n, s.params.accBits = some n ∧ 2 ^ n ≤ s.pt + b.toNat) :
    addType b k s = s.raiseFault .capacityExceeded :=
  if_neg (Bool.eq_false_iff.mp ((not_fitsAcc_iff _ _).mpr h))

theorem addSize_of_fits (h : ∀ n, s.params.accBits = some n → s.ps + b.toNat < 2 ^ n) :
    addSize b k s = k { s with ps := s.ps + b.toNat } :=
  if_pos ((fitsAcc_iff _ _).mpr h)

theorem addSize_of_overflow (h : ∃ n, s.params.accBits = some n ∧ 2 ^ n ≤ s.ps + b.toNat) :
    addSize b k s = s.raiseFault .capacityExceeded :=
  if_neg (Bool.eq_false_iff.mp ((not_fitsAcc_iff _ _).mpr h))

end

/-- Settles O23: each row is `addType` of its byte, which adds it or faults. -/
theorem typeBytesAccumulate : Obligations.TypeBytesAccumulate := by
  refine fun s b => ⟨fun h => ?_, fun h => ?_, fun h => ?_, fun h => ?_⟩
  · exact congrArg _ (addType_of_fits (b := ffCont) h)
  · exact congrArg _ (addType_of_overflow (b := ffCont) h)
  · exact congrArg _ (addType_of_fits h)
  · exact congrArg _ (addType_of_overflow h)

/-! ### The start of a payload -/

/-- A payload of no bytes has no first bit, so its decode raises at the first field. -/
theorem decodeRecord_no_bytes (p : Params) (buf : Memory) :
    decodeRecord p buf 0 = malformedRecord .outOfRange 0 .empty := by
  have hid : readUe p.egMaxZeros buf (DecodeRegs.start 0).cur =
      .raised .outOfRange (DecodeRegs.start 0).cur :=
    readUe_of_zeroRun_raised (zeroRun_of_end (Nat.le_refl _))
  rw [decodeRecord, decodeFields, fieldId, hid]
  rfl

section

variable {s : State}

theorem startPayload_of_overflow
    (h : s.pt = 45 ∧ ∃ n, s.params.bufBytes = some n ∧ n < s.ps) :
    startPayload s = s.raiseFault .capacityExceeded :=
  if_neg (Bool.eq_false_iff.mp ((not_fitsBuf_iff _ _ _).mpr h))

variable (hfit : ¬ (s.pt = 45 ∧ ∃ n, s.params.bufBytes = some n ∧ n < s.ps))

include hfit

theorem startPayload_of_bytes (hps : s.ps ≠ 0) :
    startPayload s = { s with nOut := 0, zc := 0, buf := [], mode := .copy } :=
  (if_pos ((fitsBuf_iff _ _ _).mpr hfit)).trans (if_neg hps)

theorem startPayload_of_no_bytes (hps : s.ps = 0) :
    startPayload s = finish { s with nOut := 0, zc := 0, buf := [] } :=
  (if_pos ((fitsBuf_iff _ _ _).mpr hfit)).trans (if_pos hps)

end

/-- The last size byte that fits the accumulator starts the payload (42_payload_extractor.md R78). -/
theorem exec_sizeLast_of_fits {s : State} {b : Byte}
    (h : ∀ n, s.params.accBits = some n → s.ps + b.toNat < 2 ^ n) :
    exec (.sizeLast b) s = .next (startPayload { s with ps := s.ps + b.toNat }) :=
  congrArg _ (addSize_of_fits h)

/-- Settles O24: each row is `addSize` of its byte; the last byte starts the payload, and an empty
payload finishes at once with the record of its type. -/
theorem sizeBytesAccumulateAndStartThePayload :
    Obligations.SizeBytesAccumulateAndStartThePayload := by
  refine fun s b => ⟨fun h => ?_, fun h => ?_, fun h => ?_, fun hacc => ?_⟩
  · exact congrArg _ (addSize_of_fits (b := ffCont) h)
  · exact congrArg _ (addSize_of_overflow (b := ffCont) h)
  · exact congrArg _ (addSize_of_overflow h)
  · rw [exec_sizeLast_of_fits hacc]
    refine ⟨fun hover => ?_, fun hfit => ⟨fun hps => ?_, fun hps hpt => ?_, fun hps hpt => ?_⟩⟩
    · exact congrArg _ (startPayload_of_overflow hover)
    · exact congrArg _ (startPayload_of_bytes hfit hps)
    · rw [startPayload_of_no_bytes hfit hps, finish, payloadRecord, if_neg hpt, hps]
      rfl
    · rw [startPayload_of_no_bytes hfit hps, finish, payloadRecord, if_pos hpt, hps,
        decodeRecord_no_bytes]
      rfl

/-! ### The bytes of a payload -/

/-- Settles O25: the row is `copyByte`, which stores with `Memory.write` and finishes at the last
byte. -/
theorem copyDataStoresAndFinishes : Obligations.CopyDataStoresAndFinishes := by
  refine fun s b hwf => ⟨Memory.write s.buf s.nOut b, Memory.wf_write hwf _ _,
    Memory.read_write_same _ hwf _ _, fun a ha => Memory.read_write_other _ hwf ha _,
    fun hmore => ?_, fun hlast => ?_⟩
  · exact congrArg _ (copyByte_more hmore)
  · exact congrArg _ (copyByte_last hlast)

/-- Settles O26: the row clears `zc` and writes nothing else, and the step selects it as
`StepEnd.epb` says. -/
theorem emulationPreventionByteIsDiscarded : Obligations.EmulationPreventionByteIsDiscarded :=
  ⟨fun _ => rfl, fun _ _ hf hm hz hi => step_of_end hf hi (.epb hm hz)⟩

/-! ### The end of the stream inside a unit -/

theorem exec_endTrunc {m : Mode} {s : State} (hm : s.mode = m) :
    exec .endTrunc s =
      .next { s.emit (truncatedRecord m s.pt s.ps) with mode := .done } := by
  rw [← hm]
  rfl

/-- Settles O27: the record is `truncatedRecord` of the mode, taken at each of the three modes of a
unit. -/
theorem endInsideAUnitIsTruncation : Obligations.EndInsideAUnitIsTruncation :=
  fun _ => ⟨exec_endTrunc, exec_endTrunc, exec_endTrunc⟩

end Sys2Proof.Machine
end

section
/-! PROOFS. The frame-packing operations one by one (spec/43_frame_packing.md R87 to R109): what each
field read, FPA_TRAILER and DECODE_FPA write, how a failing read aborts the unit, and what the record
of a whole decode holds. -/

namespace Sys2Proof.Machine

/-! ### A field read that completes -/

theorem runField_readU_of_le {s : State} {w : Nat} (set : Nat → FieldFile → FieldFile)
    (hin : s.dec.cur.pos + w ≤ s.dec.cur.len) :
    runField (readField (readU s.buf w s.dec.cur) set s.dec) s =
      .next { s with dec := { s.dec with
        cur := { s.dec.cur with pos := s.dec.cur.pos + w }
        fpa := set (bitsValue s.buf s.dec.cur.pos w) s.dec.fpa } } := by
  rw [readField_readU_of_le set hin]
  rfl

theorem runField_readUe_of_codeword {s : State} {v : Nat} (set : Nat → FieldFile → FieldFile)
    (hin : s.dec.cur.pos + (ueBits v).length ≤ s.dec.cur.len)
    (hv : v + 2 ≤ 2 ^ (s.params.egMaxZeros.val + 1))
    (hbits : bitsFrom s.buf s.dec.cur.pos (ueBits v).length = ueBits v) :
    runField (readField (readUe s.params.egMaxZeros s.buf s.dec.cur) set s.dec) s =
      .next { s with dec := { s.dec with
        cur := { s.dec.cur with pos := s.dec.cur.pos + (ueBits v).length }
        fpa := set v s.dec.fpa } } := by
  rw [readField_readUe_of_codeword set hin hv hbits]
  rfl

/-- Settles O42: each operation is the read of its width into its own slot. -/
theorem fixedWidthFieldsReadTheirSlots : Obligations.FixedWidthFieldsReadTheirSlots := by
  rintro s _ _ rfl rfl
  exact ⟨runField_readU_of_le _, runField_readU_of_le _, runField_readU_of_le _,
    runField_readU_of_le _, runField_readU_of_le _, runField_readU_of_le _,
    runField_readU_of_le _, runField_readU_of_le _, runField_readU_of_le _,
    runField_readU_of_le _, runField_readU_of_le _, runField_readU_of_le _,
    runField_readU_of_le _, runField_readU_of_le _, runField_readU_of_le _,
    runField_readU_of_le _⟩

/-- Settles O43: each operation is the read of a codeword into its own slot. -/
theorem expGolombFieldsReadTheirSlots : Obligations.ExpGolombFieldsReadTheirSlots :=
  fun _ _ hin hv hbits =>
    ⟨runField_readUe_of_codeword _ hin hv hbits, runField_readUe_of_codeword _ hin hv hbits⟩

/-! ### A field read that fails -/

/-- An item of format u(w) reads w bits into some slot. -/
theorem exec_of_itemFormat_u {i : Instr} {w : Nat} (h : itemFormat i = some (.u w)) (s : State) :
    ∃ set, exec i s = runField (readField (readU s.buf w s.dec.cur) set s.dec) s := by
  cases i
  case fpaCancel | fpaType | fpaQuincunx | fpaCit | fpaSpatialFlipping | fpaFrame0Flipped
      | fpaFieldViews | fpaCurrentFrameIsFrame0 | fpaFrame0SelfContained | fpaFrame1SelfContained
      | fpaGrid0 | fpaGrid1 | fpaGrid2 | fpaGrid3 | fpaReservedByte | fpaExtensionFlag =>
    cases h
    exact ⟨_, rfl⟩
  all_goals cases h

/-- An item of format ue(v) reads a codeword into some slot. -/
theorem exec_of_itemFormat_ue {i : Instr} (h : itemFormat i = some .ue) (s : State) :
    ∃ set, exec i s =
      runField (readField (readUe s.params.egMaxZeros s.buf s.dec.cur) set s.dec) s := by
  cases i
  case fpaId | fpaRepetitionPeriod => exact ⟨_, rfl⟩
  all_goals cases h

/-- A field whose read raises is aborted with the fields completed so far. -/
theorem runField_of_raised {r : Read} {e : ErrKind} {c : Cursor} (hr : r = .raised e c)
    (set : Nat → FieldFile → FieldFile) (s : State) :
    runField (readField r set s.dec) s = .next (s.takeError e) := by
  rw [hr]
  rfl

/-- Settles O44: an item's format says which read it issues, and the error that read raises is
taken. -/
theorem failingFieldReadAbortsTheUnit : Obligations.FailingFieldReadAbortsTheUnit := by
  refine fun s i => ⟨fun w hi hout => ?_, fun c hi hraise => ?_, fun c hi hraise => ?_⟩
  · obtain ⟨set, hexec⟩ := exec_of_itemFormat_u hi s
    exact hexec.trans (runField_of_raised (readU_of_lt hout) set s)
  · obtain ⟨set, hexec⟩ := exec_of_itemFormat_ue hi s
    exact hexec.trans (runField_of_raised hraise set s)
  · obtain ⟨set, hexec⟩ := exec_of_itemFormat_ue hi s
    exact hexec.trans (runField_of_raised hraise set s)

/-! ### FPA_TRAILER and DECODE_FPA -/

theorem exec_fpaTrailer (s : State) :
    exec .fpaTrailer s = .next (s.setDec (readTrailer s.buf s.dec)) := rfl

theorem readTrailer_of_le {buf : Memory} {d : DecodeRegs} (h : d.cur.pos ≤ d.cur.len) :
    readTrailer buf d =
      { d with cur := { d.cur with pos := d.cur.len },
               trailer := bitsFrom buf d.cur.pos (d.cur.len - d.cur.pos) } := by
  rw [readTrailer, Nat.add_sub_cancel' h]

/-- Settles O45: the trailer is the bits from the cursor on. -/
theorem trailerTakesTheRemainingBits : Obligations.TrailerTakesTheRemainingBits := by
  refine fun s hs => ⟨_, ?_, bitsFrom_length s.buf s.dec.cur.pos _, bitsFrom_getElem? _ _ _⟩
  rw [exec_fpaTrailer, readTrailer_of_le hs]
  rfl

/-- Settles O46: DECODE_FPA is the emission of the decode's record. -/
theorem decodeFpaWritesOnlyTheLog : Obligations.DecodeFpaWritesOnlyTheLog :=
  fun _ => rfl

/-! ### The record of a decode -/

theorem slotFits.isSome {n : Nat} {o : Option Nat} (h : slotFits n o) : o.isSome = true := by
  obtain ⟨v, rfl, -⟩ := h
  rfl

theorem RecordForm.okShape {cap : Nat} {r : Record} (h : RecordForm cap r)
    (hr : r.status = .fpaOk) : OkShape cap r.fpa := by
  rw [RecordForm, hr] at h
  obtain ⟨-, -, -, hshape⟩ := h
  exact hshape

/-- The quartet of an arrangement that is not cancelled is there exactly where `GridPresent` holds
(43_frame_packing.md R99). -/
theorem OkShape.grid_isSome {cap : Nat} {f : FieldFile} (h : OkShape cap f)
    (hc : f.cancelFlag = some 0) :
    f.grid0.isSome = gridPresent f ∧ f.grid1.isSome = gridPresent f ∧
      f.grid2.isSome = gridPresent f ∧ f.grid3.isSome = gridPresent f := by
  cases hg : gridPresent f
  · obtain ⟨h0, h1, h2, h3⟩ := h.gridNotRead hc ((gridPresent_eq_false_iff f).mp hg)
    rw [h0, h1, h2, h3]
    exact ⟨rfl, rfl, rfl, rfl⟩
  · obtain ⟨hq, ht⟩ := (gridPresent_iff f).mp hg
    obtain ⟨h0, h1, h2, h3⟩ := h.gridRead hc hq ht
    exact ⟨h0.isSome, h1.isSome, h2.isSome, h3.isSome⟩

/-- Settles O48: a completed decode has the shape of R108, whose quartet follows `GridPresent`. -/
theorem gridIsReadExactlyWhenPresent : Obligations.GridIsReadExactlyWhenPresent := by
  rintro p buf ps r rfl hok hc
  obtain ⟨h0, h1, h2, h3⟩ := ((decodeRecord_form p buf ps).okShape hok).grid_isSome hc
  rw [h0, h1, h2, h3, gridPresent_iff]
  exact ⟨Iff.rfl, rfl, rfl, rfl⟩

/-- Settles O50: the first item of the run that fails takes the error its own read met. -/
theorem failedDecodeIsMalformed : Obligations.FailedDecodeIsMalformed := by
  refine fun s hs => ⟨fun e d hd => ?_, fun hrec => ?_⟩
  · rw [hs] at hd
    have hruns := decodeFields_runsAs s
    have hends := decodeFields_ends s.params s.buf s.ps
    rw [hd] at hruns hends
    obtain ⟨k, hk, d0, hrun, hfpa, hfail⟩ := hruns
    rw [← hs] at hrun
    refine ⟨?_, hends, k, _, hk, hrun, rfl, hfpa.symm, item_takeError (grammarNext_isItem _) hfail⟩
    rw [decodeRecord_of_raised hd]
    cases e <;> rfl
  · rw [hs]
    rcases decodeRecord_cases s.params s.buf s.ps with ⟨d, -, h⟩ | ⟨e, d, hd, -⟩
    · exact absurd (congrArg Record.status h) hrec
    · exact ⟨e, d, hd⟩

end Sys2Proof.Machine
end

section
/-! PROOFS. What lies outside the scan never changes it (spec/60_exceptions.md R120): states that
agree as `SameScan` says take the same step, whatever their payload bytes and decodes are. -/

namespace Sys2Proof.Machine

/-! ### From one step to every run -/

/-- A relation that every step keeps is kept by every run. -/
theorem sameOutcome_runSteps {rel : State → State → Prop}
    (hstep : ∀ s t, rel s t → SameOutcome rel (step s) (step t)) {s t : State} (h : rel s t)
    (k : Nat) : SameOutcome rel (runSteps k s) (runSteps k t) := by
  induction k generalizing s t with
  | zero => exact h
  | succ k ih =>
    have hst := hstep s t h
    rw [runSteps, runSteps]
    cases hs : step s <;> cases ht : step t <;> rw [hs, ht] at hst
    case next.next => exact ih hst
    case fault.fault | refused.refused => exact hst
    all_goals exact hst.elim

/-! ### The shared operations -/

section

variable {s t : State}

theorem SameScan.consume (h : SameScan s t) (rest : List Symbol) :
    SameScan (s.consume rest) (t.consume rest) :=
  { h with inPos := congrArg (· + 1) h.inPos, input := rfl }

theorem SameScan.raiseFault (h : SameScan s t) (f : ModelFault) :
    SameScan (s.raiseFault f) (t.raiseFault f) :=
  { h with fault := rfl }

theorem SameScan.setMode (h : SameScan s t) (m : Mode) :
    SameScan { s with mode := m } { t with mode := m } :=
  { h with mode := rfl }

theorem SameScan.setSc (h : SameScan s t) {c d : Fin 4} (hc : c = d) :
    SameScan { s with sc := c } { t with sc := d } :=
  { h with sc := hc }

/-- The two records may differ: only the length of the log is compared. -/
theorem SameScan.emit (h : SameScan s t) (r q : Record) : SameScan (s.emit r) (t.emit q) :=
  { h with units := by rw [State.emit_out, State.emit_out, List.length_append, List.length_append,
      h.units, List.length_singleton, List.length_singleton] }

theorem SameScan.ite_congr {c d : Prop} [Decidable c] [Decidable d] {s' t' : State} (hcd : c ↔ d)
    (h : SameScan s t) (h' : SameScan s' t') :
    SameScan (if c then s else s') (if d then t else t') := by
  by_cases hc : c
  · rwa [if_pos hc, if_pos (hcd.mp hc)]
  · rwa [if_neg hc, if_neg (mt hcd.mpr hc)]

theorem SameScan.fitsAcc (h : SameScan s t) {v w : Nat} (hv : v = w) :
    fitsAcc s.params v = true ↔ fitsAcc t.params w = true := by
  rw [fitsAcc_iff, fitsAcc_iff, h.accBits, hv]

theorem SameScan.fitsBuf (h : SameScan s t) :
    fitsBuf s.params s.pt s.ps = true ↔ fitsBuf t.params t.pt t.ps = true := by
  rw [fitsBuf_iff, fitsBuf_iff, h.bufBytes, h.pt, h.ps]

theorem SameScan.beginUnit (h : SameScan s t) : SameScan (beginUnit s) (beginUnit t) :=
  { h with mode := rfl, pt := rfl, ps := rfl, sc := rfl }

/-- A decode reaches the log only, whether it succeeds or fails (43_frame_packing.md R87). -/
theorem SameScan.finish (h : SameScan s t) : SameScan (finish s) (finish t) :=
  (h.emit _ _).setMode .scan

theorem SameScan.startPayload (h : SameScan s t) : SameScan (startPayload s) (startPayload t) := by
  have hstart : SameScan { s with nOut := 0, zc := 0, buf := [] }
      { t with nOut := 0, zc := 0, buf := [] } := { h with nOut := rfl, zc := rfl }
  have hps : s.ps = 0 ↔ t.ps = 0 := by rw [h.ps]
  exact .ite_congr h.fitsBuf (.ite_congr hps hstart.finish (hstart.setMode .copy))
    (h.raiseFault _)

theorem SameScan.addType (h : SameScan s t) (b : Byte) {k : State → State}
    (hk : ∀ s t, SameScan s t → SameScan (k s) (k t)) :
    SameScan (addType b k s) (addType b k t) := by
  have hpt : s.pt + b.toNat = t.pt + b.toNat := by rw [h.pt]
  exact .ite_congr (h.fitsAcc hpt) (hk _ _ { h with pt := hpt }) (h.raiseFault _)

theorem SameScan.addSize (h : SameScan s t) (b : Byte) {k : State → State}
    (hk : ∀ s t, SameScan s t → SameScan (k s) (k t)) :
    SameScan (addSize b k s) (addSize b k t) := by
  have hps : s.ps + b.toNat = t.ps + b.toNat := by rw [h.ps]
  exact .ite_congr (h.fitsAcc hps) (hk _ _ { h with ps := hps }) (h.raiseFault _)

theorem SameScan.storeByte (h : SameScan s t) (b : Byte) :
    SameScan (storeByte b s) (storeByte b t) :=
  { h with nOut := congrArg (· + 1) h.nOut, zc := congrArg (zcNext · b) h.zc }

/-! ### The bytes of a unit -/

theorem SameScan.typeByte (h : SameScan s t) (b : Byte) : SameScan (typeByte b s) (typeByte b t) :=
  .ite_congr Iff.rfl (h.addType _ fun _ _ h => h) (h.addType _ fun _ _ h => h.setMode .size)

theorem SameScan.sizeByte (h : SameScan s t) (b : Byte) : SameScan (sizeByte b s) (sizeByte b t) :=
  .ite_congr Iff.rfl (h.addSize _ fun _ _ h => h) (h.addSize _ fun _ _ h => h.startPayload)

theorem SameScan.copyByte (h : SameScan s t) (b : Byte) :
    SameScan (copyByte b s) (copyByte b t) := by
  have hstore := h.storeByte b
  exact .ite_congr (by rw [hstore.nOut, hstore.ps]) hstore.finish hstore

/-! ### One step -/

/-- Whatever way a step ends from s, a step from t ends the same way. -/
theorem SameScan.stepEnd (h : SameScan s t) {sym : Symbol} {rest : List Symbol} {s' : State}
    (he : StepEnd s (s.consume rest) sym s') :
    ∃ t', StepEnd t (t.consume rest) sym t' ∧ SameScan s' t' := by
  have hu := h.consume rest
  have hmode : ∀ {m}, s.mode = m → t.mode = m := fun hm => h.mode ▸ hm
  cases he with
  | scan b hm hsc =>
    exact ⟨_, .scan b (hmode hm) (h.sc ▸ hsc), hu.setSc (congrArg (scNext · b) hu.sc)⟩
  | hdrSei b hm hsc hh =>
    exact ⟨_, .hdrSei b (hmode hm) (h.sc ▸ hsc) (h.hdrMatch ▸ hh), hu.beginUnit⟩
  | hdrOther b hm hsc hh =>
    exact ⟨_, .hdrOther b (hmode hm) (h.sc ▸ hsc) (h.hdrMatch ▸ hh), hu.setSc rfl⟩
  | endScan hm => exact ⟨_, .endScan (hmode hm), hu.setMode .done⟩
  | type b hm => exact ⟨_, .type b (hmode hm), hu.typeByte b⟩
  | size b hm => exact ⟨_, .size b (hmode hm), hu.sizeByte b⟩
  | epb hm hz => exact ⟨_, .epb (hmode hm) (h.zc ▸ hz), { hu with zc := rfl }⟩
  | copy b hm hz => exact ⟨_, .copy b (hmode hm) (h.zc ▸ hz), hu.copyByte b⟩
  | trunc hm => exact ⟨_, .trunc (h.mode ▸ hm), (hu.emit _ _).setMode .done⟩
  | done _ hm => exact ⟨_, .done sym (hmode hm), hu.raiseFault _⟩

theorem SameScan.step (h : SameScan s t) : SameOutcome SameScan (step s) (step t) := by
  cases hf : s.fault with
  | some f =>
    rw [step_faulted hf, step_faulted (h.fault ▸ hf)]
    rfl
  | none =>
    cases hi : s.input with
    | nil =>
      rw [step_waiting hf hi, step_waiting (h.fault ▸ hf) (h.input ▸ hi)]
      rfl
    | cons sym rest =>
      obtain ⟨s', hs, he⟩ := step_ends hf hi
      obtain ⟨t', he', hrel⟩ := h.stepEnd he
      rw [hs, step_of_end (h.fault ▸ hf) (h.input ▸ hi) he']
      exact hrel

end

/-- Settles O52, by the step lemma: whatever a step reads to choose what to do, `SameScan` fixes. -/
theorem errorsNeverChangeTheScan : Obligations.ErrorsNeverChangeTheScan :=
  fun _ _ => sameOutcome_runSteps fun _ _ => SameScan.step

end Sys2Proof.Machine
end

section
/-! PROOFS. The model faults (spec/60_exceptions.md R116): when a step raises one, and what such a
step leaves. -/

namespace Sys2Proof.Machine

/-! ### When a byte passes a capacity -/

/-- A byte from s passes a capacity (42_payload_extractor.md R77 to R79, R84). -/
def ExceedsCapacity (s : State) (b : Byte) : Prop :=
  (s.mode = .type ∧ ∃ k, s.params.accBits = some k ∧ 2 ^ k ≤ s.pt + b.toNat) ∨
  (s.mode = .size ∧ ∃ k, s.params.accBits = some k ∧ 2 ^ k ≤ s.ps + b.toNat) ∨
  (s.mode = .size ∧ b ≠ 0xFF ∧ s.pt = 45 ∧
    ∃ n, s.params.bufBytes = some n ∧ n < s.ps + b.toNat)

section

variable {s : State} {b : Byte}

theorem exceedsCapacity_type_iff (hm : s.mode = .type) :
    ExceedsCapacity s b ↔ fitsAcc s.params (s.pt + b.toNat) = false := by
  simp [ExceedsCapacity, hm, not_fitsAcc_iff]

theorem exceedsCapacity_size_iff (hm : s.mode = .size) :
    ExceedsCapacity s b ↔ fitsAcc s.params (s.ps + b.toNat) = false ∨
      (b ≠ 0xFF ∧ fitsBuf s.params s.pt (s.ps + b.toNat) = false) := by
  simp [ExceedsCapacity, hm, not_fitsAcc_iff, not_fitsBuf_iff]

theorem ExceedsCapacity.mode (h : ExceedsCapacity s b) : s.mode = .type ∨ s.mode = .size := by
  rcases h with ⟨hm, _⟩ | ⟨hm, _⟩ | ⟨hm, _⟩
  · exact .inl hm
  · exact .inr hm
  · exact .inr hm

end

/-- The symbol offered next is a byte that passes a capacity. -/
def InputExceedsCapacity (s : State) : Prop :=
  ∃ b rest, s.input = .byte b :: rest ∧ ExceedsCapacity s b

theorem inputExceedsCapacity_byte_iff {s : State} {b : Byte} {rest : List Symbol}
    (hi : s.input = .byte b :: rest) : InputExceedsCapacity s ↔ ExceedsCapacity s b := by
  simp [InputExceedsCapacity, hi]

theorem not_inputExceedsCapacity_eos {s : State} {rest : List Symbol}
    (hi : s.input = .eos :: rest) : ¬ InputExceedsCapacity s := by
  simp [InputExceedsCapacity, hi]

/-- Outside TYPE and SIZE mode no byte passes a capacity. -/
theorem not_inputExceedsCapacity_of_mode {s : State} {m : Mode} (hm : s.mode = m)
    (hne : m ≠ .type ∧ m ≠ .size) : ¬ InputExceedsCapacity s := by
  rintro ⟨b, rest, -, hc⟩
  rcases hc.mode with h | h
  · exact hne.1 (hm.symm.trans h)
  · exact hne.2 (hm.symm.trans h)

/-! ### The checks of TYPE and SIZE mode -/

/-- What a byte of `payload_type` or `payload_size` from s, with t after it, does to the fault
register. -/
inductive CapacityCheck (s t : State) (b : Byte) : Prop where
  | fits (hc : ¬ ExceedsCapacity s b) (ht : t.fault = s.fault)
  | exceeds (hc : ExceedsCapacity s b) (ht : t.fault = some .capacityExceeded)
      (hout : t.out = s.out) (hmode : t.mode = s.mode)

theorem capacityCheck_typeByte {s : State} (hm : s.mode = .type) (b : Byte) :
    CapacityCheck s (typeByte b s) b := by
  have hc := exceedsCapacity_type_iff (b := b) hm
  rcases typeByte_cases b s with ⟨hacc, e⟩ | ⟨hacc, _, e⟩ | ⟨hacc, _, e⟩ <;> rw [e]
  · exact .exceeds (hc.mpr hacc) rfl rfl rfl
  · exact .fits (mt hc.mp (by simp [hacc])) rfl
  · exact .fits (mt hc.mp (by simp [hacc])) rfl

theorem capacityCheck_sizeByte {s : State} (hm : s.mode = .size) (b : Byte) :
    CapacityCheck s (sizeByte b s) b := by
  have hc := exceedsCapacity_size_iff (b := b) hm
  rcases sizeByte_cases b s with ⟨hacc, e⟩ | ⟨hacc, hb, e⟩ | ⟨hacc, hb, e⟩ <;> rw [e]
  · exact .exceeds (hc.mpr (.inl hacc)) rfl rfl rfl
  · exact .fits (mt hc.mp (by rw [hacc]; simp [hb])) rfl
  · have hnot (hbuf : fitsBuf s.params s.pt (s.ps + b.toNat) = true) : ¬ ExceedsCapacity s b :=
      mt hc.mp (by simp [hacc, hbuf])
    rcases startPayload_cases { s with ps := s.ps + b.toNat } with
      ⟨hbuf, e⟩ | ⟨hbuf, _, e⟩ | ⟨hbuf, _, e⟩ <;> rw [e]
    · exact .exceeds (hc.mpr (.inr ⟨hb, hbuf⟩)) rfl rfl rfl
    · exact .fits (hnot hbuf) rfl
    · exact .fits (hnot hbuf) rfl

theorem copyByte_fault (b : Byte) (s : State) : (copyByte b s).fault = s.fault := by
  rcases copyByte_cases b s with ⟨_, e⟩ | ⟨_, e⟩ <;> rw [e]
  · rfl
  · rfl

/-! ### The fault register after a step -/

/-- What a step from s to t does to the fault register. -/
inductive StepFault (s t : State) : Prop where
  | noFault (hm : s.mode ≠ .done) (hc : ¬ InputExceedsCapacity s) (ht : t.fault = none)
  | afterEnd (hm : s.mode = .done) (ht : t.fault = some .inputAfterEnd) (hout : t.out = s.out)
      (hmode : t.mode = s.mode)
  | capacity (hc : InputExceedsCapacity s) (ht : t.fault = some .capacityExceeded)
      (hout : t.out = s.out) (hmode : t.mode = s.mode)

/-- The check of the byte consumed is the step's whole effect on the fault register. -/
theorem StepFault.of_check {s t : State} {b : Byte} {rest : List Symbol} (hf : s.fault = none)
    (hm : s.mode ≠ .done) (hi : s.input = .byte b :: rest)
    (h : CapacityCheck (s.consume rest) t b) : StepFault s t := by
  have hcause := inputExceedsCapacity_byte_iff hi
  cases h with
  | fits hc ht => exact .noFault hm (mt hcause.mp hc) (ht.trans hf)
  | exceeds hc ht hout hmode => exact .capacity (hcause.mpr hc) ht hout hmode

/-- In SCAN and COPY mode no step faults. -/
theorem StepFault.of_mode {s t : State} {m : Mode} (hm : s.mode = m)
    (hne : (m ≠ .type ∧ m ≠ .size) ∧ m ≠ .done) (ht : t.fault = none) : StepFault s t :=
  .noFault (hm ▸ hne.2) (not_inputExceedsCapacity_of_mode hm hne.1) ht

/-- Everything a step can do to the fault register. -/
theorem step_fault {s t : State} (h : step s = .next t) : StepFault s t := by
  obtain ⟨sym, rest, hf, hi, hend⟩ := step_next h
  cases hend with
  | scan b hm => exact .of_mode hm (by decide) hf
  | hdrSei b hm => exact .of_mode hm (by decide) hf
  | hdrOther b hm => exact .of_mode hm (by decide) hf
  | endScan hm => exact .of_mode hm (by decide) hf
  | type b hm =>
    exact .of_check hf (by simp [hm]) hi (capacityCheck_typeByte (s := s.consume rest) hm b)
  | size b hm =>
    exact .of_check hf (by simp [hm]) hi (capacityCheck_sizeByte (s := s.consume rest) hm b)
  | epb hm => exact .of_mode hm (by decide) hf
  | copy b hm => exact .of_mode hm (by decide) ((copyByte_fault b _).trans hf)
  | trunc hm =>
    exact .noFault (fun hd => not_inUnit_done (hd ▸ hm)) (not_inputExceedsCapacity_eos hi) hf
  | done _ hm => exact .afterEnd hm rfl rfl rfl

theorem runSteps_faulted {s : State} {f : ModelFault} (h : s.fault = some f) (k : Nat) :
    runSteps (k + 1) s = .fault f.stuck := by
  rw [runSteps, step_faulted h]

/-- Settles O14, by what a step can do to the fault register: the two causes exclude each other, one
being in DONE mode and the other in TYPE or SIZE mode. -/
theorem modelFaultsAreRaisedExactly : Obligations.ModelFaultsAreRaisedExactly := by
  refine ⟨rfl, rfl, fun s t h => ?_, fun s f k hf => runSteps_faulted hf k⟩
  have hexcl (hm : s.mode = .done) : ¬ InputExceedsCapacity s :=
    not_inputExceedsCapacity_of_mode hm (by decide)
  cases step_fault h with
  | noFault hm hc ht =>
    exact ⟨iff_of_false (by simp [ht]) hm, iff_of_false (by simp [ht]) hc, absurd ht⟩
  | afterEnd hm ht hout hmode =>
    exact ⟨iff_of_true ht hm, iff_of_false (by simp [ht]) (hexcl hm), fun _ => ⟨hout, hmode⟩⟩
  | capacity hc ht hout hmode =>
    exact ⟨iff_of_false (by simp [ht]) fun hm => hexcl hm hc, iff_of_true ht hc,
      fun _ => ⟨hout, hmode⟩⟩

end Sys2Proof.Machine
end

section
/-! PROOFS. A payload cut short (spec/60_exceptions.md R114): bytes too few to complete it leave it
open, and the end of the stream then truncates it. -/

namespace Sys2Proof.Machine

/-- From s in COPY mode to t: at most n bytes were stored, the payload is still open, and nothing
was emitted. -/
structure StaysOpen (s t : State) (n : Nat) : Prop where
  fault : t.fault = none
  mode : t.mode = .copy
  pt : t.pt = s.pt
  ps : t.ps = s.ps
  nOut : t.nOut ≤ s.nOut + n
  out : t.out = s.out

theorem StaysOpen.trans {s t u : State} {m n : Nat} (hst : StaysOpen s t m)
    (htu : StaysOpen t u n) : StaysOpen s u (n + m) where
  fault := htu.fault
  mode := htu.mode
  pt := htu.pt.trans hst.pt
  ps := htu.ps.trans hst.ps
  nOut := by have := hst.nOut; have := htu.nOut; omega
  out := htu.out.trans hst.out

/-- A byte that does not complete the payload is stored, or discarded as emulation prevention
(42_payload_extractor.md R80, R81). -/
theorem step_staysOpen {s : State} {b : Byte} {rest : List Symbol} (hf : s.fault = none)
    (hm : s.mode = .copy) (hopen : s.nOut + 1 < s.ps) (hi : s.input = .byte b :: rest) :
    ∃ t, step s = .next t ∧ t.input = rest ∧ StaysOpen s t 1 := by
  by_cases hz : s.zc = 2 ∧ b = 0x03
  · obtain ⟨hz, rfl⟩ := hz
    exact ⟨_, step_of_end hf hi (.epb hm hz), rfl, hf, hm, rfl, rfl, Nat.le_add_right _ 1, rfl⟩
  · refine ⟨storeByte b (s.consume rest), ?_, rfl, hf, hm, rfl, rfl, le_rfl, rfl⟩
    rw [step_of_end hf hi (.copy b hm hz), copyByte_more (s := s.consume rest) hopen.ne]

/-- Bytes too few to complete the payload leave it open, the discarded ones among them. -/
theorem runSteps_staysOpen {s : State} {q : List Byte} {rest : List Symbol} (hf : s.fault = none)
    (hm : s.mode = .copy) (hopen : s.nOut + q.length < s.ps)
    (hi : s.input = byteSymbols q ++ rest) :
    ∃ t, runSteps q.length s = .next t ∧ t.input = rest ∧ StaysOpen s t q.length := by
  induction q generalizing s with
  | nil => exact ⟨s, rfl, hi, hf, hm, rfl, rfl, le_rfl, rfl⟩
  | cons b q ih =>
    rw [List.length_cons] at hopen
    obtain ⟨t, hstep, hin, hst⟩ := step_staysOpen hf hm (by omega) hi
    have hmore : t.nOut + q.length < t.ps := by
      have := hst.nOut
      rw [hst.ps]
      omega
    obtain ⟨u, hrun, hin', htu⟩ := ih hst.fault hst.mode hmore hin
    exact ⟨u, (runSteps_succ hstep _).trans hrun, hin', hst.trans htu⟩

/-- Settles O32: the bytes leave the payload open, and then END_TRUNC is the step. -/
theorem shortPayloadIsTruncated : Obligations.ShortPayloadIsTruncated := by
  intro s q hf hm hopen hi
  obtain ⟨t, hrun, hin, hst⟩ := runSteps_staysOpen hf hm hopen hi
  have hend := step_of_end hst.fault hin (.trunc (.inr (.inr hst.mode)))
  refine ⟨_, (runSteps_add hrun 1).trans (runSteps_succ hend 0), rfl, hst.fault, ?_⟩
  rw [← hst.out, ← hst.pt, ← hst.ps]
  simp [hst.mode, truncatedRecord]

end Sys2Proof.Machine
end

section
/-! PROOFS. The parameters (spec/70_reset_and_hazards.md R126): no operation writes them, and so no
step does. -/

namespace Sys2Proof.Machine

theorem startPayload_params (s : State) : (startPayload s).params = s.params := by
  rcases startPayload_cases s with ⟨_, e⟩ | ⟨_, _, e⟩ | ⟨_, _, e⟩ <;> rw [e] <;> rfl

theorem addType_params {b : Byte} {k : State → State} (hk : ∀ s, (k s).params = s.params)
    (s : State) : (addType b k s).params = s.params := by
  rcases addType_cases b k s with ⟨_, e⟩ | ⟨_, e⟩ <;> rw [e]
  · exact hk _
  · rfl

theorem addSize_params {b : Byte} {k : State → State} (hk : ∀ s, (k s).params = s.params)
    (s : State) : (addSize b k s).params = s.params := by
  rcases addSize_cases b k s with ⟨_, e⟩ | ⟨_, e⟩ <;> rw [e]
  · exact hk _
  · rfl

theorem copyByte_params (b : Byte) (s : State) : (copyByte b s).params = s.params := by
  rcases copyByte_cases b s with ⟨_, e⟩ | ⟨_, e⟩ <;> rw [e] <;> rfl

theorem runRead_params {r : Read} {s t : State} (h : runRead r s = .next t) :
    t.params = s.params := by
  cases r <;> cases h <;> rfl

theorem runField_params {r : FieldRead} {s t : State} (h : runField r s = .next t) :
    t.params = s.params := by
  cases r <;> cases h <;> rfl

/-- No operation writes a parameter. -/
theorem exec_params {i : Instr} {s t : State} (h : exec i s = .next t) : t.params = s.params := by
  cases i
  case scanHdrSeiLiteral | scanHdrSeiTypemask b | scanHdrOther b | scanZero | scanOne | scanOther b
      | endScan | copyEpb | endTrunc | doneAny sym | decodeFpa | fpaTrailer =>
    cases h
    rfl
  case typeCont | typeLast b => cases h; exact addType_params (fun _ => by rfl) s
  case sizeCont => cases h; exact addSize_params (fun _ => rfl) s
  case sizeLast b => cases h; exact addSize_params startPayload_params s
  case copyData b => cases h; exact copyByte_params b s
  case readBit | readUe => exact runRead_params h
  case readU w =>
    rcases Nat.lt_or_ge 32 w with hw | hw
    · rw [readWidthOver32IsRefused s w hw] at h
      cases h
    · rw [exec_readU hw] at h
      exact runRead_params h
  case fpaId | fpaCancel | fpaType | fpaQuincunx | fpaCit | fpaSpatialFlipping | fpaFrame0Flipped
      | fpaFieldViews | fpaCurrentFrameIsFrame0 | fpaFrame0SelfContained | fpaFrame1SelfContained
      | fpaGrid0 | fpaGrid1 | fpaGrid2 | fpaGrid3 | fpaReservedByte | fpaRepetitionPeriod
      | fpaExtensionFlag =>
    exact runField_params h

theorem step_params {s t : State} (h : step s = .next t) : t.params = s.params := by
  obtain ⟨_, rest, hf, hi, -⟩ := step_next h
  rw [step_symbol hf hi] at h
  exact exec_params (s := s.consume rest) h

/-- Settles O13: a step runs one operation, behind the symbol it consumed. -/
theorem parametersAreHeldConstant : Obligations.ParametersAreHeldConstant :=
  ⟨fun _ _ _ => exec_params, fun _ _ => step_params⟩

end Sys2Proof.Machine
end

section
/-! PROOFS. The state after reset (spec/70_reset_and_hazards.md R124). -/

namespace Sys2Proof.Machine

/-- Settles O1, by the definition of the reset state. -/
theorem resetHoldsTheSpecValues : Obligations.ResetHoldsTheSpecValues :=
  fun _ => ⟨rfl, rfl, rfl, rfl, rfl, rfl, rfl, rfl, rfl, rfl, rfl⟩

/-- Settles O2: reset is in SCAN mode, where the invariant asks nothing of a payload, and the log
is empty. -/
theorem resetMeetsTheInvariant : Obligations.ResetMeetsTheInvariant := fun p =>
  .of_not_inUnit (s := State.resetWith p) not_inUnit_scan Memory.wf_nil
    (fun k _ => ⟨Nat.two_pow_pos k, Nat.two_pow_pos k⟩) rfl (List.forall_mem_nil _)

end Sys2Proof.Machine
end

section
/-! PROOFS. A finite stream ends the run (spec/70_reset_and_hazards.md R131, R132): where no capacity
is bounded, a byte keeps the run going, and End ends it. -/

namespace Sys2Proof.Machine

/-! ### The mode after a symbol -/

theorem typeByte_mode_ne_done {s : State} (hm : s.mode = .type) (b : Byte) :
    (typeByte b s).mode ≠ .done := by
  rcases typeByte_cases b s with ⟨_, e⟩ | ⟨_, _, e⟩ | ⟨_, _, e⟩ <;> simp [e, hm]

theorem startPayload_mode_ne_done {s : State} (hm : s.mode = .size) :
    (startPayload s).mode ≠ .done := by
  rcases startPayload_cases s with ⟨_, e⟩ | ⟨_, _, e⟩ | ⟨_, _, e⟩ <;> simp [e, hm]

theorem sizeByte_mode_ne_done {s : State} (hm : s.mode = .size) (b : Byte) :
    (sizeByte b s).mode ≠ .done := by
  rcases sizeByte_cases b s with ⟨_, e⟩ | ⟨_, _, e⟩ | ⟨_, _, e⟩ <;> rw [e]
  · simp [hm]
  · simp [hm]
  · exact startPayload_mode_ne_done hm

theorem copyByte_mode_ne_done {s : State} (hm : s.mode = .copy) (b : Byte) :
    (copyByte b s).mode ≠ .done := by
  rcases copyByte_cases b s with ⟨_, e⟩ | ⟨_, e⟩ <;> simp [e, hm]

/-- Only End leads to DONE (41_nal_scanner.md R74, 42_payload_extractor.md R83). -/
theorem StepEnd.mode_ne_done {s t : State} {b : Byte} {rest : List Symbol} (hm : s.mode ≠ .done)
    (h : StepEnd s (s.consume rest) (.byte b) t) : t.mode ≠ .done := by
  cases h with
  | scan | hdrOther | epb => exact hm
  | hdrSei => nofun
  | type _ hm => exact typeByte_mode_ne_done (s := s.consume rest) hm b
  | size _ hm => exact sizeByte_mode_ne_done (s := s.consume rest) hm b
  | copy _ hm => exact copyByte_mode_ne_done (s := s.consume rest) hm b
  | done _ hd => exact absurd hd hm

/-- End leads to DONE from every mode. -/
theorem StepEnd.mode_done {s t : State} {rest : List Symbol}
    (h : StepEnd s (s.consume rest) .eos t) : t.mode = .done := by
  cases h with
  | endScan | trunc => rfl
  | done _ hm => exact hm

/-! ### The run -/

/-- The run has neither ended nor faulted, and no capacity bounds it. -/
structure RunsUnbounded (s : State) : Prop where
  fault : s.fault = none
  mode : s.mode ≠ .done
  accBits : s.params.accBits = none
  bufBytes : s.params.bufBytes = none

theorem RunsUnbounded.not_inputExceedsCapacity {s : State} (h : RunsUnbounded s) :
    ¬ InputExceedsCapacity s := by
  simp [InputExceedsCapacity, ExceedsCapacity, h.accBits, h.bufBytes]

/-- A symbol is consumed without a fault. -/
theorem RunsUnbounded.step {s : State} (h : RunsUnbounded s) {sym : Symbol} {rest : List Symbol}
    (hi : s.input = sym :: rest) :
    ∃ t, step s = .next t ∧ StepEnd s (s.consume rest) sym t ∧ t.fault = none ∧ t.input = rest ∧
      t.inPos = s.inPos + 1 := by
  obtain ⟨t, hstep, hend⟩ := step_ends h.fault hi
  have hport : t.inPos = s.inPos + 1 ∧ t.input = rest :=
    exec_port ((step_symbol h.fault hi).symm.trans hstep)
  refine ⟨t, hstep, hend, ?_, hport.2, hport.1⟩
  cases step_fault hstep with
  | noFault _ _ ht => exact ht
  | afterEnd hm => exact absurd hm h.mode
  | capacity hc => exact absurd hc h.not_inputExceedsCapacity

theorem RunsUnbounded.step_byte {s : State} (h : RunsUnbounded s) {b : Byte} {rest : List Symbol}
    (hi : s.input = .byte b :: rest) :
    ∃ t, Machine.step s = .next t ∧ RunsUnbounded t ∧ t.input = rest ∧ t.inPos = s.inPos + 1 := by
  obtain ⟨t, hstep, hend, hf, hport⟩ := h.step hi
  have hp := step_params hstep
  exact ⟨t, hstep, ⟨hf, hend.mode_ne_done h.mode, hp ▸ h.accBits, hp ▸ h.bufBytes⟩, hport⟩

/-- Bytes and then End end the run, one step a symbol. -/
theorem RunsUnbounded.runSteps_eos {s : State} (h : RunsUnbounded s) {bs : List Byte}
    (hi : s.input = byteSymbols bs ++ [.eos]) :
    ∃ t, runSteps (bs.length + 1) s = .next t ∧ t.runEnded = true ∧ t.input = [] ∧
      t.inPos = s.inPos + (bs.length + 1) := by
  induction bs generalizing s with
  | nil =>
    obtain ⟨t, hstep, hend, hf, hin, hpos⟩ := h.step hi
    refine ⟨t, runSteps_succ hstep 0, ?_, hin, hpos⟩
    simp [State.runEnded, State.isDone, State.isFaulted, hend.mode_done, hf]
  | cons b bs ih =>
    obtain ⟨t, hstep, ht, hin, hpos⟩ := h.step_byte hi
    obtain ⟨u, hrun, hended, hrest, hpos'⟩ := ih ht hin
    refine ⟨u, (runSteps_succ hstep _).trans hrun, hended, hrest, ?_⟩
    rw [hpos', hpos, List.length_cons]
    omega

/-- Settles O53, by induction on the bytes before End. -/
theorem finiteStreamEndsTheRun : Obligations.FiniteStreamEndsTheRun :=
  fun _ _ hf hm hacc hbuf hi => RunsUnbounded.runSteps_eos ⟨hf, hm, hacc, hbuf⟩ hi

end Sys2Proof.Machine
end

section
/-! PROOFS. A decode reads no bit past the payload (spec/40_bitcursor.md R63): buffers that agree on
the payload's bits decode to one record. -/

namespace Sys2Proof.Machine

/-! ### The reads -/

/-- The buffers hold the same bits below a position. -/
def BitsAgree (len : Nat) (m n : Memory) : Prop :=
  ∀ p, p < len → bitAt m p = bitAt n p

/-- Buffers that agree on a payload's bytes agree on its bits (20_memory.md R34). -/
theorem bitsAgree_of_read {m n : Memory} {ps : Nat}
    (h : ∀ a, a < ps → Memory.read m a = Memory.read n a) : BitsAgree (8 * ps) m n := fun p hp => by
  rw [bitAt, bitAt, h (p / 8) (Nat.div_lt_of_lt_mul hp)]

section

variable {m n : Memory} {c : Cursor}

theorem bitsFrom_congr {len p w : Nat} (h : BitsAgree len m n) (hin : w ≤ len - p) :
    bitsFrom m p w = bitsFrom n p w := by
  induction w generalizing p with
  | zero => rfl
  | succ w ih => rw [bitsFrom_succ, bitsFrom_succ, h p (by omega), ih (by omega)]

theorem readBit_congr (h : BitsAgree c.len m n) : readBit m c = readBit n c := by
  rcases readBit_cases m c with ⟨hin, e⟩ | ⟨hout, e⟩
  · rw [e, readBit_of_lt hin, h _ hin]
  · rw [e, readBit_of_le hout]

theorem readU_congr (h : BitsAgree c.len m n) (w : Nat) : readU m w c = readU n w c := by
  rcases readU_cases m w c with ⟨hin, e⟩ | ⟨hout, e⟩
  · rw [e, readU_of_le hin, bitsValue_eq_of_bitsFrom (bitsFrom_congr h (Nat.le_sub_of_add_le' hin))]
  · rw [e, readU_of_lt hout]

theorem zeroRun_congr (h : BitsAgree c.len m n) (left zeros : Nat) :
    zeroRun m left zeros c = zeroRun n left zeros c := by
  induction left generalizing zeros c with
  | zero => rw [zeroRun, zeroRun, readBit_congr h]
  | succ left ih =>
    rw [zeroRun, zeroRun, readBit_congr h]
    rcases readBit_cases n c with ⟨_, e⟩ | ⟨_, e⟩ <;> rw [e]
    dsimp only
    rw [ih (c := { c with pos := c.pos + 1 }) h]

theorem readUe_congr (h : BitsAgree c.len m n) (cap : Nat) : readUe cap m c = readUe cap n c := by
  rw [readUe, readUe, zeroRun_congr h]
  have hend := zeroRun_cases n cap 0 c
  generalize zeroRun n cap 0 c = r at hend
  cases hend with
  | one z =>
    dsimp only
    rw [readU_congr (c := { c with pos := c.pos + z + 1 }) h]
  | end_ => rfl
  | cap => rfl

end

/-! ### The fields -/

/-- Two field reads give one answer, and registers they complete with have a cursor of this
length. -/
structure SameField (len : Nat) (r q : FieldRead) : Prop where
  eq : r = q
  len_eq : ∀ d, r = .ok d → d.cur.len = len

theorem SameField.andThen {len : Nat} {r q : FieldRead} {k l : DecodeRegs → FieldRead}
    (h : SameField len r q) (hk : ∀ d, d.cur.len = len → SameField len (k d) (l d)) :
    SameField len (r.andThen k) (q.andThen l) := by
  obtain ⟨rfl, hlen⟩ := h
  cases r with
  | ok d => exact hk d (hlen d rfl)
  | raised e d =>
    rw [andThen_raised, andThen_raised]
    exact ⟨rfl, fun _ h => by cases h⟩

theorem SameField.of_ok {len : Nat} {d : DecodeRegs} (hd : d.cur.len = len) :
    SameField len (.ok d) (.ok d) :=
  ⟨rfl, fun _ h => by cases h; exact hd⟩

theorem sameField_readField {d : DecodeRegs} {r q : Read} {set : Nat → FieldFile → FieldFile}
    (h : r = q) (hadv : r.Advances d.cur) :
    SameField d.cur.len (readField r set d) (readField q set d) := by
  subst h
  refine ⟨rfl, fun d' h => ?_⟩
  cases r with
  | ok v c => cases h; exact (hadv v c rfl).len_eq
  | raised e c => cases h

section

variable {len : Nat} {m n : Memory} {d : DecodeRegs}

theorem sameField_readU (h : BitsAgree len m n) (w : Nat) (set : Nat → FieldFile → FieldFile)
    (hd : d.cur.len = len) :
    SameField len (readField (readU m w d.cur) set d) (readField (readU n w d.cur) set d) := by
  subst hd
  exact sameField_readField (readU_congr h w) (readU_advances m w d.cur)

theorem sameField_readUe (h : BitsAgree len m n) (cap : Nat) (set : Nat → FieldFile → FieldFile)
    (hd : d.cur.len = len) :
    SameField len (readField (readUe cap m d.cur) set d)
      (readField (readUe cap n d.cur) set d) := by
  subst hd
  exact sameField_readField (readUe_congr h cap) (readUe_advances cap m d.cur)

theorem sameField_decodeGrid (h : BitsAgree len m n) (hd : d.cur.len = len) :
    SameField len (decodeGrid m d) (decodeGrid n d) := by
  unfold decodeGrid
  split
  · exact (sameField_readU h _ _ hd).andThen fun _ hd =>
      (sameField_readU h _ _ hd).andThen fun _ hd =>
      (sameField_readU h _ _ hd).andThen fun _ hd => sameField_readU h _ _ hd
  · exact .of_ok hd

theorem sameField_decodeArrangement (h : BitsAgree len m n) (p : Params) (hd : d.cur.len = len) :
    SameField len (decodeArrangement p m d) (decodeArrangement p n d) :=
  (sameField_readU h _ _ hd).andThen fun _ hd =>
  (sameField_readU h _ _ hd).andThen fun _ hd =>
  (sameField_readU h _ _ hd).andThen fun _ hd =>
  (sameField_readU h _ _ hd).andThen fun _ hd =>
  (sameField_readU h _ _ hd).andThen fun _ hd =>
  (sameField_readU h _ _ hd).andThen fun _ hd =>
  (sameField_readU h _ _ hd).andThen fun _ hd =>
  (sameField_readU h _ _ hd).andThen fun _ hd =>
  (sameField_readU h _ _ hd).andThen fun _ hd =>
  (sameField_decodeGrid h hd).andThen fun _ hd =>
  (sameField_readU h _ _ hd).andThen fun _ hd => sameField_readUe h _ _ hd

theorem sameField_decodeFields (h : BitsAgree len m n) (p : Params) (hd : d.cur.len = len) :
    SameField len (decodeFields p m d) (decodeFields p n d) :=
  (sameField_readUe h _ _ hd).andThen fun _ hd =>
  (sameField_readU h _ _ hd).andThen fun d hd => by
    refine SameField.andThen ?_ fun _ hd => sameField_readU h _ _ hd
    split
    · exact sameField_decodeArrangement h p hd
    · exact .of_ok hd

end

/-- A decode depends on the payload's own bytes only (43_frame_packing.md R87, R107). -/
theorem decodeRecord_congr {m n : Memory} {ps : Nat} (p : Params)
    (h : ∀ a, a < ps → Memory.read m a = Memory.read n a) :
    decodeRecord p m ps = decodeRecord p n ps := by
  have hbits := bitsAgree_of_read h
  obtain ⟨heq, hlen⟩ := sameField_decodeFields (d := .start ps) hbits p rfl
  cases hm : decodeFields p m (.start ps) with
  | raised e d => rw [decodeRecord_of_raised hm, decodeRecord_of_raised (heq ▸ hm)]
  | ok d =>
    rw [decodeRecord_of_ok hm, decodeRecord_of_ok (heq ▸ hm), hlen d hm]
    rw [bitsFrom_congr hbits le_rfl]

end Sys2Proof.Machine
end

section
/-! PROOFS. Dead registers are never observed (spec/70_reset_and_hazards.md R124, spec/10_state.md
R30): states that agree as `SameLive` says take the same step, by the ways a step ends. -/

namespace Sys2Proof.Machine

/-! ### Related branches and related steps -/

/-- Branches of equivalent conditions are related when the branches taken together are. -/
theorem ite_rel {α : Type} {rel : α → α → Prop} {c d : Prop} [Decidable c] [Decidable d]
    {x y x' y' : α} (hcd : c ↔ d) (h : c → rel x y) (h' : ¬ c → rel x' y') :
    rel (if c then x else x') (if d then y else y') := by
  by_cases hc : c
  · rw [if_pos hc, if_pos (hcd.mp hc)]
    exact h hc
  · rw [if_neg hc, if_neg (mt hcd.mpr hc)]
    exact h' hc

/-- Steps whose ends are related have related outcomes. -/
theorem sameOutcome_step {rel : State → State → Prop} {s t : State} (hfault : s.fault = t.fault)
    (hinput : s.input = t.input)
    (hend : ∀ sym rest s', StepEnd s (s.consume rest) sym s' →
      ∃ t', StepEnd t (t.consume rest) sym t' ∧ rel s' t') :
    SameOutcome rel (step s) (step t) := by
  cases hf : s.fault with
  | some f =>
    rw [step_faulted hf, step_faulted (hfault ▸ hf)]
    rfl
  | none =>
    cases hi : s.input with
    | nil =>
      rw [step_waiting hf hi, step_waiting (hfault ▸ hf) (hinput ▸ hi)]
      rfl
    | cons sym rest =>
      obtain ⟨s', hs, he⟩ := step_ends hf hi
      obtain ⟨t', he', hrel⟩ := hend sym rest s' he
      rw [hs, step_of_end (hfault ▸ hf) (hinput ▸ hi) he']
      exact hrel

/-! ### The shared operations -/

theorem inUnit.ne_done {m : Mode} (h : inUnit m) : m ≠ .done := fun hd =>
  not_inUnit_done (hd ▸ h)

section

variable {s t : State}

theorem SameLive.consume (h : SameLive s t) (rest : List Symbol) :
    SameLive (s.consume rest) (t.consume rest) :=
  { h with inPos := congrArg (· + 1) h.inPos, input := rfl }

theorem SameLive.raiseFault (h : SameLive s t) (f : ModelFault) :
    SameLive (s.raiseFault f) (t.raiseFault f) :=
  { h with fault := rfl }

theorem SameLive.emit (h : SameLive s t) {r q : Record} (hr : r = q) :
    SameLive (s.emit r) (t.emit q) :=
  { h with out := by rw [State.emit_out, State.emit_out, h.out, hr] }

theorem SameLive.setSc (h : SameLive s t) {c d : Fin 4} (hc : c = d) :
    SameLive { s with sc := c } { t with sc := d } :=
  { h with sc := fun _ => hc }

/-- Entering a mode other than COPY: the registers live there must agree. -/
theorem SameLive.setMode (h : SameLive s t) {m : Mode} (hm : m ≠ .copy)
    (hsc : m ≠ .done → s.sc = t.sc) (hcounts : inUnit m → s.pt = t.pt ∧ s.ps = t.ps) :
    SameLive { s with mode := m } { t with mode := m } :=
  { h with
    mode := rfl
    sc := hsc
    pt := fun hu => (hcounts hu).1
    ps := fun hu => (hcounts hu).2
    zc := fun hc => absurd hc hm
    nOut := fun hc => absurd hc hm
    bufWf := fun hc => absurd hc hm
    buf := fun hc => absurd hc hm }

theorem SameLive.setDone (h : SameLive s t) :
    SameLive { s with mode := .done } { t with mode := .done } :=
  h.setMode (by decide) (absurd rfl) fun hu => absurd hu not_inUnit_done

/-- The registers live in a unit are written at its beginning (41_nal_scanner.md R71). -/
theorem SameLive.beginUnit (h : SameLive s t) : SameLive (beginUnit s) (beginUnit t) :=
  SameLive.setMode (s := { s with pt := 0, ps := 0, sc := 0 })
    (t := { t with pt := 0, ps := 0, sc := 0 })
    { h with pt := fun _ => rfl, ps := fun _ => rfl, sc := fun _ => rfl }
    (by decide) (fun _ => rfl) fun _ => ⟨rfl, rfl⟩

/-- The record of a completed payload: a decode sees the bytes below the payload's size. -/
theorem SameLive.payloadRecord (h : SameLive s t) (hu : inUnit s.mode)
    (hbuf : ∀ a, a < s.ps → Memory.read s.buf a = Memory.read t.buf a) :
    payloadRecord s = payloadRecord t := by
  rw [Machine.payloadRecord, Machine.payloadRecord, ← h.params, ← h.pt hu, ← h.ps hu,
    decodeRecord_congr s.params hbuf]

theorem SameLive.finish (h : SameLive s t) (hu : inUnit s.mode)
    (hbuf : ∀ a, a < s.ps → Memory.read s.buf a = Memory.read t.buf a) :
    SameLive (finish s) (finish t) :=
  (h.emit (h.payloadRecord hu hbuf)).setMode (by decide) (fun _ => h.sc hu.ne_done)
    fun hs => absurd hs not_inUnit_scan

/-- The buffer is empty at the start of a payload, whatever it held (42_payload_extractor.md
R79). -/
theorem SameLive.startPayload (h : SameLive s t) (hu : inUnit s.mode) :
    SameLive (startPayload s) (startPayload t) := by
  have hpt := h.pt hu
  have hps := h.ps hu
  have hstart : SameLive { s with nOut := 0, zc := 0, buf := [] }
      { t with nOut := 0, zc := 0, buf := [] } :=
    { h with
      zc := fun _ => rfl
      nOut := fun _ => rfl
      bufWf := fun _ => ⟨Memory.wf_nil, Memory.wf_nil⟩
      buf := fun _ _ _ => rfl }
  refine ite_rel (by rw [h.params, hpt, hps]) (fun _ => ?_) fun _ => h.raiseFault _
  refine ite_rel (by rw [hps]) (fun _ => hstart.finish hu fun _ _ => rfl) fun _ => ?_
  exact { hstart with
    mode := rfl
    sc := fun _ => h.sc hu.ne_done
    pt := fun _ => hpt
    ps := fun _ => hps
    zc := fun _ => rfl
    nOut := fun _ => rfl
    bufWf := fun _ => ⟨Memory.wf_nil, Memory.wf_nil⟩
    buf := fun _ _ _ => rfl }

theorem SameLive.addType (h : SameLive s t) (hu : inUnit s.mode) (b : Byte) {k : State → State}
    (hk : ∀ n, SameLive (k { s with pt := n }) (k { t with pt := n })) :
    SameLive (addType b k s) (addType b k t) := by
  have hpt := h.pt hu
  refine ite_rel (by rw [h.params, hpt]) (fun _ => ?_) fun _ => h.raiseFault _
  rw [← hpt]
  exact hk _

theorem SameLive.addSize (h : SameLive s t) (hu : inUnit s.mode) (b : Byte) {k : State → State}
    (hk : ∀ n, SameLive (k { s with ps := n }) (k { t with ps := n })) :
    SameLive (addSize b k s) (addSize b k t) := by
  have hps := h.ps hu
  refine ite_rel (by rw [h.params, hps]) (fun _ => ?_) fun _ => h.raiseFault _
  rw [← hps]
  exact hk _

/-- A stored byte is one more on which the buffers agree. -/
theorem SameLive.storeByte (h : SameLive s t) (hm : s.mode = .copy) (b : Byte) :
    SameLive (storeByte b s) (storeByte b t) := by
  have hn := h.nOut hm
  obtain ⟨hs, ht⟩ := h.bufWf hm
  refine { h with
    zc := fun _ => congrArg (zcNext · b) (h.zc hm)
    nOut := fun _ => congrArg (· + 1) hn
    bufWf := fun _ => ⟨Memory.wf_write hs _ b, Memory.wf_write ht _ b⟩
    buf := fun _ a (ha : a < s.nOut + 1) => ?_ }
  rw [storeByte_buf, storeByte_buf, ← hn, Memory.read_write_of_wfFrom hs,
    Memory.read_write_of_wfFrom ht]
  exact ite_rel Iff.rfl (fun _ => rfl) fun hne => h.buf hm a (by omega)

/-! ### The bytes of a unit -/

theorem SameLive.typeByte (h : SameLive s t) (hm : s.mode = .type) (b : Byte) :
    SameLive (typeByte b s) (typeByte b t) := by
  have hu : inUnit s.mode := .inl hm
  have hpt (n : Nat) : SameLive { s with pt := n } { t with pt := n } :=
    { h with pt := fun _ => rfl }
  exact ite_rel Iff.rfl (fun _ => h.addType hu _ hpt) fun _ => h.addType hu _ fun n =>
    (hpt n).setMode (by decide) (fun _ => h.sc hu.ne_done) fun _ => ⟨rfl, h.ps hu⟩

theorem SameLive.sizeByte (h : SameLive s t) (hm : s.mode = .size) (b : Byte) :
    SameLive (sizeByte b s) (sizeByte b t) := by
  have hu : inUnit s.mode := .inr (.inl hm)
  have hps (n : Nat) : SameLive { s with ps := n } { t with ps := n } :=
    { h with ps := fun _ => rfl }
  exact ite_rel Iff.rfl (fun _ => h.addSize hu _ hps) fun _ => h.addSize hu _ fun n =>
    (hps n).startPayload hu

/-- At the last byte the buffers agree below `n_out`, which is the payload's size. -/
theorem SameLive.copyByte (h : SameLive s t) (hm : s.mode = .copy) (b : Byte) :
    SameLive (copyByte b s) (copyByte b t) := by
  have hu : inUnit s.mode := .inr (.inr hm)
  have hstore := h.storeByte hm b
  refine ite_rel (by rw [hstore.nOut hm, hstore.ps hu]) (fun hlast => ?_) fun _ => hstore
  exact hstore.finish hu fun a ha => hstore.buf hm a (hlast ▸ ha)

/-! ### One step -/

/-- Whatever way a step ends from s, a step from t ends the same way. -/
theorem SameLive.stepEnd (h : SameLive s t) {sym : Symbol} {rest : List Symbol} {s' : State}
    (he : StepEnd s (s.consume rest) sym s') :
    ∃ t', StepEnd t (t.consume rest) sym t' ∧ SameLive s' t' := by
  have hu := h.consume rest
  have hmode {m : Mode} (hm : s.mode = m) : t.mode = m := h.mode ▸ hm
  have hsc (hm : s.mode = .scan) : s.sc = t.sc := h.sc (by simp [hm])
  cases he with
  | scan b hm hne =>
    exact ⟨_, .scan b (hmode hm) (hsc hm ▸ hne), hu.setSc (congrArg (scNext · b) (hsc hm))⟩
  | hdrSei b hm h3 hh =>
    exact ⟨_, .hdrSei b (hmode hm) (hsc hm ▸ h3) (h.params ▸ hh), hu.beginUnit⟩
  | hdrOther b hm h3 hh =>
    exact ⟨_, .hdrOther b (hmode hm) (hsc hm ▸ h3) (h.params ▸ hh), hu.setSc rfl⟩
  | endScan hm => exact ⟨_, .endScan (hmode hm), hu.setDone⟩
  | type b hm => exact ⟨_, .type b (hmode hm), hu.typeByte hm b⟩
  | size b hm => exact ⟨_, .size b (hmode hm), hu.sizeByte hm b⟩
  | epb hm hz => exact ⟨_, .epb (hmode hm) (h.zc hm ▸ hz), { hu with zc := fun _ => rfl }⟩
  | copy b hm hz => exact ⟨_, .copy b (hmode hm) (h.zc hm ▸ hz), hu.copyByte hm b⟩
  | trunc hm =>
    exact ⟨_, .trunc (h.mode ▸ hm), (hu.emit (by rw [hu.mode, hu.pt hm, hu.ps hm])).setDone⟩
  | done _ hm => exact ⟨_, .done sym (hmode hm), hu.raiseFault _⟩

end

/-- Settles O51, by the step lemma: whatever a step reads to choose what to do, and whatever it
emits, `SameLive` fixes. -/
theorem deadRegistersAreNeverObserved : Obligations.DeadRegistersAreNeverObserved :=
  fun _ _ => sameOutcome_runSteps fun _ _ h =>
    sameOutcome_step h.fault h.input fun _ _ _ => h.stepEnd

end Sys2Proof.Machine
end
